-- ==== Sys2Proof/Word.lean ====
section
/-! DEFINITION. The machine's words: bytes, 32-bit register words, 64-bit stream positions, bit strings. -/

namespace Sys2Proof

/-- One byte: a symbol, a memory cell, the writer's accumulator (00_scope.md R5, `NSYM` = 256, `ACC_W` = 8). -/
abbrev Byte := BitVec 8

/-- A 32-bit register or count (00_scope.md R5, `OPND_W` and `CNT_W`). -/
abbrev Word := BitVec 32

/-- A 64-bit stream length or position (00_scope.md R5, `POS_W`). -/
abbrev Pos := BitVec 64

/-- A bit string, its first bit first (00_scope.md R6). -/
abbrev Bits := List Bool

end Sys2Proof
end

