-- ==== Sys2Proof/Machine/Tables.lean ====
section
/-! DEFINITION. The kinds of data the state is made of: the four memories' names, the entries of the five tables,
the abstract code tree, the fault codes, and a name for every element of state that a command can write. -/

namespace Sys2Proof.Machine

/-- The four byte memories (10_state.md R18). -/
inductive MemName where
  | src | cbo | cbi | dst
deriving DecidableEq, Repr

/-- The five tables with a debug view (10_state.md R28). -/
inductive Table where
  | freq | queue | node | code | dmap
deriving DecidableEq, Repr

/-- One entry of the queue `Q` (10_state.md R23). -/
structure QEntry where
  sym   : Byte
  count : Word
deriving DecidableEq, Repr, Inhabited

/-- One entry of the node arena `NODE` (10_state.md R25). `sym` exists for a leaf only, `left` and `right` for an
internal node only: the fields the spec calls not meaningful are absent (log 22). -/
inductive Node where
  | leaf (sym : Byte) (weight : Word)
  | internal (weight : Word) (left right : BitVec 9)
deriving DecidableEq, Repr, Inhabited

/-- A code tree as an abstract value (10_state.md R24). -/
inductive Tree where
  | leaf (sym : Byte) (weight : Word)
  | internal (weight : Word) (left right : Tree)
deriving DecidableEq, Repr, Inhabited

/-- `w(t)`, the weight of a tree (00_scope.md R7, 10_state.md R24). -/
def Tree.weight : Tree → Word
  | .leaf _ w => w
  | .internal w _ _ => w

/-- One entry of the encoder-side code table `CT` (10_state.md R26). -/
structure CodeEntry where
  sym  : Byte
  len  : BitVec 16
  bits : Bits
deriving DecidableEq, Repr, Inhabited

/-- One entry of the decoder map `DMAP` (10_state.md R27). -/
structure MapEntry where
  bits : Bits
  sym  : Byte
deriving DecidableEq, Repr, Inhabited

/-- The fault codes 1 to 10 of 60_exceptions.md R181, in the table's order. -/
inductive Err where
  | range | bitValue | truncated | emptyInput | noHeader | dupCode | closed | seq | illegal | capacity
deriving DecidableEq, Repr

/-- The order in which two pending subtrees become the candidate's children: `PEND_ORDER` of 00_scope.md R5.
`olderFirst` is the default (43_tree_builder.md R116 (c)); `lighterFirst` is the alternative 92_eei_decisions.md D12
names (log 17). -/
inductive PendOrder where
  | olderFirst | lighterFirst
deriving DecidableEq, Repr

/-- The implementation parameters of 00_scope.md R5 that a model may take as arguments (logs 2 and 17). `tieOrder`
lists every byte value once, in the order in which `SORT` iterates the frequency table (42_frequency_sort.md R104). -/
structure Params where
  srcCap    : Nat
  cboCap    : Nat
  cbiCap    : Nat
  dstCap    : Nat
  dmapCap   : Nat
  dcodeMax  : Nat
  tieOrder  : List Byte
  pendOrder : PendOrder
deriving DecidableEq, Repr

/-- The capacity of each memory (10_state.md R18). -/
def Params.cap (p : Params) : MemName → Nat
  | .src => p.srcCap
  | .cbo => p.cboCap
  | .cbi => p.cbiCap
  | .dst => p.dstCap

/-- A name for every element of state that some command or host action can write and that is therefore unspecified
after its fault (60_exceptions.md R185). `STATUS.ERR` and `ERR_INFO` are not among them: a fault gives them values
(R181, R182). -/
inductive Elem where
  | wdata | rdata | srcLen | cbiLen
  | srcByte (a : Nat) | cbiByte (a : Nat)
  | wAcc | wCnt | wOpen | cbo | cboLen
  | rBuf | rCnt | rPos | rOpen
  | dst | dstLen
  | freqV | qV | treeV | ctV | dstV | flagCleared
  | freq | queue | qLen | nodes | nNodes | root | rootW | ct | ctLen | dmap | dmapLen
  | total | unique | emitted
deriving DecidableEq, Repr

end Sys2Proof.Machine
end

