-- ==== Sys2Proof/Syntax.lean ====
section
/-! DEFINITION. The 22 commands (30_encoding.md R62), the host's actions (47_system.md R172) and the events the block
sees. -/

namespace Sys2Proof

/-- A command of the CORE, one constructor per row of spec/opcode_table.json (30_encoding.md R62). `WBIT` alone has
a field, the flush flag `F`; every other operand is the register `WDATA` (R61). -/
inductive Instr where
  | nop
  | sreset
  | wopen
  | wubyte
  | wushort
  | wuint
  | wbit (flush : Bool)
  | wclose
  | ropen
  | rubyte
  | rushort
  | ruint
  | rbit
  | rclose
  | freq
  | sort
  | tree
  | codes
  | encode
  | decode
  | compress
  | decompress
deriving DecidableEq, Repr

/-- What a host may try on the interface. `WellFormed.lean` says which of these are actions of 47_system.md R172. -/
inductive HostAction where
  /-- R172 (a). -/
  | readReg (i : Nat)
  /-- R172 (b) to (e): `WriteReg(i, v)`. -/
  | writeReg (i : Nat) (v : BitVec 64)
  /-- R172 (f): a memory. -/
  | readMem (m : Machine.MemName) (a : Nat)
  /-- R172 (f): a debug view of 10_state.md R28. -/
  | readView (t : Machine.Table) (i : Nat)
  /-- R172 (g), (h): `WriteMem(m, a, b)`. -/
  | writeMem (m : Machine.MemName) (a : Nat) (b : Byte)
deriving DecidableEq, Repr

/-- One event: a host action, or the hardware reset from outside, between actions or while command word `c` is
executing (70_reset_and_hazards.md R200, R202; log 15). -/
inductive Event where
  | host (a : HostAction)
  | hardReset
  | hardResetDuring (c : Word)
deriving DecidableEq, Repr

end Sys2Proof
end

