-- ==== Sys2Proof/WellFormed.lean ====
section
/-! DEFINITION. What is well formed: command words (30_encoding.md R60, R63), host actions (47_system.md R172) and
parameters (00_scope.md R5). Every term of `Instr` is well formed: the one field, `WBIT`'s flag, has two legal values. -/

namespace Sys2Proof

open Sys2Proof.Machine (MemName Params)

/-- The opcodes of 30_encoding.md R62. -/
def opcodes : List Byte :=
  [0x00, 0x01, 0x10, 0x11, 0x12, 0x13, 0x14, 0x15, 0x20, 0x21, 0x22, 0x23, 0x24, 0x25, 0x30, 0x31, 0x32, 0x33, 0x34,
    0x35, 0x40, 0x41]

/-- The field rules of the command word: bits 31:9 are 0, `F` (bit 8) is 0 unless `OP` is 0x14, `OP` is in the map
(30_encoding.md R60, R63). -/
def wordWellFormed (c : Word) : Bool :=
  c.extractLsb' 9 23 == 0#23 && (!c.getLsbD 8 || c.extractLsb' 0 8 == 0x14#8)
    && opcodes.contains (c.extractLsb' 0 8)

/-- No field of a command can be ill formed (30_encoding.md R60: `F` is one bit). -/
def Instr.wellFormed : Instr → Bool
  | .nop | .sreset | .wopen | .wubyte | .wushort | .wuint | .wbit _ | .wclose | .ropen | .rubyte | .rushort | .ruint
  | .rbit | .rclose | .freq | .sort | .tree | .codes | .encode | .decode | .compress | .decompress => true

/-- The host actions the interface offers: `ReadReg(i)` for `i` in 0 .. 20, `WriteReg` of `CMD`, `WDATA`, `SRC_LEN`
(32 bits) and `CBI_LEN` (64 bits), reads of memories and debug views, `WriteMem` of `SRC` and `CBI` below their
capacity (47_system.md R172; log 13, log 21). -/
def HostAction.offered (p : Params) : HostAction → Bool
  | .readReg i => i ≤ 20
  | .writeReg i v => ((i == 0 || i == 1 || i == 5) && decide (v.toNat < 2 ^ 32)) || i == 6
  | .readMem _ _ => true
  | .readView _ _ => true
  | .writeMem m a _ => (m == .src && decide (a < p.srcCap)) || (m == .cbi && decide (a < p.cbiCap))

/-- Legal parameter values: the bounds of 00_scope.md R5, and `TIE_ORDER` a ranking of all 256 symbols, each once
(42_frequency_sort.md R104). -/
def paramsWellFormed (p : Params) : Bool :=
  decide (p.srcCap ≤ 2 ^ 32 - 1) && decide (p.cboCap ≤ 2 ^ 64 - 1) && decide (p.cbiCap ≤ 2 ^ 64 - 1)
    && decide (p.dstCap ≤ 2 ^ 32 - 1) && decide p.tieOrder.Nodup && decide (p.tieOrder.length = 256)

end Sys2Proof
end

