-- ==== Sys2Proof/Decode.lean ====
section
/-! DEFINITION. The opcode map of 30_encoding.md R62 as rows with a match and a mask, the decoder that selects by
them, rejecting by name (R63), and the encoder. -/

namespace Sys2Proof

/-- Why a command word matches no row (30_encoding.md R63). -/
inductive Reject where
  /-- A 1 in bits 31:9. -/
  | reservedBits
  /-- `F = 1` with an `OP` other than 0x14. -/
  | flushFlag
  /-- An `OP` that is not in the table. -/
  | unknownOpcode
deriving DecidableEq, Repr

/-- One row of 30_encoding.md R62: a word `c` selects the row when `c & mask = value`. -/
structure OpcodeRow where
  value : Word
  mask  : Word
  instr : Word → Instr

/-- `c & mask = match`. -/
def OpcodeRow.selects (r : OpcodeRow) (c : Word) : Bool := c &&& r.mask == r.value

/-- The flush flag `F` of a command word: bit 8 (30_encoding.md R60). -/
def flushFlag (c : Word) : Bool := c.getLsbD 8

/-- The mask of a row with no free bit (30_encoding.md R62). -/
def exactMask : Word := 0xFFFFFFFF#32

/-- The mask of `WBIT`: bit 8, `F`, is free (30_encoding.md R62). -/
def wbitMask : Word := 0xFFFFFEFF#32

/-- The 22 rows of 30_encoding.md R62, in its order. -/
def opcodeRows : List OpcodeRow :=
  [ ⟨0x00000000#32, exactMask, fun _ => .nop⟩,
    ⟨0x00000001#32, exactMask, fun _ => .sreset⟩,
    ⟨0x00000010#32, exactMask, fun _ => .wopen⟩,
    ⟨0x00000011#32, exactMask, fun _ => .wubyte⟩,
    ⟨0x00000012#32, exactMask, fun _ => .wushort⟩,
    ⟨0x00000013#32, exactMask, fun _ => .wuint⟩,
    ⟨0x00000014#32, wbitMask, fun c => .wbit (flushFlag c)⟩,
    ⟨0x00000015#32, exactMask, fun _ => .wclose⟩ ]
  ++
  [ ⟨0x00000020#32, exactMask, fun _ => .ropen⟩,
    ⟨0x00000021#32, exactMask, fun _ => .rubyte⟩,
    ⟨0x00000022#32, exactMask, fun _ => .rushort⟩,
    ⟨0x00000023#32, exactMask, fun _ => .ruint⟩,
    ⟨0x00000024#32, exactMask, fun _ => .rbit⟩,
    ⟨0x00000025#32, exactMask, fun _ => .rclose⟩ ]
  ++
  [ ⟨0x00000030#32, exactMask, fun _ => .freq⟩,
    ⟨0x00000031#32, exactMask, fun _ => .sort⟩,
    ⟨0x00000032#32, exactMask, fun _ => .tree⟩,
    ⟨0x00000033#32, exactMask, fun _ => .codes⟩,
    ⟨0x00000034#32, exactMask, fun _ => .encode⟩,
    ⟨0x00000035#32, exactMask, fun _ => .decode⟩,
    ⟨0x00000040#32, exactMask, fun _ => .compress⟩,
    ⟨0x00000041#32, exactMask, fun _ => .decompress⟩ ]

/-- The cause of a rejection (30_encoding.md R63). -/
def rejectReason (c : Word) : Reject :=
  if c.extractLsb' 9 23 ≠ 0#23 then .reservedBits
  else if flushFlag c && opcodes.contains (c.extractLsb' 0 8) then .flushFlag
  else .unknownOpcode

/-- The decoder: the row a command word selects, or a rejection by name (47_system.md R170, 30_encoding.md R62, R63). -/
def decode (c : Word) : Except Reject Instr :=
  match opcodeRows.find? (·.selects c) with
  | some r => .ok (r.instr c)
  | none => .error (rejectReason c)

/-- The opcode `OP` of a command (30_encoding.md R62). -/
def opcodeOf : Instr → Byte
  | .nop => 0x00
  | .sreset => 0x01
  | .wopen => 0x10
  | .wubyte => 0x11
  | .wushort => 0x12
  | .wuint => 0x13
  | .wbit _ => 0x14
  | .wclose => 0x15
  | .ropen => 0x20
  | .rubyte => 0x21
  | .rushort => 0x22
  | .ruint => 0x23
  | .rbit => 0x24
  | .rclose => 0x25
  | .freq => 0x30
  | .sort => 0x31
  | .tree => 0x32
  | .codes => 0x33
  | .encode => 0x34
  | .decode => 0x35
  | .compress => 0x40
  | .decompress => 0x41

/-- The flag `F` of a command: `WBIT`'s, 0 for every other (30_encoding.md R60). -/
def flagOf : Instr → Bool
  | .wbit f => f
  | .nop | .sreset | .wopen | .wubyte | .wushort | .wuint | .wclose | .ropen | .rubyte | .rushort | .ruint | .rbit
  | .rclose | .freq | .sort | .tree | .codes | .encode | .decode | .compress | .decompress => false

/-- The command word of a command: reserved bits 31:9, then `F`, then `OP` (30_encoding.md R60). -/
def encode (i : Instr) : Word :=
  0#23 ++ (BitVec.ofBool (flagOf i) ++ opcodeOf i)

/-- The command the decoder reads from a word given as a number of `nbits` bits; every bit above `nbits` is 0. -/
def decodeTableWord (nbits w : Nat) : Option Instr :=
  match decode (BitVec.ofNat 32 (w % 2 ^ nbits)) with
  | .ok i => some i
  | .error _ => none

end Sys2Proof
end

