-- ==== Sys2Proof/Config.lean ====
section
/-! DEFINITION. What an implementation fixes, and the free values: constants without a body, so that no proof can
see what they are. `seed` is the model's counter `State.fresh` (log 3). -/

namespace Sys2Proof.Config

open Sys2Proof.Machine (Elem MemName QEntry Node Tree CodeEntry MapEntry Params)

/-- The bits an unspecified register or flag holds (60_exceptions.md R185; 93_implementation_defined.md U6). -/
opaque freeBits (seed : Nat) (e : Elem) : BitVec 64

/-- The cells of a memory whose contents are unspecified (60_exceptions.md R185; 93_implementation_defined.md U6). -/
opaque freeCells (seed : Nat) (m : MemName) : List (Nat × Byte)

/-- An unspecified frequency table (93_implementation_defined.md U6). -/
opaque freeFreq (seed : Nat) : Vector Word 256

/-- An unspecified queue (93_implementation_defined.md U6). -/
opaque freeQueue (seed : Nat) : List QEntry

/-- An unspecified node arena (93_implementation_defined.md U6). -/
opaque freeNodes (seed : Nat) : List Node

/-- An unspecified code table (93_implementation_defined.md U6). -/
opaque freeCodes (seed : Nat) : List CodeEntry

/-- An unspecified decoder map (93_implementation_defined.md U6). -/
opaque freeDmap (seed : Nat) : List MapEntry

/-- The byte a host reads beyond the valid part of `CBO` or `DST` (10_state.md R18; 93_implementation_defined.md U7). -/
opaque freeByte (seed : Nat) (m : MemName) (a : Nat) : Byte

/-- What a debug read of an invalid `FREQ` entry returns (10_state.md R28; 93_implementation_defined.md U8). -/
opaque freeCount (seed i : Nat) : Word

/-- What a debug read of an invalid `Q` entry returns (10_state.md R28). -/
opaque freeQEntry (seed i : Nat) : QEntry

/-- What a debug read of an invalid `NODE` entry returns (10_state.md R28). -/
opaque freeNode (seed i : Nat) : Node

/-- What a debug read of an invalid `CT` entry returns (10_state.md R28). -/
opaque freeCodeEntry (seed i : Nat) : CodeEntry

/-- What a debug read of an invalid `DMAP` entry returns (10_state.md R28). -/
opaque freeMapEntry (seed i : Nat) : MapEntry

/-- The tree found at an arena index that holds no node of the tree: states no run reaches (log 16). -/
opaque freeTree (seed : Nat) (i : BitVec 9) : Tree

/-- The code of a symbol that has no entry in `CT`: states no run reaches (log 16). -/
opaque freeCode (seed : Nat) (s : Byte) : Bits

/-- The byte a memory cell holds that nothing has written since power-up: one value per cell, which stays
(70_reset_and_hazards.md R200; 93_implementation_defined.md U9; log 5). -/
opaque powerUpByte (m : MemName) (a : Nat) : Byte

/-- The default parameters (00_scope.md R5): the largest capacities it allows, the default decoder limits,
`TIE_ORDER` ascending byte value, `PEND_ORDER` list order (logs 2 and 17). -/
def defaultParams : Params where
  srcCap    := 2 ^ 32 - 1
  cboCap    := 2 ^ 64 - 1
  cbiCap    := 2 ^ 64 - 1
  dstCap    := 2 ^ 32 - 1
  dmapCap   := 65535
  dcodeMax  := 65535
  tieOrder  := (List.range 256).map (BitVec.ofNat 8)
  pendOrder := .olderFirst

end Sys2Proof.Config
end

