-- ==== Sys2Proof/Machine/State.lean ====
section
/-! DEFINITION. The state of the CORE (10_state.md R10) as plain data, the reasons a step can stop, and the state
after reset. -/

namespace Sys2Proof.Machine

/-- A byte memory (10_state.md R18): the cells written so far, as (address, byte) pairs with strictly rising
addresses. A cell that is not listed has no known value: `byteAt` reads it as a free value (log 5). -/
abbrev Memory := List Host.Cell

/-- The canonical form: addresses strictly rising. An unlisted cell has no value, so no entry can equal it (log 5). -/
abbrev Memory.wf (m : Memory) : Prop := m.Pairwise fun x y => x.1 < y.1

/-- The writer side of the bit channel with its stream (10_state.md R19, R20). -/
structure OutChannel where
  /-- `W_ACC`: the buffered bits, the first in bit 7, zeros below them. -/
  acc    : BitVec 8
  /-- `W_CNT`: how many bits are buffered, 0 to 7 between commands. -/
  cnt    : BitVec 4
  /-- `STATUS.W_OPEN`. -/
  opened : Bool
  /-- The memory `CBO`. -/
  cbo    : Memory
  /-- `CBO_LEN`. -/
  len    : Pos
deriving DecidableEq, Repr

/-- The reader side of the bit channel with its stream (10_state.md R19, R21). -/
structure InChannel where
  /-- `R_BUF`: the unread bits of the last byte, the next in bit 7. -/
  buf    : BitVec 8
  /-- `R_CNT`: how many bits are unread, 0 to 7 between commands. -/
  cnt    : BitVec 4
  /-- `R_POS`. -/
  pos    : Pos
  /-- `STATUS.R_OPEN`. -/
  opened : Bool
  /-- The memory `CBI`. -/
  cbi    : Memory
  /-- `CBI_LEN`. -/
  len    : Pos
deriving DecidableEq, Repr

/-- What a host read returns (47_system.md R172 (a), (f)). -/
inductive HostValue where
  | reg (v : BitVec 64)
  | byte (b : Byte)
  | count (c : Word)
  | queue (e : QEntry)
  | node (n : Node)
  | code (e : CodeEntry)
  | map (e : MapEntry)
deriving DecidableEq, Repr

/-- The state of the CORE (10_state.md R10 (a) to (j)). The last fields, after `emitted`, are the model's own (logs 1,
2, 3 and 7). -/
structure State where
  /-- `WDATA`. -/
  wdata    : Word
  /-- `RDATA`. -/
  rdata    : Word
  /-- `STATUS.ERR`: the latched fault, if any (10_state.md R15, 60_exceptions.md R181). -/
  err      : Option Err
  /-- `ERR_INFO` (10_state.md R17). -/
  errInfo  : Word
  /-- `SRC_LEN`. -/
  srcLen   : Word
  /-- The memory `SRC`. -/
  src      : Memory
  /-- `W_ACC`, `W_CNT`, `W_OPEN`, `CBO`, `CBO_LEN`. -/
  out      : OutChannel
  /-- `R_BUF`, `R_CNT`, `R_POS`, `R_OPEN`, `CBI`, `CBI_LEN`. -/
  inp      : InChannel
  /-- The memory `DST`. -/
  dst      : Memory
  /-- `DST_LEN`. -/
  dstLen   : Word
  /-- `STATUS.FREQ_V`. -/
  freqV    : Bool
  /-- `STATUS.Q_V`. -/
  qV       : Bool
  /-- `STATUS.TREE_V`. -/
  treeV    : Bool
  /-- `STATUS.CT_V`. -/
  ctV      : Bool
  /-- `STATUS.DST_V`. -/
  dstV     : Bool
  /-- Whether a stage flag has been cleared since the last reset: from then on `ROOT` and `ROOT_W` have no defined value
  while `TREE_V` is 0 (93_implementation_defined.md U8; log 9). -/
  flagCleared : Bool
  /-- `FREQ` (10_state.md R22). -/
  freq     : Vector Word 256
  /-- `Q` (10_state.md R23). -/
  q        : List QEntry
  /-- `Q_LEN`. -/
  qLen     : BitVec 9
  /-- `NODE` (10_state.md R25). -/
  nodes    : List Node
  /-- `N_NODES`. -/
  nNodes   : BitVec 9
  /-- `ROOT`. -/
  root     : BitVec 9
  /-- `ROOT_W`. -/
  rootW    : Word
  /-- `CT` (10_state.md R26). -/
  ct       : List CodeEntry
  /-- `CT_LEN`. -/
  ctLen    : BitVec 9
  /-- `DMAP` (10_state.md R27). -/
  dmap     : List MapEntry
  /-- `DMAP_LEN`. -/
  dmapLen  : BitVec 16
  /-- `TOTAL`. -/
  total    : Word
  /-- `UNIQUE`. -/
  unique   : BitVec 16
  /-- `EMITTED`. -/
  emitted  : Word
  /-- The implementation parameters of 00_scope.md R5; written by nothing (log 2). -/
  params   : Params
  /-- The host actions and hardware resets still to come, in the order in which they happen (log 1). -/
  pending  : List Event
  /-- What the host's last read returned (log 7). -/
  hostRead : Option HostValue
  /-- The counter to which free values are applied; every step advances it (log 3). -/
  fresh    : Nat
deriving DecidableEq, Repr

/-- The reasons a step stops with a fault of the MODEL. The CORE's own faults are no stops: they are next states with
`err` set (60_exceptions.md R184). -/
inductive Fault where
  /-- Raised by a host read of a memory at an address at or beyond its capacity, where no byte exists (10_state.md
  R18; log 13). Safe: the machine stops where the spec gives no byte. -/
  | noSuchByte (m : MemName) (a : Nat)
deriving DecidableEq, Repr

/-- The reasons a step is refused. -/
inductive Refusal where
  /-- An instruction that has no meaning yet: raised by an arm of `exec` only. Safe. -/
  | notModelled (mnemonic : String)
  /-- Raised for a host action that the interface does not offer, such as a write of a read-only register
  (47_system.md R172; 93_implementation_defined.md U10; log 13). Safe: such an action has no transition. -/
  | notOffered (a : HostAction)
deriving DecidableEq, Repr

/-- The machine right after reset, at power-up (70_reset_and_hazards.md R200): every register 0, both channels closed,
every flag 0, nothing listed in any memory (log 5), the tables empty (log 6), the default parameters (log 2), nothing
to come (log 1). -/
def State.reset : State where
  wdata := 0#32
  rdata := 0#32
  err := none
  errInfo := 0#32
  srcLen := 0#32
  src := []
  out := ⟨0#8, 0#4, false, [], 0#64⟩
  inp := ⟨0#8, 0#4, 0#64, false, [], 0#64⟩
  dst := []
  dstLen := 0#32
  freqV := false
  qV := false
  treeV := false
  ctV := false
  dstV := false
  flagCleared := false
  freq := Vector.replicate 256 0#32
  q := []
  qLen := 0#9
  nodes := []
  nNodes := 0#9
  root := 0#9
  rootW := 0#32
  ct := []
  ctLen := 0#9
  dmap := []
  dmapLen := 0#16
  total := 0#32
  unique := 0#16
  emitted := 0#32
  params := Config.defaultParams
  pending := []
  hostRead := none
  fresh := 0

end Sys2Proof.Machine
end

