-- ==== Sys2Proof/Machine/Operands.lean ====
section
/-! DEFINITION. Operands: the one operand register, the range test of the fixed-width writers, and the byte order of
fixed-width integers, decided here once (20_memory.md R41, R42). -/

namespace Sys2Proof.Machine

/-- The operand of `WUBYTE`, `WUSHORT`, `WUINT` and `WBIT`: all 32 bits of `WDATA`, unsigned, nothing truncated
(30_encoding.md R61). -/
def operand (s : State) : Word := s.wdata

/-- The range test of a fixed-width write of `n` bytes: `v < 2^(8*n)` (40_channel_writer.md R84). -/
def fitsBytes (v : Word) (n : Nat) : Bool := decide (v.toNat < 2 ^ (8 * n))

/-- `(v >> (8*k)) & 0xFF`. -/
def byteOf (v : Word) (k : Nat) : Byte := (v >>> (8 * k)).setWidth 8

/-- `bytes_le(v, n)` (00_scope.md R7): the byte at the lowest stream position holds `v[7:0]` (20_memory.md R41). -/
def bytesLe (v : Word) (n : Nat) : List Byte := (List.range n).map (byteOf v)

/-- `le(bs)`, the sum over `k` of `bs[k] * 256^k` (00_scope.md R7). -/
def leValue : List Byte → Nat
  | [] => 0
  | b :: bs => b.toNat + 256 * leValue bs

/-- A single bit in bit 0 of a byte. -/
def bitByte (b : Bool) : Byte := if b then 1#8 else 0#8

/-- `zext_32` of a single bit (41_channel_reader.md R95). -/
def bitWord (b : Bool) : Word := if b then 1#32 else 0#32

end Sys2Proof.Machine
end

