-- ==== Sys2Proof/Machine/Flags.lean ====
section
/-! DEFINITION. The flags: the fault code numbers (60_exceptions.md R181), the `STATUS` word and the other registers as
the host reads them (10_state.md R12, R15), and what clears the stage flags (R15, R16). -/

namespace Sys2Proof.Machine

/-- The number latched in `STATUS.ERR` (60_exceptions.md R181). -/
def errCode : Err → Byte
  | .range => 1#8
  | .bitValue => 2#8
  | .truncated => 3#8
  | .emptyInput => 4#8
  | .noHeader => 5#8
  | .dupCode => 6#8
  | .closed => 7#8
  | .seq => 8#8
  | .illegal => 9#8
  | .capacity => 10#8

/-- `STATUS.ERR` as a number: 0 when no fault is latched (60_exceptions.md R181). -/
def errField (s : State) : Byte :=
  match s.err with
  | none => 0#8
  | some e => errCode e

/-- A flag at bit `k` of a register. -/
def flagBit (f : Bool) (k : Nat) : Word := bitWord f <<< k

/-- The `STATUS` register: bits 6:0 the flags, 15:8 `ERR`, bits 7 and 31:16 read 0 (10_state.md R15). -/
def statusWord (s : State) : Word :=
  flagBit s.out.opened 0 ||| flagBit s.inp.opened 1 ||| flagBit s.freqV 2 ||| flagBit s.qV 3 ||| flagBit s.treeV 4
    ||| flagBit s.ctV 5 ||| flagBit s.dstV 6 ||| ((errField s).setWidth 32 <<< 8)

/-- `CHW`: bits 7:0 `W_ACC`, 11:8 `W_CNT`, the rest 0 (10_state.md R12). -/
def chwWord (c : OutChannel) : Word := c.acc.setWidth 32 ||| (c.cnt.setWidth 32 <<< 8)

/-- `CHR`: bits 7:0 `R_BUF`, 11:8 `R_CNT`, the rest 0 (10_state.md R12). -/
def chrWord (c : InChannel) : Word := c.buf.setWidth 32 ||| (c.cnt.setWidth 32 <<< 8)

/-- `ROOT` and `ROOT_W` have no defined value: `TREE_V` is 0 and a stage flag has been cleared since the last reset
(10_state.md R12; 93_implementation_defined.md U8; log 9). -/
def rootStale (s : State) : Bool := !s.treeV && s.flagCleared

/-- `ReadReg(i)`: the value of register `i`, zero-extended to 64 bits; `CMD` reads 0 (10_state.md R12, 47_system.md
R172 (a)). A stale `ROOT` or `ROOT_W` is a free value (log 9). -/
def regValue (s : State) : Nat → BitVec 64
  | 0 => 0#64
  | 1 => s.wdata.setWidth 64
  | 2 => s.rdata.setWidth 64
  | 3 => (statusWord s).setWidth 64
  | 4 => s.errInfo.setWidth 64
  | 5 => s.srcLen.setWidth 64
  | 6 => s.inp.len
  | 7 => s.out.len
  | 8 => s.dstLen.setWidth 64
  | 9 => s.inp.pos
  | 10 => (chwWord s.out).setWidth 64
  | 11 => (chrWord s.inp).setWidth 64
  | 12 => s.total.setWidth 64
  | 13 => s.unique.setWidth 64
  | 14 => s.qLen.setWidth 64
  | 15 => s.nNodes.setWidth 64
  | 16 => if rootStale s then ((Config.freeBits s.fresh .root).setWidth 9).setWidth 64 else s.root.setWidth 64
  | 17 => if rootStale s then ((Config.freeBits s.fresh .rootW).setWidth 32).setWidth 64 else s.rootW.setWidth 64
  | 18 => s.ctLen.setWidth 64
  | 19 => s.dmapLen.setWidth 64
  | 20 => s.emitted.setWidth 64
  | _ => 0#64

/-- Any host write to `SRC` or `SRC_LEN` clears `FREQ_V`, `Q_V`, `TREE_V` and `CT_V` (10_state.md R16). -/
def invalidateStages (s : State) : State :=
  { s with freqV := false, qV := false, treeV := false, ctV := false, flagCleared := true }

end Sys2Proof.Machine
end

