-- ==== Sys2Proof/Machine/Ops.lean ====
section
/-! DEFINITION. The named operations: memory cells, taking a fault and leaving it by reset, and the shared steps of
the bit channel. Every meaning is written over these. -/

namespace Sys2Proof.Machine

/-! ## Memory -/

/-- The value last written to address `a`, if any. -/
def Memory.cell? : Memory → Nat → Option Byte
  | [], _ => none
  | (k, b) :: m, a => if k = a then some b else Memory.cell? m a

/-- `MemWrite(M, a, 1, [b])` (00_scope.md R7). -/
def Memory.write : Memory → Nat → Byte → Memory
  | [], a, b => [(a, b)]
  | (k, c) :: m, a, b =>
    if a < k then (a, b) :: (k, c) :: m
    else if a = k then (a, b) :: m
    else (k, c) :: Memory.write m a b

/-- `MemRead(M, a, 1)`: the byte of memory `n` at `a`; a cell that nothing has written holds the free byte it had at
power-up (log 5). -/
def byteAt (n : MemName) (m : Memory) (a : Nat) : Byte :=
  match Memory.cell? m a with
  | some b => b
  | none => Config.powerUpByte n a

/-- `MemRead(M, a, k)`: the `k` bytes from `a` on, in position order (00_scope.md R7). -/
def bytesAt (n : MemName) (m : Memory) (a k : Nat) : List Byte :=
  (List.range k).map fun j => byteAt n m (a + j)

/-- A memory of the given capacity whose contents are the given cells, in canonical form. -/
def Memory.ofCells (cap : Nat) (cells : List Host.Cell) : Memory :=
  cells.foldl (fun m x => if x.1 < cap then Memory.write m x.1 x.2 else m) []

/-- The source text `SRC[0 .. SRC_LEN-1]` in index order (20_memory.md R40). -/
def srcBytes (s : State) : List Byte := bytesAt .src s.src 0 s.srcLen.toNat

/-! ## Faults -/

/-- A `raise E(info)` on its way out of a command's pseudocode (00_scope.md R7, 60_exceptions.md R184). -/
structure Raise where
  code : Err
  info : Word
deriving DecidableEq, Repr

/-- Gives one element of state an unspecified value, applied to the state's counter (60_exceptions.md R185; log 4). -/
def havocElem (s : State) (e : Elem) : State :=
  let v := Config.freeBits s.fresh e
  match e with
  | .wdata => { s with wdata := v.setWidth 32 }
  | .rdata => { s with rdata := v.setWidth 32 }
  | .srcLen => { s with srcLen := v.setWidth 32 }
  | .cbiLen => { s with inp := { s.inp with len := v } }
  | .srcByte a => { s with src := Memory.write s.src a (v.setWidth 8) }
  | .cbiByte a => { s with inp := { s.inp with cbi := Memory.write s.inp.cbi a (v.setWidth 8) } }
  | .wAcc => { s with out := { s.out with acc := v.setWidth 8 } }
  | .wCnt => { s with out := { s.out with cnt := v.setWidth 4 } }
  | .wOpen => { s with out := { s.out with opened := v.getLsbD 0 } }
  | .cbo => { s with out := { s.out with cbo := Memory.ofCells s.params.cboCap (Config.freeCells s.fresh .cbo) } }
  | .cboLen => { s with out := { s.out with len := v } }
  | .rBuf => { s with inp := { s.inp with buf := v.setWidth 8 } }
  | .rCnt => { s with inp := { s.inp with cnt := v.setWidth 4 } }
  | .rPos => { s with inp := { s.inp with pos := v } }
  | .rOpen => { s with inp := { s.inp with opened := v.getLsbD 0 } }
  | .dst => { s with dst := Memory.ofCells s.params.dstCap (Config.freeCells s.fresh .dst) }
  | .dstLen => { s with dstLen := v.setWidth 32 }
  | .freqV => { s with freqV := v.getLsbD 0 }
  | .qV => { s with qV := v.getLsbD 0 }
  | .treeV => { s with treeV := v.getLsbD 0 }
  | .ctV => { s with ctV := v.getLsbD 0 }
  | .dstV => { s with dstV := v.getLsbD 0 }
  | .flagCleared => { s with flagCleared := v.getLsbD 0 }
  | .freq => { s with freq := Config.freeFreq s.fresh }
  | .queue => { s with q := Config.freeQueue s.fresh }
  | .qLen => { s with qLen := v.setWidth 9 }
  | .nodes => { s with nodes := Config.freeNodes s.fresh }
  | .nNodes => { s with nNodes := v.setWidth 9 }
  | .root => { s with root := v.setWidth 9 }
  | .rootW => { s with rootW := v.setWidth 32 }
  | .ct => { s with ct := Config.freeCodes s.fresh }
  | .ctLen => { s with ctLen := v.setWidth 9 }
  | .dmap => { s with dmap := Config.freeDmap s.fresh }
  | .dmapLen => { s with dmapLen := v.setWidth 16 }
  | .total => { s with total := v.setWidth 32 }
  | .unique => { s with unique := v.setWidth 16 }
  | .emitted => { s with emitted := v.setWidth 32 }

/-- Gives every listed element an unspecified value. -/
def havoc (es : List Elem) (s : State) : State := es.foldl havocElem s

/-- Fault entry, `raise E(info)` (60_exceptions.md R184, R185): `STATUS.ERR` and `ERR_INFO` are written, everything
the faulting command's rule lists as written (`es`) is unspecified, everything else keeps the value it had before the
command. Nothing is saved and control goes nowhere. -/
def takeFault (es : List Elem) (r : Raise) (s : State) : State :=
  { havoc es s with err := some r.code, errInfo := r.info }

/-- The way out of a fault and the reset itself (47_system.md R174, 70_reset_and_hazards.md R200): every register 0,
both channels closed and empty, every flag and the fault cleared, memory and table contents unchanged. -/
def resetRegs (s : State) : State :=
  { s with
    wdata := 0#32, rdata := 0#32, err := none, errInfo := 0#32, srcLen := 0#32,
    out := { acc := 0#8, cnt := 0#4, opened := false, cbo := s.out.cbo, len := 0#64 },
    inp := { buf := 0#8, cnt := 0#4, pos := 0#64, opened := false, cbi := s.inp.cbi, len := 0#64 },
    dstLen := 0#32, freqV := false, qV := false, treeV := false, ctV := false, dstV := false,
    flagCleared := false,
    qLen := 0#9, nNodes := 0#9, root := 0#9, rootW := 0#32, ctLen := 0#9, dmapLen := 0#16, total := 0#32, unique := 0#16, emitted := 0#32 }

/-- What each command's rule lists as written: the elements that are unspecified after its fault (60_exceptions.md
R185). For `COMPRESS` and `DECOMPRESS`: what any of their inner commands writes. -/
def writesOf : Instr → List Elem
  | .nop => []
  | .sreset => []
  | .wopen => [.wAcc, .wCnt, .cboLen, .wOpen]
  | .wubyte => [.wAcc, .wCnt, .cbo, .cboLen]
  | .wushort => [.wAcc, .wCnt, .cbo, .cboLen]
  | .wuint => [.wAcc, .wCnt, .cbo, .cboLen]
  | .wbit _ => [.wAcc, .wCnt, .cbo, .cboLen]
  | .wclose => [.wAcc, .wCnt, .cbo, .cboLen, .wOpen]
  | .ropen => [.rBuf, .rCnt, .rPos, .rOpen]
  | .rubyte => [.rdata, .rBuf, .rCnt, .rPos]
  | .rushort => [.rdata, .rBuf, .rCnt, .rPos]
  | .ruint => [.rdata, .rBuf, .rCnt, .rPos]
  | .rbit => [.rdata, .rBuf, .rCnt, .rPos]
  | .rclose => [.rBuf, .rCnt, .rOpen]
  | .freq => [.freq, .freqV, .qV, .treeV, .ctV, .flagCleared]
  | .sort => [.queue, .qLen, .qV, .treeV, .ctV, .flagCleared]
  | .tree => [.nodes, .nNodes, .root, .rootW, .treeV, .ctV, .flagCleared]
  | .codes => [.ct, .ctLen, .ctV]
  | .encode => [.total, .unique, .cbo, .cboLen, .wAcc, .wCnt, .wOpen]
  | .decode => [.dstV, .flagCleared, .dstLen, .dst, .dmap, .dmapLen, .emitted, .total, .unique, .rPos, .rBuf, .rCnt]
  | .compress =>
    [.freq, .freqV, .queue, .qLen, .qV, .nodes, .nNodes, .root, .rootW, .treeV, .ct, .ctLen, .ctV,
      .flagCleared, .total, .unique, .cbo, .cboLen, .wAcc, .wCnt, .wOpen]
  | .decompress =>
    [.dstV, .flagCleared, .dstLen, .dst, .dmap, .dmapLen, .emitted, .total, .unique, .rPos, .rBuf, .rCnt, .rOpen]

/-- The end of a command: its pseudocode completed, or stopped at its first `raise` (47_system.md R171). -/
def finish (i : Instr) (s : State) : Except Raise State → Host.Outcome State Fault Refusal
  | .ok t => .next t
  | .error r => .next (takeFault (writesOf i) r s)

/-! ## The writer side of the bit channel -/

/-- `emit(b)` (40_channel_writer.md R81): the only step that changes `CBO`. `op` is the innermost command's opcode. -/
def emit (cap : Nat) (op : Word) (b : Byte) (c : OutChannel) : Except Raise OutChannel :=
  if cap ≤ c.len.toNat then .error ⟨.capacity, op⟩
  else .ok { c with cbo := Memory.write c.cbo c.len.toNat b, len := c.len + 1#64 }

/-- Emits the accumulator and empties it: the last lines of `flush` (R82) and of `WBIT` (R85). -/
def emitAcc (cap : Nat) (op : Word) (c : OutChannel) : Except Raise OutChannel := do
  let c' ← emit cap op c.acc c
  .ok { c' with acc := 0#8, cnt := 0#4 }

/-- `flush()` (40_channel_writer.md R82). -/
def flush (cap : Nat) (op : Word) (c : OutChannel) : Except Raise OutChannel :=
  if c.cnt = 0#4 then .ok c else emitAcc cap op c

/-- `emit` of each byte in turn. -/
def emitAll (cap : Nat) (op : Word) : List Byte → OutChannel → Except Raise OutChannel
  | [], c => .ok c
  | b :: bs, c => do
    let c' ← emit cap op b c
    emitAll cap op bs c'

/-- `put(v, n)` (40_channel_writer.md R84): the range test, then the flush, then the bytes, low byte first. -/
def put (cap : Nat) (op v : Word) (n : Nat) (c : OutChannel) : Except Raise OutChannel :=
  if fitsBytes v n then do
    let c' ← flush cap op c
    emitAll cap op (bytesLe v n) c'
  else .error ⟨.range, v⟩

/-- Appends one bit below the buffered ones: `W_ACC | (v << (7 - W_CNT))`, `W_CNT + 1` (40_channel_writer.md R85). -/
def appendBit (b : Bool) (c : OutChannel) : OutChannel :=
  { c with acc := c.acc ||| (bitByte b <<< (7 - c.cnt.toNat)), cnt := c.cnt + 1#4 }

/-- The body of `WBIT` after its checks (40_channel_writer.md R85), and `wbit(b)` of 45_encoder.md R140 with
`f = false`. -/
def putBit (cap : Nat) (op : Word) (b f : Bool) (c : OutChannel) : Except Raise OutChannel :=
  if (appendBit b c).cnt = 8#4 ∨ f then emitAcc cap op (appendBit b c) else .ok (appendBit b c)

/-- `for b in bits: wbit(b)` (45_encoder.md R140, R141). -/
def putBits (cap : Nat) (op : Word) : Bits → OutChannel → Except Raise OutChannel
  | [], c => .ok c
  | b :: bs, c => do
    let c' ← putBit cap op b false c
    putBits cap op bs c'

/-! ## The reader side of the bit channel -/

/-- `discard()` (41_channel_reader.md R90). -/
def discard (c : InChannel) : InChannel := { c with buf := 0#8, cnt := 0#4 }

/-- `CBI_LEN - R_POS`: the bytes still available (10_state.md R19). -/
def available (c : InChannel) : Nat := c.len.toNat - c.pos.toNat

/-- `fetch(n)` (41_channel_reader.md R91): the only step that reads `CBI`; tests before it consumes. -/
def fetch (n : Nat) (c : InChannel) : Except Raise (Word × InChannel) :=
  if available c < n then .error ⟨.truncated, c.pos.setWidth 32⟩
  else .ok (BitVec.ofNat 32 (leValue (bytesAt .cbi c.cbi c.pos.toNat n)), { c with pos := c.pos + BitVec.ofNat 64 n })

/-- `get(n)` (41_channel_reader.md R94): the fixed-width read. -/
def get (n : Nat) (c : InChannel) : Except Raise (Word × InChannel) := fetch n (discard c)

/-- Fetches the next byte into the bit buffer when it is empty: the first lines of `RBIT` (41_channel_reader.md R95). -/
def refill (c : InChannel) : Except Raise InChannel :=
  if c.cnt = 0#4 then do
    let (v, c') ← get 1 c
    .ok { c' with buf := v.setWidth 8, cnt := 8#4 }
  else .ok c

/-- Takes the next bit off the buffer: `R_BUF[7]`, shift left, count down (41_channel_reader.md R95). -/
def takeBit (c : InChannel) : Bool × InChannel :=
  (c.buf.getLsbD 7, { c with buf := c.buf <<< 1, cnt := c.cnt - 1#4 })

/-- The body of `RBIT` without the open check and the write to `RDATA`: `rbit()` of 46_decoder.md R150. -/
def getBit (c : InChannel) : Except Raise (Bool × InChannel) := do
  let c' ← refill c
  .ok (takeBit c')

/-- `repeat n times: p <- p ++ [rbit()]` (46_decoder.md R151). -/
def getBits : Nat → InChannel → Except Raise (Bits × InChannel)
  | 0, c => .ok ([], c)
  | n + 1, c => do
    let (b, c') ← getBit c
    let (bs, c'') ← getBits n c'
    .ok (b :: bs, c'')

end Sys2Proof.Machine
end

