-- ==== Sys2Proof/Machine/TreeBuilder.lean ====
section
/-! DEFINITION. The code tree builder: TREE (43_tree_builder.md). The working values carry the abstract tree of
10_state.md R24 together with its index in the node arena (R25). -/

namespace Sys2Proof.Machine

/-- A subtree under construction: its arena index and its value. -/
structure Sub where
  idx  : BitVec 9
  tree : Tree
deriving DecidableEq, Repr

/-- The working values of one execution of `TREE` (43_tree_builder.md R111): the arena built so far, `MAIN` and
`PEND`, oldest first. `h` is the part of the queue already passed. -/
structure Builder where
  nodes : List Node
  main  : Option Sub
  pend  : List Sub
deriving DecidableEq, Repr

/-- Allocates `NODE[N_NODES]` (43_tree_builder.md R117). -/
def allocNode (n : Node) (t : Tree) (ns : List Node) : Sub × List Node :=
  (⟨BitVec.ofNat 9 ns.length, t⟩, ns ++ [n])

/-- `mkleaf(e)` (43_tree_builder.md R112). -/
def mkleaf (e : QEntry) (ns : List Node) : Sub × List Node :=
  allocNode (.leaf e.sym e.count) (.leaf e.sym e.count) ns

/-- `combine(a, b)`: the first operand is the left child (43_tree_builder.md R113). -/
def combine (a b : Sub) (ns : List Node) : Sub × List Node :=
  allocNode (.internal (a.tree.weight + b.tree.weight) a.idx b.idx)
    (.internal (a.tree.weight + b.tree.weight) a.tree b.tree) ns

/-- `merge(m, x)`: the strictly lighter `x` goes first, otherwise the main tree does (43_tree_builder.md R114). -/
def mergeMain (m : Option Sub) (x : Sub) (ns : List Node) : Sub × List Node :=
  match m with
  | none => (x, ns)
  | some m => if x.tree.weight < m.tree.weight then combine x m ns else combine m x ns

/-- The candidate of two pending subtrees, in the order of `PEND_ORDER`: list order, or the lighter first
(43_tree_builder.md R116 (c); log 17). -/
def candidate (o : PendOrder) (a b : Sub) (ns : List Node) : Sub × List Node :=
  match o with
  | .olderFirst => combine a b ns
  | .lighterFirst => if b.tree.weight < a.tree.weight then combine b a ns else combine a b ns

/-- The candidate step, run when a second subtree is pending (43_tree_builder.md R116). -/
def candidateStep (o : PendOrder) (a b : Sub) (ns : List Node) (main : Option Sub) : Builder :=
  let (c, ns) := candidate o a b ns
  match main with
  | none => ⟨ns, some c, []⟩
  | some m =>
    if m.tree.weight < c.tree.weight then
      let (r, ns) := combine m c ns
      ⟨ns, some r, []⟩
    else ⟨ns, some m, [c]⟩

/-- The pair step (43_tree_builder.md R115), then the candidate step when two subtrees are pending. -/
def pairStep (o : PendOrder) (x y : QEntry) (w : Builder) : Builder :=
  let (a, ns) := mkleaf x w.nodes
  let (b, ns) := mkleaf y ns
  let (p, ns) := combine a b ns
  match w.pend with
  | [] => ⟨ns, w.main, [p]⟩
  | e :: _ => candidateStep o e p ns w.main

/-- The loop of D00 step 2 over the queue; what is left has fewer than two entries (43_tree_builder.md R117). -/
def pairLoop (o : PendOrder) : List QEntry → Builder → Builder × List QEntry
  | x :: y :: rest, w => pairLoop o rest (pairStep o x y w)
  | rest, w => (w, rest)

/-- D00 step 4: a pending subtree that remains is merged with the main tree (43_tree_builder.md R118). -/
def mergePending (w : Builder) : Builder :=
  match w.pend with
  | [] => w
  | p :: _ =>
    let (r, ns) := mergeMain w.main p w.nodes
    ⟨ns, some r, []⟩

/-- D00 step 5: an entry that remains is wrapped as a leaf and merged (43_tree_builder.md R118). -/
def mergeLeftover (rest : List QEntry) (w : Builder) : Builder :=
  match rest with
  | [] => w
  | e :: _ =>
    let (l, ns) := mkleaf e w.nodes
    let (r, ns) := mergeMain w.main l ns
    ⟨ns, some r, w.pend⟩

/-- The whole construction from a queue (43_tree_builder.md R117). -/
def buildTree (o : PendOrder) (q : List QEntry) : Builder :=
  let (w, rest) := pairLoop o q ⟨[], none, []⟩
  mergeLeftover rest (mergePending w)

/-- The queue as `TREE` reads it: `Q[0 .. Q_LEN-1]`. -/
def liveQueue (s : State) : List QEntry := s.q.take s.qLen.toNat

/-- `ROOT` and `ROOT_W` after the construction. Without a main tree, which only an empty queue gives and no run
reaches, they have no stated value (log 16). -/
def rootOf (seed : Nat) (w : Builder) : BitVec 9 × Word :=
  match w.main with
  | some m => (m.idx, m.tree.weight)
  | none => ((Config.freeBits seed .root).setWidth 9, (Config.freeBits seed .rootW).setWidth 32)

/-- The pseudocode of `TREE` (43_tree_builder.md R117). -/
def treeBody (s : State) : Except Raise State :=
  if s.qV then
    let w := buildTree s.params.pendOrder (liveQueue s)
    let r := rootOf s.fresh w
    .ok { s with
      nodes := w.nodes, nNodes := BitVec.ofNat 9 w.nodes.length, root := r.1, rootW := r.2, treeV := true, ctV := false,
      flagCleared := true }
  else .error ⟨.seq, 0x32#32⟩

/-- `TREE` (43_tree_builder.md R117). -/
def execTree (s : State) : Host.Outcome State Fault Refusal := finish .tree s (treeBody s)

end Sys2Proof.Machine
end

