-- ==== Sys2Proof/Machine/CodeTable.lean ====
section
/-! DEFINITION. The code table deriver: CODES (44_code_table.md). -/

namespace Sys2Proof.Machine

/-- The abstract tree at an arena index (10_state.md R24, R25), to a depth of at most `fuel`. An index that holds no
node, or a descent deeper than the arena has nodes, which no run reaches, has no stated tree (log 16). -/
def treeAt (seed : Nat) (ns : List Node) : Nat → BitVec 9 → Tree
  | 0, i => Config.freeTree seed i
  | fuel + 1, i =>
    match ns[i.toNat]? with
    | some (.leaf s w) => .leaf s w
    | some (.internal w l r) => .internal w (treeAt seed ns fuel l) (treeAt seed ns fuel r)
    | none => Config.freeTree seed i

/-- The tree rooted at `ROOT` in `NODE[0 .. N_NODES-1]` (44_code_table.md R130). -/
def rootTree (s : State) : Tree :=
  treeAt s.fresh (s.nodes.take s.nNodes.toNat) s.nNodes.toNat s.root

/-- `walk(t, p)` (44_code_table.md R131, R132, R133): the leaves from left to right with their paths, "0" to the left
and "1" to the right. -/
def walk : Tree → Bits → List CodeEntry
  | .leaf s _, p => [⟨s, BitVec.ofNat 16 p.length, p⟩]
  | .internal _ l r, p => walk l (p ++ [false]) ++ walk r (p ++ [true])

/-- The code table of a tree (44_code_table.md R133). -/
def codeTable (t : Tree) : List CodeEntry := walk t []

/-- The pseudocode of `CODES` (44_code_table.md R133). -/
def codesBody (s : State) : Except Raise State :=
  if s.treeV then
    let ct := codeTable (rootTree s)
    .ok { s with ct := ct, ctLen := BitVec.ofNat 9 ct.length, ctV := true }
  else .error ⟨.seq, 0x33#32⟩

/-- `CODES` (44_code_table.md R133). -/
def execCodes (s : State) : Host.Outcome State Fault Refusal := finish .codes s (codesBody s)

end Sys2Proof.Machine
end

