-- ==== Sys2Proof/Machine/Reader.lean ====
section
/-! DEFINITION. The reader side of the bit channel: ROPEN, RUBYTE, RUSHORT, RUINT, RBIT, RCLOSE
(41_channel_reader.md). -/

namespace Sys2Proof.Machine

/-- The pseudocode of `ROPEN` (41_channel_reader.md R93). -/
def ropenBody (s : State) : Except Raise State :=
  if s.inp.opened then .error ⟨.seq, 0x20#32⟩
  else if s.params.cbiCap < s.inp.len.toNat then .error ⟨.capacity, 0x20#32⟩
  else .ok { s with inp := { s.inp with buf := 0#8, cnt := 0#4, pos := 0#64, opened := true } }

/-- `ROPEN` (41_channel_reader.md R93). -/
def execRopen (s : State) : Host.Outcome State Fault Refusal := finish .ropen s (ropenBody s)

/-- The pseudocode that `RUBYTE`, `RUSHORT` and `RUINT` share: the open check, then `RDATA <- zext_32(get(n))`
(41_channel_reader.md R96, R97, R98). -/
def getBody (op : Word) (n : Nat) (s : State) : Except Raise State :=
  if s.inp.opened then do
    let (v, c) ← get n s.inp
    .ok { s with rdata := v, inp := c }
  else .error ⟨.closed, op⟩

/-- `RUBYTE` (41_channel_reader.md R96). -/
def execRubyte (s : State) : Host.Outcome State Fault Refusal := finish .rubyte s (getBody 0x21#32 1 s)

/-- `RUSHORT` (41_channel_reader.md R97). -/
def execRushort (s : State) : Host.Outcome State Fault Refusal := finish .rushort s (getBody 0x22#32 2 s)

/-- `RUINT` (41_channel_reader.md R98). -/
def execRuint (s : State) : Host.Outcome State Fault Refusal := finish .ruint s (getBody 0x23#32 4 s)

/-- The pseudocode of `RBIT` (41_channel_reader.md R95). -/
def rbitBody (s : State) : Except Raise State :=
  if s.inp.opened then do
    let (b, c) ← getBit s.inp
    .ok { s with rdata := bitWord b, inp := c }
  else .error ⟨.closed, 0x24#32⟩

/-- `RBIT` (41_channel_reader.md R95). -/
def execRbit (s : State) : Host.Outcome State Fault Refusal := finish .rbit s (rbitBody s)

/-- The pseudocode of `RCLOSE`: the unread bits go, `R_POS` stays (41_channel_reader.md R99). -/
def rcloseBody (s : State) : Except Raise State :=
  if s.inp.opened then .ok { s with inp := { discard s.inp with opened := false } }
  else .error ⟨.closed, 0x25#32⟩

/-- `RCLOSE` (41_channel_reader.md R99). -/
def execRclose (s : State) : Host.Outcome State Fault Refusal := finish .rclose s (rcloseBody s)

end Sys2Proof.Machine
end

