-- ==== Sys2Proof/Machine/Decoder.lean ====
section
/-! DEFINITION. The container decoder: DECODE and DECOMPRESS (46_decoder.md). -/

namespace Sys2Proof.Machine

/-- The opcode that `DECODE` reports with `ERR_CLOSED` and `ERR_CAPACITY` (46_decoder.md R151). -/
def decodeOp : Word := 0x35#32

/-- The symbol of the map entry whose bits are exactly `p`, if any (46_decoder.md R155, R156). -/
def lookupCode (m : List MapEntry) (p : Bits) : Option Byte :=
  (m.find? fun e => e.bits == p).map MapEntry.sym

/-- Reads one code table entry: symbol, length, code bits (46_decoder.md R153). -/
def getEntry (dcodeMax : Nat) (c : InChannel) : Except Raise (MapEntry × InChannel) := do
  let (v, c) ← get 1 c
  let (l, c) ← get 2 c
  if dcodeMax < l.toNat then .error ⟨.capacity, decodeOp⟩
  else do
    let (p, c) ← getBits l.toNat c
    .ok (⟨p, v.setWidth 8⟩, c)

/-- Reads `n` code table entries, the first of them entry number `i`, and inserts each into the map; a code that is
already there is a fault (46_decoder.md R151, R155). -/
def getTable (dcodeMax : Nat) : Nat → Nat → List MapEntry → InChannel → Except Raise (List MapEntry × InChannel)
  | 0, _, m, c => .ok (m, c)
  | n + 1, i, m, c => do
    let (e, c) ← getEntry dcodeMax c
    if (lookupCode m e.bits).isSome then .error ⟨.dupCode, BitVec.ofNat 32 i⟩
    else getTable dcodeMax n (i + 1) (m ++ [e]) c

/-- The bits the reader can still deliver one at a time: the unread ones and those of the bytes still available. -/
def bitsLeft (c : InChannel) : Nat := c.cnt.toNat + 8 * available c

/-- The inner payload loop: the candidate is looked up before each bit is read (46_decoder.md R156, R161). `fuel`
bounds the bits read; with `bitsLeft` of them it runs out only where `rbit()` finds the stream exhausted, and then the
loop raises what `rbit()` raises (log 19). -/
def matchCode (m : List MapEntry) : Nat → Bits → InChannel → Except Raise (Byte × InChannel)
  | fuel, cand, c =>
    match lookupCode m cand with
    | some s => .ok (s, c)
    | none =>
      match fuel with
      | 0 => .error ⟨.truncated, c.pos.setWidth 32⟩
      | fuel + 1 => do
        let (b, c') ← getBit c
        matchCode m fuel (cand ++ [b]) c'

/-- Decodes one symbol, from the empty candidate. -/
def getSymbol (m : List MapEntry) (c : InChannel) : Except Raise (Byte × InChannel) := matchCode m (bitsLeft c) [] c

/-- The payload loop: `n` symbols to emit, the next at `DST[k]` (46_decoder.md R151, R157). -/
def getPayload (m : List MapEntry) : Nat → Nat → Memory → InChannel → Except Raise (Memory × InChannel)
  | 0, _, dst, c => .ok (dst, c)
  | n + 1, k, dst, c => do
    let (s, c) ← getSymbol m c
    getPayload m n (k + 1) (Memory.write dst k s) c

/-- The size of the header in bytes (30_encoding.md R70). -/
def headerBytes : Nat := 6

/-- The pseudocode of `DECODE` (46_decoder.md R151). -/
def decodeBody (s : State) : Except Raise State :=
  if s.inp.opened then do
    let c := discard s.inp
    if available c < headerBytes then .error ⟨.noHeader, BitVec.ofNat 32 (available c)⟩
    else do
      let (total, c) ← get 4 c
      let (unique, c) ← get 2 c
      if s.params.dmapCap < unique.toNat ∨ s.params.dstCap < total.toNat then .error ⟨.capacity, decodeOp⟩
      else do
        let (m, c) ← getTable s.params.dcodeMax unique.toNat 0 [] c
        let (dst, c) ← getPayload m total.toNat 0 s.dst c
        .ok { s with
          inp := c, total := total, unique := unique.setWidth 16, dmap := m, dmapLen := BitVec.ofNat 16 m.length,
          dst := dst, emitted := total, dstLen := total, dstV := true, flagCleared := true }
  else .error ⟨.closed, decodeOp⟩

/-- `DECODE` (46_decoder.md R151). -/
def execDecode (s : State) : Host.Outcome State Fault Refusal := finish .decode s (decodeBody s)

/-- The pseudocode of `DECOMPRESS`: the three commands' pseudocode in sequence, the first fault stops it
(46_decoder.md R160). -/
def decompressBody (s : State) : Except Raise State := do
  let s ← ropenBody s
  let s ← decodeBody s
  rcloseBody s

/-- `DECOMPRESS` (46_decoder.md R160). -/
def execDecompress (s : State) : Host.Outcome State Fault Refusal := finish .decompress s (decompressBody s)

end Sys2Proof.Machine
end

