-- ==== Sys2Proof/Machine/Frequency.lean ====
section
/-! DEFINITION. The frequency table builder and the queue sort: FREQ and SORT (42_frequency_sort.md). -/

namespace Sys2Proof.Machine

/-- `FREQ[b] <- FREQ[b] + 1` (42_frequency_sort.md R101). -/
def bumpCount (t : Vector Word 256) (b : Byte) : Vector Word 256 :=
  t.set b.toNat (t[b.toNat]'b.isLt + 1#32) b.isLt

/-- The frequency table of a byte sequence: from all zeros, one increment per byte (42_frequency_sort.md R101). -/
def freqTable (bs : List Byte) : Vector Word 256 := bs.foldl bumpCount (Vector.replicate 256 0#32)

/-- `FREQ[s]`. -/
def countOf (t : Vector Word 256) (s : Byte) : Word := t[s.toNat]'s.isLt

/-- The pseudocode of `FREQ` (42_frequency_sort.md R101). -/
def freqBody (s : State) : Except Raise State :=
  if s.params.srcCap < s.srcLen.toNat then .error ⟨.capacity, 0x30#32⟩
  else if s.srcLen = 0#32 then .error ⟨.emptyInput, 0#32⟩
  else .ok { s with freq := freqTable (srcBytes s), freqV := true, qV := false, treeV := false, ctV := false, flagCleared := true }

/-- `FREQ` (42_frequency_sort.md R101). -/
def execFreq (s : State) : Host.Outcome State Fault Refusal := finish .freq s (freqBody s)

/-- The observed symbols with their counts, in the order in which the frequency table is iterated (42_frequency_sort.md
R103, R104). -/
def observed (order : List Byte) (t : Vector Word 256) : List QEntry :=
  (order.filter fun s => countOf t s != 0#32).map fun s => ⟨s, countOf t s⟩

/-- The relation by which the queue is sorted: ascending count (42_frequency_sort.md R103). -/
abbrev countLe (x y : QEntry) : Prop := x.count ≤ y.count

/-- The queue: a stable sort of the observed symbols by count (42_frequency_sort.md R103, R104). Insertion sort is
stable. -/
def sortQueue (order : List Byte) (t : Vector Word 256) : List QEntry :=
  (observed order t).insertionSort countLe

/-- The pseudocode of `SORT` (42_frequency_sort.md R103). -/
def sortBody (s : State) : Except Raise State :=
  if s.freqV then
    let q := sortQueue s.params.tieOrder s.freq
    .ok { s with
      q := q, qLen := BitVec.ofNat 9 q.length, qV := true, treeV := false, ctV := false, flagCleared := true }
  else .error ⟨.seq, 0x31#32⟩

/-- `SORT` (42_frequency_sort.md R103). -/
def execSort (s : State) : Host.Outcome State Fault Refusal := finish .sort s (sortBody s)

end Sys2Proof.Machine
end

