-- ==== Sys2Proof/Machine/Writer.lean ====
section
/-! DEFINITION. The writer side of the bit channel: WOPEN, WUBYTE, WUSHORT, WUINT, WBIT, WCLOSE
(40_channel_writer.md). -/

namespace Sys2Proof.Machine

/-- The pseudocode of `WOPEN` (40_channel_writer.md R83). The old contents of `CBO` stay, beyond the length. -/
def wopenBody (s : State) : Except Raise State :=
  if s.out.opened then .error ⟨.seq, 0x10#32⟩
  else .ok { s with out := { s.out with acc := 0#8, cnt := 0#4, len := 0#64, opened := true } }

/-- `WOPEN` (40_channel_writer.md R83). -/
def execWopen (s : State) : Host.Outcome State Fault Refusal := finish .wopen s (wopenBody s)

/-- The pseudocode that `WUBYTE`, `WUSHORT` and `WUINT` share: the open check, then `put(WDATA, n)`
(40_channel_writer.md R86, R87, R88). -/
def putBody (op : Word) (n : Nat) (s : State) : Except Raise State :=
  if s.out.opened then do
    let c ← put s.params.cboCap op (operand s) n s.out
    .ok { s with out := c }
  else .error ⟨.closed, op⟩

/-- `WUBYTE` (40_channel_writer.md R86). -/
def execWubyte (s : State) : Host.Outcome State Fault Refusal := finish .wubyte s (putBody 0x11#32 1 s)

/-- `WUSHORT` (40_channel_writer.md R87). -/
def execWushort (s : State) : Host.Outcome State Fault Refusal := finish .wushort s (putBody 0x12#32 2 s)

/-- `WUINT` (40_channel_writer.md R88). -/
def execWuint (s : State) : Host.Outcome State Fault Refusal := finish .wuint s (putBody 0x13#32 4 s)

/-- The pseudocode of `WBIT`: the open check, the check of the bit's value, then the bit, emitted when it is the eighth
or the flush flag is set (40_channel_writer.md R85). -/
def wbitBody (f : Bool) (s : State) : Except Raise State :=
  if s.out.opened then
    if 1 < (operand s).toNat then .error ⟨.bitValue, operand s⟩
    else do
      let c ← putBit s.params.cboCap 0x14#32 ((operand s).getLsbD 0) f s.out
      .ok { s with out := c }
  else .error ⟨.closed, 0x14#32⟩

/-- `WBIT`, with its flush flag `F` (40_channel_writer.md R85). -/
def execWbit (f : Bool) (s : State) : Host.Outcome State Fault Refusal := finish (.wbit f) s (wbitBody f s)

/-- The pseudocode of `WCLOSE` (40_channel_writer.md R89). -/
def wcloseBody (s : State) : Except Raise State :=
  if s.out.opened then do
    let c ← flush s.params.cboCap 0x15#32 s.out
    .ok { s with out := { c with opened := false } }
  else .error ⟨.closed, 0x15#32⟩

/-- `WCLOSE` (40_channel_writer.md R89). -/
def execWclose (s : State) : Host.Outcome State Fault Refusal := finish .wclose s (wcloseBody s)

end Sys2Proof.Machine
end

