-- ==== Sys2Proof/Machine/Encoder.lean ====
section
/-! DEFINITION. The container encoder: ENCODE and COMPRESS (45_encoder.md). -/

namespace Sys2Proof.Machine

/-- The opcode that `emit` reports inside `ENCODE` (40_channel_writer.md R81). -/
def encodeOp : Word := 0x34#32

/-- The code table as `ENCODE` reads it: `CT[0 .. CT_LEN-1]`. -/
def liveCodes (s : State) : List CodeEntry := s.ct.take s.ctLen.toNat

/-- `code_of(s)`: the code of the entry whose symbol is `s` (45_encoder.md R142). A symbol without an entry, which no
run reaches, has no stated code (log 16). -/
def codeOf (seed : Nat) (ct : List CodeEntry) (s : Byte) : Bits :=
  match ct.find? fun e => e.sym == s with
  | some e => e.bits
  | none => Config.freeCode seed s

/-- Writes one code table entry: symbol, 16-bit length, code bits (45_encoder.md R141). -/
def putEntry (cap : Nat) (e : CodeEntry) (c : OutChannel) : Except Raise OutChannel := do
  let c ← put cap encodeOp (e.sym.setWidth 32) 1 c
  let c ← put cap encodeOp (e.len.setWidth 32) 2 c
  putBits cap encodeOp e.bits c

/-- Writes the code table in traversal order (45_encoder.md R141). -/
def putTable (cap : Nat) : List CodeEntry → OutChannel → Except Raise OutChannel
  | [], c => .ok c
  | e :: es, c => do
    let c ← putEntry cap e c
    putTable cap es c

/-- Writes the payload: each symbol's code, in original order (45_encoder.md R141). -/
def putPayload (cap : Nat) (code : Byte → Bits) : List Byte → OutChannel → Except Raise OutChannel
  | [], c => .ok c
  | b :: bs, c => do
    let c ← putBits cap encodeOp (code b) c
    putPayload cap code bs c

/-- The whole container on the channel: header, table, payload, flush (45_encoder.md R141). -/
def putContainer (cap : Nat) (seed : Nat) (ct : List CodeEntry) (ctLen : BitVec 9) (srcLen : Word) (text : List Byte)
    (c : OutChannel) : Except Raise OutChannel := do
  let c ← put cap encodeOp srcLen 4 c
  let c ← put cap encodeOp (ctLen.setWidth 32) 2 c
  let c ← putTable cap ct c
  let c ← putPayload cap (codeOf seed ct) text c
  flush cap encodeOp c

/-- The pseudocode of `ENCODE` (45_encoder.md R141). -/
def encodeBody (s : State) : Except Raise State :=
  if s.ctV then
    if s.out.opened then do
      let c ← putContainer s.params.cboCap s.fresh (liveCodes s) s.ctLen s.srcLen (srcBytes s) s.out
      .ok { s with total := s.srcLen, unique := s.ctLen.setWidth 16, out := { c with opened := false } }
    else .error ⟨.closed, encodeOp⟩
  else .error ⟨.seq, encodeOp⟩

/-- `ENCODE` (45_encoder.md R141). -/
def execEncode (s : State) : Host.Outcome State Fault Refusal := finish .encode s (encodeBody s)

/-- The pseudocode of `COMPRESS`: the six commands' pseudocode in sequence, the first fault stops it
(45_encoder.md R145). -/
def compressBody (s : State) : Except Raise State := do
  let s ← freqBody s
  let s ← sortBody s
  let s ← treeBody s
  let s ← codesBody s
  let s ← wopenBody s
  encodeBody s

/-- `COMPRESS` (45_encoder.md R145). -/
def execCompress (s : State) : Host.Outcome State Fault Refusal := finish .compress s (compressBody s)

end Sys2Proof.Machine
end

