-- ==== Sys2Proof/Machine/System.lean ====
section
/-! DEFINITION. The system commands NOP and SRESET (47_system.md R173, R174). -/

namespace Sys2Proof.Machine

/-- `NOP` does nothing (47_system.md R173). -/
def execNop (s : State) : Host.Outcome State Fault Refusal := .next s

/-- `SRESET` returns the block to its reset state: every register 0, memory and table contents unchanged (47_system.md
R174). It is the only way out of a latched fault (60_exceptions.md R187). -/
def execSreset (s : State) : Host.Outcome State Fault Refusal := .next (resetRegs s)

end Sys2Proof.Machine
end

