-- ==== Sys2Proof/Machine/Dispatch.lean ====
section
/-! DEFINITION. The rule of the selected row: one arm per command (30_encoding.md R62, 47_system.md R170). -/

namespace Sys2Proof.Machine

def exec (i : Instr) (s : State) : Host.Outcome State Fault Refusal :=
  match i with
  | .nop => Sys2Proof.Machine.execNop s
  | .sreset => Sys2Proof.Machine.execSreset s
  | .wopen => Sys2Proof.Machine.execWopen s
  | .wubyte => Sys2Proof.Machine.execWubyte s
  | .wushort => Sys2Proof.Machine.execWushort s
  | .wuint => Sys2Proof.Machine.execWuint s
  | .wbit flush => Sys2Proof.Machine.execWbit flush s
  | .wclose => Sys2Proof.Machine.execWclose s
  | .ropen => Sys2Proof.Machine.execRopen s
  | .rubyte => Sys2Proof.Machine.execRubyte s
  | .rushort => Sys2Proof.Machine.execRushort s
  | .ruint => Sys2Proof.Machine.execRuint s
  | .rbit => Sys2Proof.Machine.execRbit s
  | .rclose => Sys2Proof.Machine.execRclose s
  | .freq => Sys2Proof.Machine.execFreq s
  | .sort => Sys2Proof.Machine.execSort s
  | .tree => Sys2Proof.Machine.execTree s
  | .codes => Sys2Proof.Machine.execCodes s
  | .encode => Sys2Proof.Machine.execEncode s
  | .decode => Sys2Proof.Machine.execDecode s
  | .compress => Sys2Proof.Machine.execCompress s
  | .decompress => Sys2Proof.Machine.execDecompress s

end Sys2Proof.Machine
end

