-- ==== Sys2Proof/Machine/Action.lean ====
section
/-! DEFINITION. Dispatch of a command word (47_system.md R170), the host's actions (R172), and the hardware reset
(70_reset_and_hazards.md R200, R202). -/

namespace Sys2Proof.Machine

/-- The one word a faulted block accepts: `SRESET` (60_exceptions.md R186). -/
def sresetWord : Word := 0x00000001#32

/-- Executing a command word: latched fault, then illegal word, then the rule of the row (47_system.md R170,
60_exceptions.md R183, R186). An illegal word executes nothing and faults with the word itself (30_encoding.md R63). -/
def dispatch (c : Word) (s : State) : Host.Outcome State Fault Refusal :=
  if s.err.isSome then
    if c = sresetWord then exec .sreset s else .next s
  else
    match decode c with
    | .ok i => exec i s
    | .error _ => .next (takeFault [] ⟨.illegal, c⟩ s)

/-- The effect of a host write whose result is `t`; while a fault is latched it is immaterial, so the elements it
would write are unspecified (47_system.md R172; log 11). -/
def hostEffect (es : List Elem) (s t : State) : State := if s.err.isSome then havoc es s else t

/-- A host write to `CBI` or `CBI_LEN`: refused with `ERR_SEQ`, info 0x100, while the reader is open (47_system.md
R172 (d), (h), 70_reset_and_hazards.md R206). `CBI` itself is not damaged (60_exceptions.md R185; log 12). -/
def cbiWrite (es damaged : List Elem) (s t : State) : State :=
  if s.err.isSome then havoc es s
  else if s.inp.opened then takeFault damaged ⟨.seq, 0x100#32⟩ s
  else t

/-- The elements that a host write to `SRC` or `SRC_LEN` writes beside its target (10_state.md R16). -/
def stageFlags : List Elem := [.freqV, .qV, .treeV, .ctV, .flagCleared]

/-- `WriteReg(i, v)` for the writable registers (47_system.md R172 (b) to (e)); other numbers are no actions and never
reach this. -/
def writeReg (i : Nat) (v : BitVec 64) (s : State) : Host.Outcome State Fault Refusal :=
  match i with
  | 0 => dispatch (v.setWidth 32) s
  | 1 => .next (hostEffect [.wdata] s { s with wdata := v.setWidth 32 })
  | 5 => .next (hostEffect (.srcLen :: stageFlags) s (invalidateStages { s with srcLen := v.setWidth 32 }))
  | 6 => .next (cbiWrite [.cbiLen] [.cbiLen] s { s with inp := { s.inp with len := v } })
  | _ => .refused (.notOffered (.writeReg i v))

/-- `WriteMem(m, a, b)` for `SRC` and `CBI` (47_system.md R172 (g), (h)); `CBO` and `DST` are no targets and never
reach this. -/
def writeMem (m : MemName) (a : Nat) (b : Byte) (s : State) : Host.Outcome State Fault Refusal :=
  match m with
  | .src => .next (hostEffect (.srcByte a :: stageFlags) s (invalidateStages { s with src := Memory.write s.src a b }))
  | .cbi => .next (cbiWrite [.cbiByte a] [] s { s with inp := { s.inp with cbi := Memory.write s.inp.cbi a b } })
  | .cbo => .refused (.notOffered (.writeMem m a b))
  | .dst => .refused (.notOffered (.writeMem m a b))

/-- What `ReadMem(m, a)` returns for an address the memory has: beyond the valid part of `CBO` and `DST` a free value
(10_state.md R18, 47_system.md R172 (f); log 8). -/
def readMemByte (m : MemName) (a : Nat) (s : State) : Byte :=
  match m with
  | .src => byteAt .src s.src a
  | .cbi => byteAt .cbi s.inp.cbi a
  | .cbo => if a < s.out.len.toNat then byteAt .cbo s.out.cbo a else Config.freeByte s.fresh .cbo a
  | .dst => if a < s.dstLen.toNat then byteAt .dst s.dst a else Config.freeByte s.fresh .dst a

/-- The entry of a table at index `i`, if the table's stage flag is 1 and `i` is below the table's length. -/
def liveEntry? {α : Type} (valid : Bool) (len : Nat) (l : List α) (i : Nat) : Option α :=
  if valid && decide (i < len) then l[i]? else none

/-- What a debug read returns: the entry, or a free value where the stage flag is 0 or the index is at or beyond the
table's length (10_state.md R28; logs 8 and 10). `DMAP` has no stage flag. -/
def readViewEntry (t : Table) (i : Nat) (s : State) : HostValue :=
  match t with
  | .freq => .count ((liveEntry? s.freqV 256 s.freq.toList i).getD (Config.freeCount s.fresh i))
  | .queue => .queue ((liveEntry? s.qV s.qLen.toNat s.q i).getD (Config.freeQEntry s.fresh i))
  | .node => .node ((liveEntry? s.treeV s.nNodes.toNat s.nodes i).getD (Config.freeNode s.fresh i))
  | .code => .code ((liveEntry? s.ctV s.ctLen.toNat s.ct i).getD (Config.freeCodeEntry s.fresh i))
  | .dmap => .map ((liveEntry? true s.dmapLen.toNat s.dmap i).getD (Config.freeMapEntry s.fresh i))

/-- A host action (47_system.md R172). An action the interface does not offer is refused by name; a read outside a
memory finds no byte (log 13). -/
def hostAction (a : HostAction) (s : State) : Host.Outcome State Fault Refusal :=
  if a.offered s.params then
    match a with
    | .readReg i => .next { s with hostRead := some (.reg (regValue s i)) }
    | .writeReg i v => writeReg i v s
    | .readMem m i =>
      if i < s.params.cap m then .next { s with hostRead := some (.byte (readMemByte m i s)) }
      else .fault (.noSuchByte m i)
    | .readView t i => .next { s with hostRead := some (readViewEntry t i s) }
    | .writeMem m i b => writeMem m i b s
  else .refused (.notOffered a)

/-- A hardware reset that falls into the execution of command word `c`: the command is abandoned, what it could write
is unspecified, and the block is reset (70_reset_and_hazards.md R202; log 15). -/
def abandon (c : Word) (s : State) : State :=
  match s.err, decode c with
  | none, .ok i => resetRegs (havoc (writesOf i) s)
  | _, _ => resetRegs s

/-- One event: a host action or a hardware reset. -/
def perform (e : Event) (s : State) : Host.Outcome State Fault Refusal :=
  match e with
  | .host a => hostAction a s
  | .hardReset => .next (resetRegs s)
  | .hardResetDuring c => .next (abandon c s)

/-- The machine with its next event taken off the list and the free values' counter advanced (logs 1 and 3). -/
def afterEvent (rest : List Event) (s : State) : State := { s with pending := rest, fresh := s.fresh + 1 }

/-- The host's write of a command word to `CMD` (30_encoding.md R60). -/
def cmdWrite (c : Word) : Event := .host (.writeReg 0 (c.setWidth 64))

/-- A command word given as a number of `nbits` bits; every bit above `nbits` is 0. -/
def tableWord (nbits w : Nat) : Word := BitVec.ofNat 32 (w % 2 ^ nbits)

end Sys2Proof.Machine
end

