-- ==== Sys2Proof/Machine/Step.lean ====
section
/-! DEFINITION. One step: the next event in the order in which the host and the reset line produce them (20_memory.md
R52). With nothing to come the block is idle (70_reset_and_hazards.md R201). -/

namespace Sys2Proof.Machine

/-- One step of the machine. The CORE fetches nothing: its next command is the next the host writes to `CMD`
(10_state.md R14; log 1). -/
def step (s : State) : Host.Outcome State Fault Refusal :=
  match s.pending with
  | [] => .next s
  | e :: rest => perform e (afterEvent rest s)

/-- `s` with the host about to write the given command word to `CMD`, ahead of everything else to come (log 1). -/
def State.withFetchWord (s : State) (nbits w : Nat) : State :=
  { s with pending := cmdWrite (tableWord nbits w) :: s.pending }

end Sys2Proof.Machine
end

