-- ==== Sys2Proof/Safety.lean ====
section
/-! DEFINITION. The terms claims are stated in: which elements two states agree on, the invariant of the machine, the
streams as byte and bit sequences, the container as a byte sequence (30_encoding.md R70), and short command sequences. -/

namespace Sys2Proof.Machine

/-! ## Agreement of two states -/

/-- `t` has the value of element `e` that `s` has. -/
def Agree (e : Elem) (s t : State) : Prop :=
  match e with
  | .wdata => t.wdata = s.wdata
  | .rdata => t.rdata = s.rdata
  | .srcLen => t.srcLen = s.srcLen
  | .cbiLen => t.inp.len = s.inp.len
  | .srcByte a => byteAt .src t.src a = byteAt .src s.src a
  | .cbiByte a => byteAt .cbi t.inp.cbi a = byteAt .cbi s.inp.cbi a
  | .wAcc => t.out.acc = s.out.acc
  | .wCnt => t.out.cnt = s.out.cnt
  | .wOpen => t.out.opened = s.out.opened
  | .cbo => ∀ a, byteAt .cbo t.out.cbo a = byteAt .cbo s.out.cbo a
  | .cboLen => t.out.len = s.out.len
  | .rBuf => t.inp.buf = s.inp.buf
  | .rCnt => t.inp.cnt = s.inp.cnt
  | .rPos => t.inp.pos = s.inp.pos
  | .rOpen => t.inp.opened = s.inp.opened
  | .dst => ∀ a, byteAt .dst t.dst a = byteAt .dst s.dst a
  | .dstLen => t.dstLen = s.dstLen
  | .freqV => t.freqV = s.freqV
  | .qV => t.qV = s.qV
  | .treeV => t.treeV = s.treeV
  | .ctV => t.ctV = s.ctV
  | .dstV => t.dstV = s.dstV
  | .flagCleared => t.flagCleared = s.flagCleared
  | .freq => t.freq = s.freq
  | .queue => t.q = s.q
  | .qLen => t.qLen = s.qLen
  | .nodes => t.nodes = s.nodes
  | .nNodes => t.nNodes = s.nNodes
  | .root => t.root = s.root
  | .rootW => t.rootW = s.rootW
  | .ct => t.ct = s.ct
  | .ctLen => t.ctLen = s.ctLen
  | .dmap => t.dmap = s.dmap
  | .dmapLen => t.dmapLen = s.dmapLen
  | .total => t.total = s.total
  | .unique => t.unique = s.unique
  | .emitted => t.emitted = s.emitted

/-- The model's own fields are the same: no command touches them. -/
def SameModelFields (s t : State) : Prop :=
  t.params = s.params ∧ t.pending = s.pending ∧ t.hostRead = s.hostRead ∧ t.fresh = s.fresh

/-- The contents of the memories and tables are the same (70_reset_and_hazards.md R200, "unchanged"). -/
def SameContents (s t : State) : Prop :=
  t.src = s.src ∧ t.out.cbo = s.out.cbo ∧ t.inp.cbi = s.inp.cbi ∧ t.dst = s.dst ∧ t.freq = s.freq ∧ t.q = s.q ∧
    t.nodes = s.nodes ∧ t.ct = s.ct ∧ t.dmap = s.dmap

/-! ## The invariant -/

/-- Every listed address is below the capacity. -/
def Memory.within (cap : Nat) (m : Memory) : Prop := ∀ x ∈ m, x.1 < cap

/-- The memories keep their canonical form and stay within their capacities. -/
def MemoriesOk (s : State) : Prop :=
  (Memory.wf s.src ∧ Memory.wf s.out.cbo ∧ Memory.wf s.inp.cbi ∧ Memory.wf s.dst) ∧
    Memory.within s.params.srcCap s.src ∧ Memory.within s.params.cboCap s.out.cbo ∧
    Memory.within s.params.cbiCap s.inp.cbi ∧ Memory.within s.params.dstCap s.dst

/-- The writer between commands (10_state.md R20, 40_channel_writer.md R79 (a)): fewer than 8 bits buffered, zeros
below them. -/
def OutOk (c : OutChannel) : Prop := c.cnt.toNat ≤ 7 ∧ c.acc <<< c.cnt.toNat = 0#8

/-- The reader between commands (10_state.md R21, 41_channel_reader.md R78 (a)): fewer than 8 bits unread, zeros below
them, and while it is open the position within the stream (log 18). -/
def InOk (c : InChannel) : Prop :=
  c.cnt.toNat ≤ 7 ∧ c.buf <<< c.cnt.toNat = 0#8 ∧ (c.opened = true → c.pos.toNat ≤ c.len.toNat)

/-- The set stage flags describe products computed from the present contents of `SRC` (10_state.md R16). -/
def StagesOk (s : State) : Prop :=
  (s.freqV = true →
    0 < s.srcLen.toNat ∧ s.srcLen.toNat ≤ s.params.srcCap ∧ s.freq = freqTable (srcBytes s)) ∧
  (s.qV = true →
    s.freqV = true ∧ s.q = sortQueue s.params.tieOrder s.freq ∧ s.qLen = BitVec.ofNat 9 s.q.length) ∧
  (s.treeV = true →
    s.qV = true ∧ s.nodes = (buildTree s.params.pendOrder s.q).nodes ∧ s.nNodes = BitVec.ofNat 9 s.nodes.length ∧
      ∀ m, (buildTree s.params.pendOrder s.q).main = some m → s.root = m.idx ∧ s.rootW = m.tree.weight) ∧
  (s.ctV = true →
    s.treeV = true ∧ s.ctLen = BitVec.ofNat 9 s.ct.length ∧
      ∀ m, (buildTree s.params.pendOrder s.q).main = some m → s.ct = codeTable m.tree)

/-- The decoder's products: `DST_LEN` is nonzero only after a successful `DECODE` and within `DST` (10_state.md R12,
R18), and the codes of the map are pairwise distinct (R27). -/
def DecoderOk (s : State) : Prop :=
  (s.dstV = false → s.dstLen = 0#32) ∧ s.dstLen.toNat ≤ s.params.dstCap ∧
    ((s.dmap.take s.dmapLen.toNat).map MapEntry.bits).Nodup

/-- The invariant of the machine. After a fault only the memories' form is known, since what the faulting command
could write is unspecified (60_exceptions.md R185). -/
def Inv (s : State) : Prop :=
  paramsWellFormed s.params = true ∧ MemoriesOk s ∧
    (s.err = none →
      OutOk s.out ∧ s.out.len.toNat ≤ s.params.cboCap ∧
      InOk s.inp ∧ (s.inp.opened = true → s.inp.len.toNat ≤ s.params.cbiCap) ∧
      StagesOk s ∧ DecoderOk s)

/-! ## Faults -/

/-- `i` faults in `s` with the given code and `ERR_INFO`: nothing that its rule does not list as written changes
(60_exceptions.md R184, R185). -/
def FaultsWith (i : Instr) (code : Err) (info : Word) (s : State) : Prop :=
  ∃ t, exec i s = .next t ∧ t.err = some code ∧ t.errInfo = info ∧ (∀ e, e ∉ writesOf i → Agree e s t) ∧
    SameModelFields s t

/-! ## Trees -/

/-- The leaves from left to right, as queue entries (44_code_table.md R132). -/
def leaves : Tree → List QEntry
  | .leaf s w => [⟨s, w⟩]
  | .internal _ l r => leaves l ++ leaves r

/-- The subtree at the end of a path: 0 to the left child, 1 to the right (44_code_table.md R131). -/
def follow : Tree → Bits → Option Tree
  | t, [] => some t
  | .leaf _ _, _ :: _ => none
  | .internal _ l r, b :: bs => follow (if b then r else l) bs

/-! ## Streams -/

/-- `CBO[0 .. CBO_LEN-1]` (10_state.md R19). -/
def outStream (c : OutChannel) : List Byte := bytesAt .cbo c.cbo 0 c.len.toNat

/-- `CBI[R_POS .. CBI_LEN-1]`: the bytes the reader has not fetched (10_state.md R19). -/
def restStream (c : InChannel) : List Byte := bytesAt .cbi c.cbi c.pos.toNat (available c)

/-- What a flush emits: nothing, or the accumulator (40_channel_writer.md R82). -/
def padBytes (c : OutChannel) : List Byte := if c.cnt = 0#4 then [] else [c.acc]

/-- `c'` is `c` with the bytes `bs` appended to its stream and no other byte of `CBO` changed. -/
def Appended (bs : List Byte) (c c' : OutChannel) : Prop :=
  c'.len.toNat = c.len.toNat + bs.length ∧
    ∀ a, byteAt .cbo c'.cbo a =
      if c.len.toNat ≤ a ∧ a < c.len.toNat + bs.length then bs.getD (a - c.len.toNat) 0#8 else byteAt .cbo c.cbo a

/-- The byte whose bits, from bit 7 down, are `f 0 .. f 7` (20_memory.md R43). -/
def byteOfBits (f : Nat → Bool) : Byte :=
  (List.range 8).foldl (fun v j => v ||| (bitByte (f j) <<< (7 - j))) 0#8

/-- A bit run packed into bytes: bit `k` is bit `7 - (k mod 8)` of byte `k / 8`, the last byte's low bits zero
(20_memory.md R44). -/
def packBits (bits : Bits) : List Byte :=
  (List.range ((bits.length + 7) / 8)).map fun k => byteOfBits fun j => bits.getD (8 * k + j) false

/-! ## The container -/

/-- The fixed-width fields of a code table entry (30_encoding.md R72). -/
def entryHead (e : CodeEntry) : List Byte := bytesLe (e.sym.setWidth 32) 1 ++ bytesLe (e.len.setWidth 32) 2

/-- The code table and the payload (30_encoding.md R70, R72, R73): each entry's code bits are padded to a byte, but
the payload continues in the byte in which the last entry's code bits end. -/
def tableBytes : List CodeEntry → Bits → List Byte
  | [], payload => packBits payload
  | [e], payload => entryHead e ++ packBits (e.bits ++ payload)
  | e :: e' :: es, payload => entryHead e ++ packBits e.bits ++ tableBytes (e' :: es) payload

/-- The container of a text of `total` symbols with code table `ct` and the given payload bits (30_encoding.md R70). -/
def containerBytes (total : Word) (ct : List CodeEntry) (payload : Bits) : List Byte :=
  bytesLe total 4 ++ bytesLe (BitVec.ofNat 32 ct.length) 2 ++ tableBytes ct payload

/-- The code table that `FREQ`, `SORT`, `TREE` and `CODES` derive from a text, if there is a tree. -/
def codesOf (p : Params) (text : List Byte) : List CodeEntry :=
  match (buildTree p.pendOrder (sortQueue p.tieOrder (freqTable text))).main with
  | some m => codeTable m.tree
  | none => []

/-- The container of a text (45_encoder.md R145). -/
def containerOf (p : Params) (text : List Byte) : List Byte :=
  containerBytes (BitVec.ofNat 32 text.length) (codesOf p text) (text.flatMap (codeOf 0 (codesOf p text)))

/-- The reader of `s` stands, closed, before a stream that is exactly `bs` (30_encoding.md R65, `CBI <- ...`). -/
def Loaded (bs : List Byte) (s : State) : Prop :=
  s.err = none ∧ s.inp.opened = false ∧ s.inp.len.toNat = bs.length ∧ s.inp.len.toNat ≤ s.params.cbiCap ∧
    bytesAt .cbi s.inp.cbi 0 bs.length = bs

/-! ## Command sequences -/

/-- Commands issued one after the other, each through `dispatch` (47_system.md R170). -/
def runCommands : List Instr → State → Host.Outcome State Fault Refusal
  | [], s => .next s
  | i :: is, s =>
    match dispatch (encode i) s with
    | .next t => runCommands is t
    | .fault f => .fault f
    | .refused r => .refused r

/-- One operand of the bit channel with the width it is written and read with (41_channel_reader.md R78 (c)). -/
inductive ChanOp where
  | ubyte (v : Byte)
  | ushort (v : BitVec 16)
  | uint (v : Word)
  | bit (b : Bool)
deriving DecidableEq, Repr

/-- The operand as `WDATA` and `RDATA` hold it. -/
def ChanOp.value : ChanOp → Word
  | .ubyte v => v.setWidth 32
  | .ushort v => v.setWidth 32
  | .uint v => v
  | .bit b => bitWord b

/-- The command that writes it. -/
def ChanOp.writeInstr : ChanOp → Instr
  | .ubyte _ => .wubyte
  | .ushort _ => .wushort
  | .uint _ => .wuint
  | .bit _ => .wbit false

/-- The command that reads it. -/
def ChanOp.readInstr : ChanOp → Instr
  | .ubyte _ => .rubyte
  | .ushort _ => .rushort
  | .uint _ => .ruint
  | .bit _ => .rbit

/-- The state after a command that did not fault. -/
def succeeded : Host.Outcome State Fault Refusal → Option State
  | .next t => if t.err = none then some t else none
  | .fault _ => none
  | .refused _ => none

/-- `WDATA <- v` and a writer command, one pair after the other; none if one faults (30_encoding.md R65). -/
def runWriter : List (Instr × Word) → State → Option State
  | [], s => some s
  | (i, v) :: cmds, s =>
    match succeeded (exec i { s with wdata := v }) with
    | some t => runWriter cmds t
    | none => none

/-- The writer command for each operand in turn; none if one faults. -/
def runWrites (ops : List ChanOp) : State → Option State := runWriter (ops.map fun o => (o.writeInstr, o.value))

/-- The reader command for each operand in turn, with the successive values of `RDATA`; none if one faults. -/
def runReads : List ChanOp → State → Option (List Word × State)
  | [], s => some ([], s)
  | o :: os, s =>
    match succeeded (exec o.readInstr s) with
    | some t => (runReads os t).map fun x => (t.rdata :: x.1, x.2)
    | none => none

end Sys2Proof.Machine
end

