-- ==== Sys2Proof/Certificates/Slice0/Obligations.lean ====
section
/-! DEFINITION. The statements about the model, each with the rule of the spec it formalises. -/

open Sys2Proof Sys2Proof.Machine

/-! ## Command words and dispatch -/

/-- 30_encoding.md R60, R62: a command word has a row exactly when it is the encoding of a command, and selects that
command. -/
def Obligations.CommandWordsAreExactlyTheEncodings : Prop :=
  ∀ (c : Word) (i : Instr), decode c = .ok i ↔ c = encode i

/-- 30_encoding.md R62: the match column, row by row. -/
def Obligations.MatchColumnDecodes : Prop :=
  decode 0x00000000#32 = .ok .nop ∧ decode 0x00000001#32 = .ok .sreset ∧ decode 0x00000010#32 = .ok .wopen ∧
    decode 0x00000011#32 = .ok .wubyte ∧ decode 0x00000012#32 = .ok .wushort ∧ decode 0x00000013#32 = .ok .wuint ∧
    decode 0x00000014#32 = .ok (.wbit false) ∧ decode 0x00000114#32 = .ok (.wbit true) ∧
    decode 0x00000015#32 = .ok .wclose ∧ decode 0x00000020#32 = .ok .ropen ∧ decode 0x00000021#32 = .ok .rubyte ∧
    decode 0x00000022#32 = .ok .rushort ∧ decode 0x00000023#32 = .ok .ruint ∧ decode 0x00000024#32 = .ok .rbit ∧
    decode 0x00000025#32 = .ok .rclose ∧ decode 0x00000030#32 = .ok .freq ∧ decode 0x00000031#32 = .ok .sort ∧
    decode 0x00000032#32 = .ok .tree ∧ decode 0x00000033#32 = .ok .codes ∧ decode 0x00000034#32 = .ok .encode ∧
    decode 0x00000035#32 = .ok .decode ∧ decode 0x00000040#32 = .ok .compress ∧
    decode 0x00000041#32 = .ok .decompress

/-- 30_encoding.md R63: an illegal word is one with an unknown `OP`, a 1 in bits 31:9, or `F = 1` with an `OP` other
than 0x14; it executes nothing and faults with `ERR_ILLEGAL`, `ERR_INFO` = the word; while a fault is latched every word
but `SRESET` is ignored, legal or not; and no word but the all-zero one is `NOP`. -/
def Obligations.IllegalWordsFault : Prop :=
  (∀ (c : Word) (s : State), s.err = none →
    (c.setWidth 8 ∉ [0x00#8, 0x01#8, 0x10#8, 0x11#8, 0x12#8, 0x13#8, 0x14#8, 0x15#8, 0x20#8, 0x21#8, 0x22#8, 0x23#8,
        0x24#8, 0x25#8, 0x30#8, 0x31#8, 0x32#8, 0x33#8, 0x34#8, 0x35#8, 0x40#8, 0x41#8] ∨
      c >>> 9 ≠ 0#32 ∨ (c.getLsbD 8 = true ∧ c.setWidth 8 ≠ 0x14#8)) →
    dispatch c s = .next { s with err := some .illegal, errInfo := c }) ∧
  (∀ (c : Word) (s : State) (e : Err), s.err = some e → c ≠ 0x00000001#32 → dispatch c s = .next s) ∧
  ∀ c : Word, decode c = .ok .nop ↔ c = 0x00000000#32

/-- 47_system.md R170, 30_encoding.md R60, 10_state.md R14: with no fault latched, the step in which the host writes a
command word to `CMD` is the word's command (at the state with that action taken off the list: logs 1 and 3). -/
def Obligations.StepRunsTheDecodedCommand : Prop :=
  ∀ (s : State) (c : Word) (rest : List Event) (i : Instr),
    s.pending = .host (.writeReg 0 (c.setWidth 64)) :: rest → s.err = none → decode c = .ok i →
      step s = exec i { s with pending := rest, fresh := s.fresh + 1 }

/-- 60_exceptions.md R186: while a fault is latched a `CMD` write changes nothing unless the word is 0x00000001, and no
event but a reset changes the latched fault. -/
def Obligations.LatchedFaultIgnoresCommands : Prop :=
  (∀ (s : State) (e : Err) (c : Word), s.err = some e →
      dispatch c s = if c = 0x00000001#32 then exec .sreset s else .next s) ∧
    ∀ (s t : State) (e : Err) (ev : Event) (rest : List Event), s.err = some e → s.pending = ev :: rest →
      ev ≠ .host (.writeReg 0 0x00000001#64) → ev ≠ .hardReset → (∀ c, ev ≠ .hardResetDuring c) →
      step s = .next t → t.err = some e ∧ t.errInfo = s.errInfo

/-- 47_system.md R171: a command completes its pseudocode or stops at its first `raise`; either way the machine goes
on. -/
def Obligations.EveryCommandEndsInANextState : Prop :=
  ∀ (i : Instr) (s : State), ∃ t, exec i s = .next t

/-! ## Faults -/

/-- 60_exceptions.md R181, column "raised by". -/
def Obligations.FaultsEachCommandCanRaise : Prop :=
  ∀ (i : Instr) (s t : State) (e : Err), s.err = none → exec i s = .next t → t.err = some e →
    e ∈ match i with
      | .nop | .sreset => []
      | .wopen => [Err.seq]
      | .wubyte | .wushort => [Err.closed, Err.range, Err.capacity]
      | .wuint => [Err.closed, Err.capacity]
      | .wbit _ => [Err.closed, Err.bitValue, Err.capacity]
      | .wclose => [Err.closed, Err.capacity]
      | .ropen => [Err.seq, Err.capacity]
      | .rubyte | .rushort | .ruint | .rbit => [Err.closed, Err.truncated]
      | .rclose => [Err.closed]
      | .freq => [Err.capacity, Err.emptyInput]
      | .sort | .tree | .codes => [Err.seq]
      | .encode => [Err.seq, Err.closed, Err.capacity]
      | .decode => [Err.closed, Err.noHeader, Err.capacity, Err.truncated, Err.dupCode]
      | .compress => [Err.capacity, Err.emptyInput, Err.seq]
      | .decompress => [Err.seq, Err.capacity, Err.noHeader, Err.truncated, Err.dupCode]

/-- 60_exceptions.md R185: whatever a command does, faulting or not, state its rule does not list as written is
unchanged (`writesOf` lists what each rule writes). -/
def Obligations.UnwrittenStateSurvivesEveryCommand : Prop :=
  ∀ (i : Instr) (s t : State), i ≠ .sreset → exec i s = .next t →
    (∀ e, e ∉ writesOf i → Agree e s t) ∧ SameModelFields s t ∧ (t.err = none → s.err = none ∧ t.errInfo = s.errInfo)

/-- 20_memory.md R40: no command writes `SRC` or `CBI`, only the decoder writes `DST`, only the writer side writes
`CBO`. -/
def Obligations.ReachOfTheCommands : Prop :=
  ∀ (i : Instr) (s t : State), exec i s = .next t →
    t.src = s.src ∧ t.inp.cbi = s.inp.cbi ∧
      (i ≠ .decode → i ≠ .decompress → t.dst = s.dst) ∧
      (i ≠ .wubyte → i ≠ .wushort → i ≠ .wuint → (∀ f, i ≠ .wbit f) → i ≠ .wclose → i ≠ .encode → i ≠ .compress →
        t.out.cbo = s.out.cbo)

/-- Frame of the channel commands (40_channel_writer.md R83 to R89, 41_channel_reader.md R93 to R99): a writer command
changes only the writer's state, a reader command only the reader's bit buffer and position, `RDATA`, and for `ROPEN`
and `RCLOSE` the open flag; besides, a fault changes `STATUS.ERR` and `ERR_INFO`. -/
def Obligations.ChannelCommandFrame : Prop :=
  ∀ (i : Instr) (s t : State), exec i s = .next t →
    (i ∈ [Instr.wopen, .wubyte, .wushort, .wuint, .wbit false, .wbit true, .wclose] →
      t = { s with out := t.out, err := t.err, errInfo := t.errInfo } ∧
        (i ≠ .wopen → i ≠ .wclose → t.out.opened = s.out.opened)) ∧
    (i ∈ [Instr.ropen, .rclose] →
      t = { s with inp := { t.inp with cbi := s.inp.cbi, len := s.inp.len }, err := t.err, errInfo := t.errInfo }) ∧
    (i ∈ [Instr.rubyte, .rushort, .ruint, .rbit] →
      t = { s with
        rdata := t.rdata, inp := { t.inp with opened := s.inp.opened, cbi := s.inp.cbi, len := s.inp.len },
        err := t.err, errInfo := t.errInfo })

/-- Frame of the stage commands (42_frequency_sort.md R101, R103, 43_tree_builder.md R117, 44_code_table.md R133). The
first three clear stage flags, which the model's own field `flagCleared` records (log 9). -/
def Obligations.StageCommandFrame : Prop :=
  ∀ s t : State,
    (exec .freq s = .next t →
      t = { s with
        freq := t.freq, freqV := t.freqV, qV := t.qV, treeV := t.treeV, ctV := t.ctV, flagCleared := t.flagCleared,
        err := t.err, errInfo := t.errInfo } ∧ (t.err = none → t.flagCleared = true)) ∧
    (exec .sort s = .next t →
      t = { s with
        q := t.q, qLen := t.qLen, qV := t.qV, treeV := t.treeV, ctV := t.ctV, flagCleared := t.flagCleared,
        err := t.err, errInfo := t.errInfo } ∧ (t.err = none → t.flagCleared = true)) ∧
    (exec .tree s = .next t →
      t = { s with
        nodes := t.nodes, nNodes := t.nNodes, root := t.root, rootW := t.rootW, treeV := t.treeV, ctV := t.ctV,
        flagCleared := t.flagCleared, err := t.err, errInfo := t.errInfo } ∧ (t.err = none → t.flagCleared = true)) ∧
    (exec .codes s = .next t →
      t = { s with ct := t.ct, ctLen := t.ctLen, ctV := t.ctV, err := t.err, errInfo := t.errInfo })

/-- Frame of the container commands (45_encoder.md R141, R145, 46_decoder.md R151, R160); `flagCleared` is the model's own
field (log 9). -/
def Obligations.ContainerCommandFrame : Prop :=
  ∀ s t : State,
    (exec .encode s = .next t →
      t = { s with total := t.total, unique := t.unique, out := t.out, err := t.err, errInfo := t.errInfo }) ∧
    (exec .decode s = .next t →
      t = { s with
        dst := t.dst, dstLen := t.dstLen, dstV := t.dstV, dmap := t.dmap, dmapLen := t.dmapLen, emitted := t.emitted,
        total := t.total, unique := t.unique, flagCleared := t.flagCleared,
        inp := { s.inp with buf := t.inp.buf, cnt := t.inp.cnt, pos := t.inp.pos }, err := t.err, errInfo := t.errInfo }) ∧
    (exec .compress s = .next t →
      t = { s with
        freq := t.freq, freqV := t.freqV, q := t.q, qLen := t.qLen, qV := t.qV, nodes := t.nodes, nNodes := t.nNodes,
        root := t.root, rootW := t.rootW, treeV := t.treeV, ct := t.ct, ctLen := t.ctLen, ctV := t.ctV,
        flagCleared := t.flagCleared, total := t.total, unique := t.unique, out := t.out, err := t.err, errInfo := t.errInfo }) ∧
    (exec .decompress s = .next t →
      t = { s with
        dst := t.dst, dstLen := t.dstLen, dstV := t.dstV, dmap := t.dmap, dmapLen := t.dmapLen, emitted := t.emitted,
        total := t.total, unique := t.unique, flagCleared := t.flagCleared, inp := { t.inp with cbi := s.inp.cbi, len := s.inp.len },
        err := t.err, errInfo := t.errInfo })

/-! ## Reset and system commands -/

/-- 47_system.md R173. -/
def Obligations.NopDoesNothing : Prop :=
  decode 0x00000000#32 = .ok .nop ∧ ∀ s : State, exec .nop s = .next s

/-- 47_system.md R174: `SRESET` makes every register 0 and empties both channels, the hardware reset leaves the same
state, and the contents of memories and tables are unchanged. -/
def Obligations.SresetIsTheHardwareReset : Prop :=
  decode 0x00000001#32 = .ok .sreset ∧
  ∀ s : State, ∃ t, exec .sreset s = .next t ∧ (∀ i, i ≤ 20 → regValue t i = 0#64) ∧
    (t.out.acc = 0#8 ∧ t.out.cnt = 0#4 ∧ t.out.opened = false) ∧
    (t.inp.buf = 0#8 ∧ t.inp.cnt = 0#4 ∧ t.inp.opened = false) ∧
    (t.err = none ∧ t.freqV = false ∧ t.qV = false ∧ t.treeV = false ∧ t.ctV = false ∧ t.dstV = false) ∧
    SameContents s t ∧ SameModelFields s t ∧
    ∀ r rest, r.pending = .hardReset :: rest → { r with pending := rest, fresh := r.fresh + 1 } = s → step r = .next t

/-- 70_reset_and_hazards.md R200, R201: after power-up every register reads 0, both channels are closed and empty, every
flag is 0; and nothing runs by itself: with nothing to come the block is idle (the idle step is the model's choice:
log 1). -/
def Obligations.PowerUpRegistersAreZeroAndIdle : Prop :=
  ((∀ i, i ≤ 20 → regValue State.reset i = 0#64) ∧
    State.reset.out.opened = false ∧ State.reset.inp.opened = false ∧ State.reset.err = none ∧
    State.reset.out.acc = 0#8 ∧ State.reset.out.cnt = 0#4 ∧ State.reset.inp.buf = 0#8 ∧ State.reset.inp.cnt = 0#4 ∧
    State.reset.freqV = false ∧ State.reset.qV = false ∧ State.reset.treeV = false ∧ State.reset.ctV = false ∧
    State.reset.dstV = false) ∧
  ∀ s : State, s.pending = [] → step s = .next s

/-- 70_reset_and_hazards.md R202: a hardware reset during a command abandons it: every register is 0, and the contents
that the command could not write are unchanged (what it could write is a free value: log 15). -/
def Obligations.HardwareResetAbandonsACommand : Prop :=
  ∀ (s : State) (c : Word) (i : Instr) (rest : List Event), s.pending = .hardResetDuring c :: rest → decode c = .ok i →
    ∃ t, step s = .next t ∧ (∀ k, k ≤ 20 → regValue t k = 0#64) ∧ t.err = none ∧ t.out.opened = false ∧
      t.inp.opened = false ∧ t.src = s.src ∧ t.inp.cbi = s.inp.cbi ∧
      (Elem.cbo ∉ writesOf i → t.out.cbo = s.out.cbo) ∧ (Elem.dst ∉ writesOf i → t.dst = s.dst) ∧
      (Elem.freq ∉ writesOf i → t.freq = s.freq) ∧ (Elem.queue ∉ writesOf i → t.q = s.q) ∧
      (Elem.nodes ∉ writesOf i → t.nodes = s.nodes) ∧ (Elem.ct ∉ writesOf i → t.ct = s.ct) ∧
      (Elem.dmap ∉ writesOf i → t.dmap = s.dmap)

/-! ## The writer -/

/-- 20_memory.md R41: the byte at the lowest stream position holds `v[7:0]`, and reading is the inverse. -/
def Obligations.FixedWidthIntegersAreLittleEndian : Prop :=
  ∀ v : Word,
    bytesLe v 1 = [v.extractLsb' 0 8] ∧
    bytesLe v 2 = [v.extractLsb' 0 8, v.extractLsb' 8 8] ∧
    bytesLe v 4 = [v.extractLsb' 0 8, v.extractLsb' 8 8, v.extractLsb' 16 8, v.extractLsb' 24 8] ∧
    ∀ n, n ∈ [1, 2, 4] → v.toNat < 2 ^ (8 * n) → leValue (bytesLe v n) = v.toNat

/-- 40_channel_writer.md R83: `WOPEN` opens a closed writer on an empty stream and touches no byte of `CBO`; it faults
when the writer is open. -/
def Obligations.WopenOpensTheWriter : Prop :=
  decode 0x00000010#32 = .ok .wopen ∧
  ∀ s : State,
    (s.out.opened = true → FaultsWith .wopen .seq 0x10#32 s) ∧
    (s.out.opened = false →
      exec .wopen s =
        .next { s with out := { acc := 0#8, cnt := 0#4, opened := true, cbo := s.out.cbo, len := 0#64 } })

/-- 40_channel_writer.md R81, R82, R84, R86, R87, R88: a fixed-width write checks that the writer is open, then the
range, then appends the padded partial byte and the value's bytes, or faults when they find no room. -/
def Obligations.FixedWidthWriteAppendsLittleEndian : Prop :=
  ∀ (s : State) (i : Instr) (op : Word) (n : Nat), s.params.cboCap ≤ 2 ^ 64 - 1 →
    (i, op, n) ∈ [(Instr.wubyte, 0x11#32, 1), (Instr.wushort, 0x12#32, 2), (Instr.wuint, 0x13#32, 4)] →
    decode op = .ok i ∧
    (s.out.opened = false → FaultsWith i .closed op s) ∧
    (s.out.opened = true → 2 ^ (8 * n) ≤ s.wdata.toNat → FaultsWith i .range s.wdata s) ∧
    (s.out.opened = true → s.wdata.toNat < 2 ^ (8 * n) →
      s.params.cboCap < s.out.len.toNat + (padBytes s.out).length + n → FaultsWith i .capacity op s) ∧
    (s.out.opened = true → s.wdata.toNat < 2 ^ (8 * n) → OutOk s.out →
      s.out.len.toNat + (padBytes s.out).length + n ≤ s.params.cboCap →
      ∃ c, exec i s = .next { s with out := c } ∧ Appended (padBytes s.out ++ bytesLe s.wdata n) s.out c ∧
        c.cnt = 0#4 ∧ c.acc = 0#8 ∧ c.opened = true)

/-- 40_channel_writer.md R85: `WBIT` checks that the writer is open, then the bit's value, then puts the bit below the
buffered ones; the eighth bit, or the flush flag, emits the byte and empties the accumulator. -/
def Obligations.WbitAppendsOneBit : Prop :=
  decode 0x00000014#32 = .ok (.wbit false) ∧ decode 0x00000114#32 = .ok (.wbit true) ∧
  ∀ (s : State) (f : Bool), s.params.cboCap ≤ 2 ^ 64 - 1 → s.out.cnt.toNat ≤ 7 →
    (s.out.opened = false → FaultsWith (.wbit f) .closed 0x14#32 s) ∧
    (s.out.opened = true → 1 < s.wdata.toNat → FaultsWith (.wbit f) .bitValue s.wdata s) ∧
    (s.out.opened = true → s.wdata.toNat ≤ 1 → s.out.cnt.toNat < 7 → f = false →
      exec (.wbit f) s =
        .next { s with
          out := { s.out with
            acc := s.out.acc ||| (s.wdata.setWidth 8 <<< (7 - s.out.cnt.toNat)), cnt := s.out.cnt + 1#4 } }) ∧
    (s.out.opened = true → s.wdata.toNat ≤ 1 → s.out.cnt.toNat = 7 ∨ f = true →
      s.params.cboCap ≤ s.out.len.toNat → FaultsWith (.wbit f) .capacity 0x14#32 s) ∧
    (s.out.opened = true → s.wdata.toNat ≤ 1 → s.out.cnt.toNat = 7 ∨ f = true →
      s.out.len.toNat < s.params.cboCap →
      ∃ c, exec (.wbit f) s = .next { s with out := c } ∧
        Appended [s.out.acc ||| (s.wdata.setWidth 8 <<< (7 - s.out.cnt.toNat))] s.out c ∧
        c.acc = 0#8 ∧ c.cnt = 0#4 ∧ c.opened = true)

/-- 40_channel_writer.md R82, R89: `WCLOSE` flushes the partial byte, if there is one, and closes the writer. -/
def Obligations.WcloseFlushesAndCloses : Prop :=
  decode 0x00000015#32 = .ok .wclose ∧
  ∀ s : State, s.params.cboCap ≤ 2 ^ 64 - 1 →
    (s.out.opened = false → FaultsWith .wclose .closed 0x15#32 s) ∧
    (s.out.opened = true → s.out.cnt = 0#4 → exec .wclose s = .next { s with out := { s.out with opened := false } }) ∧
    (s.out.opened = true → s.out.cnt ≠ 0#4 → s.params.cboCap ≤ s.out.len.toNat →
      FaultsWith .wclose .capacity 0x15#32 s) ∧
    (s.out.opened = true → s.out.cnt ≠ 0#4 → s.out.len.toNat < s.params.cboCap →
      ∃ c, exec .wclose s = .next { s with out := c } ∧ Appended [s.out.acc] s.out c ∧ c.acc = 0#8 ∧ c.cnt = 0#4 ∧
        c.opened = false)

/-- 20_memory.md R44: bit `k` of a run written from a byte boundary is bit `7 - (k mod 8)` of byte `floor(k/8)` of the
run, the run takes `ceil(n/8)` bytes once flushed and the low bits of the last are 0; 40_channel_writer.md R79 (c): it
emits `floor(n/8)` bytes and leaves `W_CNT = n mod 8`. -/
def Obligations.BitRunsPackMostSignificantFirst : Prop :=
  ∀ (s : State) (bits : Bits), s.err = none → paramsWellFormed s.params = true → s.out.opened = true → OutOk s.out →
    s.out.cnt = 0#4 → s.out.len.toNat + bits.length / 8 ≤ s.params.cboCap →
    ∃ t, runWrites (bits.map ChanOp.bit) s = some t ∧
      t.out.len.toNat = s.out.len.toNat + bits.length / 8 ∧ t.out.cnt.toNat = bits.length % 8 ∧
      (outStream t.out ++ padBytes t.out).length = s.out.len.toNat + (bits.length + 7) / 8 ∧
      (outStream t.out ++ padBytes t.out).take s.out.len.toNat = outStream s.out ∧
      ∀ k, k < 8 * ((bits.length + 7) / 8) →
        ((outStream t.out ++ padBytes t.out).getD (s.out.len.toNat + k / 8) 0#8).getLsbD (7 - k % 8) =
          bits.getD k false

/-- 40_channel_writer.md R79 (e), 20_memory.md R53: what a sequence of writer commands, with or without the flush flag
and with the close, emits after `WOPEN` depends on the commands and their operands only, not on anything else in the
machine. -/
def Obligations.EmittedBytesDependOnTheCommandsOnly : Prop :=
  ∀ (cmds : List (Instr × Word)) (s s' w w' t : State),
    (∀ p ∈ cmds, p.1 ∈ [Instr.wubyte, .wushort, .wuint, .wbit false, .wbit true, .wclose]) →
    s.err = none → s'.err = none → s.params.cboCap = s'.params.cboCap → s.params.cboCap ≤ 2 ^ 64 - 1 →
    exec .wopen s = .next w → w.err = none → exec .wopen s' = .next w' → w'.err = none → runWriter cmds w = some t →
    ∃ t', runWriter cmds w' = some t' ∧ outStream t'.out = outStream t.out ∧ t'.out.acc = t.out.acc ∧
      t'.out.cnt = t.out.cnt ∧ t'.out.opened = t.out.opened

/-! ## The reader -/

/-- 41_channel_reader.md R93: `ROPEN` opens a closed reader at position 0; it faults when the reader is open, then when
the declared length exceeds the memory. -/
def Obligations.RopenOpensTheReader : Prop :=
  decode 0x00000020#32 = .ok .ropen ∧
  ∀ s : State,
    (s.inp.opened = true → FaultsWith .ropen .seq 0x20#32 s) ∧
    (s.inp.opened = false → s.params.cbiCap < s.inp.len.toNat → FaultsWith .ropen .capacity 0x20#32 s) ∧
    (s.inp.opened = false → s.inp.len.toNat ≤ s.params.cbiCap →
      exec .ropen s =
        .next { s with
          inp := { buf := 0#8, cnt := 0#4, pos := 0#64, opened := true, cbi := s.inp.cbi, len := s.inp.len } })

/-- 41_channel_reader.md R90, R91, R94, R96, R97, R98: a fixed-width read checks that the reader is open, drops the
unread bits, and takes its bytes from `R_POS` on, low byte first, or faults with the position when they are not there. -/
def Obligations.FixedWidthReadTakesLittleEndian : Prop :=
  ∀ (s : State) (i : Instr) (op : Word) (n : Nat),
    (i, op, n) ∈ [(Instr.rubyte, 0x21#32, 1), (Instr.rushort, 0x22#32, 2), (Instr.ruint, 0x23#32, 4)] →
    decode op = .ok i ∧
    (s.inp.opened = false → FaultsWith i .closed op s) ∧
    (s.inp.opened = true → s.inp.len.toNat < s.inp.pos.toNat + n →
      FaultsWith i .truncated (s.inp.pos.setWidth 32) s) ∧
    (s.inp.opened = true → s.inp.pos.toNat + n ≤ s.inp.len.toNat →
      exec i s =
        .next { s with
          rdata := BitVec.ofNat 32 (leValue (bytesAt .cbi s.inp.cbi s.inp.pos.toNat n)),
          inp := { s.inp with buf := 0#8, cnt := 0#4, pos := s.inp.pos + BitVec.ofNat 64 n } })

/-- 41_channel_reader.md R95: `RBIT` delivers the most significant unread bit, fetching a new byte when none is
unread. -/
def Obligations.RbitTakesOneBit : Prop :=
  decode 0x00000024#32 = .ok .rbit ∧
  ∀ s : State,
    (s.inp.opened = false → FaultsWith .rbit .closed 0x24#32 s) ∧
    (s.inp.opened = true → s.inp.cnt = 0#4 → s.inp.len.toNat ≤ s.inp.pos.toNat →
      FaultsWith .rbit .truncated (s.inp.pos.setWidth 32) s) ∧
    (s.inp.opened = true → s.inp.cnt ≠ 0#4 →
      exec .rbit s =
        .next { s with
          rdata := if s.inp.buf.getLsbD 7 then 1#32 else 0#32,
          inp := { s.inp with buf := s.inp.buf <<< 1, cnt := s.inp.cnt - 1#4 } }) ∧
    (s.inp.opened = true → s.inp.cnt = 0#4 → s.inp.pos.toNat < s.inp.len.toNat →
      exec .rbit s =
        .next { s with
          rdata := if (byteAt .cbi s.inp.cbi s.inp.pos.toNat).getLsbD 7 then 1#32 else 0#32,
          inp := { s.inp with
            buf := byteAt .cbi s.inp.cbi s.inp.pos.toNat <<< 1, cnt := 7#4, pos := s.inp.pos + 1#64 } })

/-- 41_channel_reader.md R99: `RCLOSE` drops the unread bits and closes the reader; the position stays. -/
def Obligations.RcloseClosesTheReader : Prop :=
  decode 0x00000025#32 = .ok .rclose ∧
  ∀ s : State,
    (s.inp.opened = false → FaultsWith .rclose .closed 0x25#32 s) ∧
    (s.inp.opened = true →
      exec .rclose s = .next { s with inp := { s.inp with buf := 0#8, cnt := 0#4, opened := false } })

/-- 20_memory.md R43, R44, 41_channel_reader.md R95: `n` successive `RBIT`s from a byte boundary deliver bit
`7 - (k mod 8)` of byte `floor(k/8)` and consume `ceil(n/8)` bytes. -/
def Obligations.BitReadsDeliverMostSignificantFirst : Prop :=
  ∀ (s : State) (n : Nat), s.err = none → s.inp.opened = true → s.inp.cnt = 0#4 → s.inp.buf = 0#8 →
    s.inp.pos.toNat ≤ s.inp.len.toNat → n ≤ 8 * (s.inp.len.toNat - s.inp.pos.toNat) →
    ∃ vs t, runReads (List.replicate n (ChanOp.bit false)) s = some (vs, t) ∧ vs.length = n ∧
      t.inp.pos.toNat = s.inp.pos.toNat + (n + 7) / 8 ∧
      ∀ k, k < n → vs.getD k 0#32 =
        if (byteAt .cbi s.inp.cbi (s.inp.pos.toNat + k / 8)).getLsbD (7 - k % 8) then 1#32 else 0#32

/-- 41_channel_reader.md R78 (b): `R_POS` never decreases while the reader is open. -/
def Obligations.ReaderPositionNeverDecreases : Prop :=
  ∀ (i : Instr) (s t : State), i ≠ .sreset → s.inp.opened = true → exec i s = .next t → t.err = none →
    s.inp.pos.toNat ≤ t.inp.pos.toNat

/-- 41_channel_reader.md R78 (c), the mirror law: the reader commands that correspond to a writer sequence from `WOPEN`
to `WCLOSE` return exactly the operands it wrote. -/
def Obligations.ReaderReturnsWhatTheWriterWrote : Prop :=
  ∀ (ops : List ChanOp) (s w t c r : State), paramsWellFormed s.params = true → s.err = none →
    exec .wopen s = .next w → w.err = none → runWrites ops w = some t → exec .wclose t = .next c → c.err = none →
    Loaded (outStream c.out) r →
    ∃ r' u, exec .ropen r = .next r' ∧ r'.err = none ∧ runReads ops r' = some (ops.map ChanOp.value, u)

/-! ## The pipeline -/

/-- 42_frequency_sort.md R101, 10_state.md R22: `FREQ` counts, for every byte value, the positions of the source that
hold it; it faults on a source longer than its memory and on an empty one. Of `flagCleared`, a field of the model's own
(log 9), it says nothing. -/
def Obligations.FreqCountsOccurrences : Prop :=
  decode 0x00000030#32 = .ok .freq ∧
  ∀ s : State, s.params.srcCap ≤ 2 ^ 32 - 1 →
    (s.params.srcCap < s.srcLen.toNat → FaultsWith .freq .capacity 0x30#32 s) ∧
    (s.srcLen = 0#32 → FaultsWith .freq .emptyInput 0#32 s) ∧
    (s.srcLen ≠ 0#32 → s.srcLen.toNat ≤ s.params.srcCap →
      ∃ fr cleared, exec .freq s =
          .next { s with
            freq := fr, freqV := true, qV := false, treeV := false, ctV := false, flagCleared := cleared } ∧
        ∀ b : Byte, (fr[b.toNat]'b.isLt).toNat = (bytesAt .src s.src 0 s.srcLen.toNat).count b)

/-- 42_frequency_sort.md R102: the counts sum to `SRC_LEN`, one is nonzero, none exceeds `SRC_LEN`. -/
def Obligations.FrequenciesSumToTheSourceLength : Prop :=
  ∀ s t : State, s.err = none → s.params.srcCap ≤ 2 ^ 32 - 1 → exec .freq s = .next t → t.err = none →
    ((t.freq.toList.map BitVec.toNat).sum = s.srcLen.toNat) ∧ (∃ x ∈ t.freq.toList, x ≠ 0#32) ∧
      ∀ x ∈ t.freq.toList, x.toNat ≤ s.srcLen.toNat

/-- 42_frequency_sort.md R103, R104: `SORT` lists exactly the observed symbols with their counts, ascending by count and
among equal counts by `TIE_ORDER`, by default the byte value; it faults without `FREQ_V`. Of `flagCleared`, a field of the
model's own (log 9), it says nothing. -/
def Obligations.SortOrdersByCountThenTieOrder : Prop :=
  decode 0x00000031#32 = .ok .sort ∧
  ∀ s : State, paramsWellFormed s.params = true →
    (s.freqV = false → FaultsWith .sort .seq 0x31#32 s) ∧
    (s.freqV = true →
      ∃ q cleared, exec .sort s =
          .next { s with
            q := q, qLen := BitVec.ofNat 9 q.length, qV := true, treeV := false, ctV := false, flagCleared := cleared } ∧
        (∀ e, e ∈ q ↔ s.freq[e.sym.toNat]'e.sym.isLt ≠ 0#32 ∧ e.count = s.freq[e.sym.toNat]'e.sym.isLt) ∧
        (q.map QEntry.sym).Nodup ∧ q.length ≤ 256 ∧
        (q.Pairwise fun x y => x.count < y.count ∨
          x.count = y.count ∧ s.params.tieOrder.idxOf x.sym < s.params.tieOrder.idxOf y.sym) ∧
        (s.params.tieOrder = (List.range 256).map (BitVec.ofNat 8) →
          q.Pairwise fun x y => x.count < y.count ∨ x.count = y.count ∧ x.sym < y.sym))

/-- 42_frequency_sort.md R105: what holds of the queue while `Q_V = 1` (and no fault is latched). -/
def Obligations.QueuePropertiesWhileValid : Prop :=
  ∀ s : State, Inv s → s.err = none → s.qV = true →
    1 ≤ s.qLen.toNat ∧ s.qLen.toNat ≤ 256 ∧ s.qLen.toNat = s.q.length ∧ (s.q.map QEntry.sym).Nodup ∧
      (∀ e ∈ s.q, 1 ≤ e.count.toNat) ∧ (s.q.Pairwise fun x y => x.count ≤ y.count) ∧
      (s.q.map fun e => e.count.toNat).sum = s.srcLen.toNat ∧
      s.qLen.toNat = (bytesAt .src s.src 0 s.srcLen.toNat).dedup.length

/-- 43_tree_builder.md R117, R120, R124: `TREE` builds, for every queue, sorted or not, a tree whose leaves are exactly
the queue's entries, whose root weight is the sum of their counts, of `2n - 1` nodes and depth at most `n - 1`; it
faults without `Q_V`. The sum is of 32-bit values; in queues no run reaches it can wrap, as the model's registers then
do (log 20). -/
def Obligations.TreeHasEveryQueueEntryAsOneLeaf : Prop :=
  ∀ s : State,
    (s.qV = false → FaultsWith .tree .seq 0x32#32 s) ∧
    (s.qV = true → 1 ≤ s.qLen.toNat → s.qLen.toNat ≤ 256 → s.q.length = s.qLen.toNat →
      ∃ (ns : List Node) (t : State),
        t = { s with
          nodes := ns, nNodes := BitVec.ofNat 9 ns.length, root := t.root, rootW := t.rootW, treeV := true, ctV := false,
          flagCleared := true } ∧
        exec .tree s = .next t ∧ ns.length = 2 * s.q.length - 1 ∧ (leaves (rootTree t)).Perm s.q ∧
        t.rootW = (rootTree t).weight ∧ t.rootW = (s.q.map QEntry.count).sum ∧
        ∀ p x, follow (rootTree t) p = some x → p.length ≤ s.q.length - 1)

/-- 43_tree_builder.md R114, R116, R117, R119, with `PEND_ORDER` at its default: the tree of a queue of one to ten
entries. From eight entries on the candidate is compared with the main tree: strictly heavier it is merged, otherwise it
is held back and, at ten entries, becomes the first child of the next candidate. -/
def Obligations.SmallQueueTrees : Prop :=
  ∀ (s t : State) (a b c d e f g h i j : QEntry),
    s.params.pendOrder = .olderFirst → s.qV = true → exec .tree s = .next t →
    let leaf (x : QEntry) : Tree := .leaf x.sym x.count
    let pair (x y : Tree) : Tree := .internal (x.weight + y.weight) x y
    let merge (m x : Tree) : Tree := if x.weight < m.weight then pair x m else pair m x
    let two (x y : QEntry) : Tree := pair (leaf x) (leaf y)
    let main := pair (two a b) (two c d)
    let cand := pair (two e f) (two g h)
    let eight := if main.weight < cand.weight then pair main cand else merge main cand
    let held := pair cand (two i j)
    (s.q = [a] → s.qLen = 1#9 → rootTree t = leaf a) ∧
    (s.q = [a, b] → s.qLen = 2#9 → rootTree t = two a b) ∧
    (s.q = [a, b, c] → s.qLen = 3#9 → rootTree t = merge (two a b) (leaf c)) ∧
    (s.q = [a, b, c, d] → s.qLen = 4#9 → rootTree t = main) ∧
    (s.q = [a, b, c, d, e] → s.qLen = 5#9 → rootTree t = merge main (leaf e)) ∧
    (s.q = [a, b, c, d, e, f] → s.qLen = 6#9 → rootTree t = merge main (two e f)) ∧
    (s.q = [a, b, c, d, e, f, g] → s.qLen = 7#9 → rootTree t = merge (merge main (two e f)) (leaf g)) ∧
    (s.q = [a, b, c, d, e, f, g, h] → s.qLen = 8#9 → rootTree t = eight) ∧
    (s.q = [a, b, c, d, e, f, g, h, i] → s.qLen = 9#9 → rootTree t = merge eight (leaf i)) ∧
    (s.q = [a, b, c, d, e, f, g, h, i, j] → s.qLen = 10#9 →
      rootTree t =
        if main.weight < cand.weight then merge (pair main cand) (two i j)
        else if main.weight < held.weight then pair main held
        else merge main held)

/-- 43_tree_builder.md R125: the tree is a function of the queue alone (and of `PEND_ORDER`), node for node. -/
def Obligations.TreeDependsOnTheQueueOnly : Prop :=
  ∀ s s' t t' : State, s.qV = true → s'.qV = true → s.q.take s.qLen.toNat = s'.q.take s'.qLen.toNat →
    s.q.take s.qLen.toNat ≠ [] → s.params.pendOrder = s'.params.pendOrder →
    exec .tree s = .next t → exec .tree s' = .next t' →
    t.nodes = t'.nodes ∧ t.nNodes = t'.nNodes ∧ t.root = t'.root ∧ t.rootW = t'.rootW

/-- 44_code_table.md R131, R132, R133, R134, R136: `CODES` makes one entry per leaf, from left to right; an entry's bits
lead from the root to its leaf, 0 to the left and 1 to the right; it faults without `TREE_V`. -/
def Obligations.CodesAreRootToLeafPaths : Prop :=
  ∀ s : State,
    (s.treeV = false → FaultsWith .codes .seq 0x33#32 s) ∧
    (s.treeV = true → (leaves (rootTree s)).length ≤ 256 →
      ∃ ct, exec .codes s = .next { s with ct := ct, ctLen := BitVec.ofNat 9 ct.length, ctV := true } ∧
        ct.map CodeEntry.sym = (leaves (rootTree s)).map QEntry.sym ∧
        (∀ e ∈ ct, (∃ w, follow (rootTree s) e.bits = some (.leaf e.sym w)) ∧ e.len.toNat = e.bits.length ∧
          e.bits.length ≤ ct.length - 1) ∧
        (∀ x w, rootTree s = .leaf x w → ct = [⟨x, 0#16, []⟩]))

/-- 44_code_table.md R135: no code of a derived table is a prefix of another. -/
def Obligations.DerivedCodesArePrefixFree : Prop :=
  ∀ s : State, s.treeV = true →
    ∃ t, exec .codes s = .next t ∧ t.ctV = true ∧
      t.ct.Pairwise fun x y => ¬ x.bits <+: y.bits ∧ ¬ y.bits <+: x.bits

/-- 44_code_table.md R137: every bit string longer than the longest code has exactly one code as a prefix. -/
def Obligations.DerivedCodesAreComplete : Prop :=
  ∀ (s t : State) (bits : Bits), s.treeV = true → exec .codes s = .next t →
    (∀ e ∈ t.ct, e.bits.length < bits.length) → ∃! e, e ∈ t.ct ∧ e.bits <+: bits

/-- 45_encoder.md R142, 10_state.md R16: while `CT_V = 1` (and no fault is latched) every byte value that occurs in the
source has exactly one entry in `CT`. -/
def Obligations.CodeTableCoversTheSource : Prop :=
  ∀ s : State, Inv s → s.err = none → s.ctV = true →
    s.ctLen.toNat = s.ct.length ∧ s.ctLen = s.qLen ∧
      ∀ b ∈ bytesAt .src s.src 0 s.srcLen.toNat, ∃! e, e ∈ s.ct ∧ e.sym = b

/-! ## The container -/

/-- 45_encoder.md R141, 30_encoding.md R70, R72, R73: `ENCODE` appends, after the padded partial byte, the container of
the source under the codes of `CT`, and closes the writer; it faults without a code table, then with the writer closed,
then when the container finds no room. -/
def Obligations.EncodeWritesTheContainer : Prop :=
  decode 0x00000034#32 = .ok .encode ∧
  ∀ s : State,
    (s.ctV = false → FaultsWith .encode .seq 0x34#32 s) ∧
    (s.ctV = true → s.out.opened = false → FaultsWith .encode .closed 0x34#32 s) ∧
    ∀ code : Byte → Bits, s.ctV = true → s.out.opened = true → paramsWellFormed s.params = true → OutOk s.out →
      s.ctLen.toNat = s.ct.length → (s.ct.map CodeEntry.sym).Nodup →
      (∀ b ∈ bytesAt .src s.src 0 s.srcLen.toNat, ∃ e ∈ s.ct, e.sym = b ∧ e.bits = code b) →
      let container := containerBytes s.srcLen s.ct ((bytesAt .src s.src 0 s.srcLen.toNat).flatMap code)
      (s.params.cboCap < s.out.len.toNat + (padBytes s.out).length + container.length →
        FaultsWith .encode .capacity 0x34#32 s) ∧
      (s.out.len.toNat + (padBytes s.out).length + container.length ≤ s.params.cboCap →
        ∃ c, exec .encode s = .next { s with total := s.srcLen, unique := s.ctLen.setWidth 16, out := c } ∧
          Appended (padBytes s.out ++ container) s.out c ∧ c.acc = 0#8 ∧ c.cnt = 0#4 ∧ c.opened = false)

/-- 45_encoder.md R145, 60_exceptions.md R183 (last row): the faults of `COMPRESS` before the encoder, in order. -/
def Obligations.CompressFaultsInOrder : Prop :=
  ∀ s : State, paramsWellFormed s.params = true →
    (s.params.srcCap < s.srcLen.toNat → FaultsWith .compress .capacity 0x30#32 s) ∧
    (s.srcLen = 0#32 → FaultsWith .compress .emptyInput 0#32 s) ∧
    (s.srcLen ≠ 0#32 → s.srcLen.toNat ≤ s.params.srcCap → s.out.opened = true →
      FaultsWith .compress .seq 0x10#32 s) ∧
    (s.srcLen ≠ 0#32 → s.srcLen.toNat ≤ s.params.srcCap → s.out.opened = false →
      s.params.cboCap < (containerOf s.params (bytesAt .src s.src 0 s.srcLen.toNat)).length →
      FaultsWith .compress .capacity 0x34#32 s)

/-- 45_encoder.md R144, R145: on success `CBO[0 .. CBO_LEN-1]` is the container of the source, every stage flag is set,
the writer is closed, `TOTAL` and `UNIQUE` are the header's fields. -/
def Obligations.CompressWritesTheContainer : Prop :=
  ∀ s : State, paramsWellFormed s.params = true → s.out.opened = false → s.srcLen ≠ 0#32 →
    s.srcLen.toNat ≤ s.params.srcCap →
    (containerOf s.params (bytesAt .src s.src 0 s.srcLen.toNat)).length ≤ s.params.cboCap →
    ∃ t, exec .compress s = .next t ∧ t.err = s.err ∧
      outStream t.out = containerOf s.params (bytesAt .src s.src 0 s.srcLen.toNat) ∧
      (∀ a, t.out.len.toNat ≤ a → byteAt .cbo t.out.cbo a = byteAt .cbo s.out.cbo a) ∧
      (t.freqV = true ∧ t.qV = true ∧ t.treeV = true ∧ t.ctV = true) ∧
      (t.out.opened = false ∧ t.out.acc = 0#8 ∧ t.out.cnt = 0#4) ∧
      t.total = s.srcLen ∧ t.unique.toNat = (bytesAt .src s.src 0 s.srcLen.toNat).dedup.length ∧
      (outStream t.out).take 6 = bytesLe s.srcLen 4 ++ bytesLe (t.unique.setWidth 32) 2

/-- 46_decoder.md R151, R153, R156, R157, R159, R162, 30_encoding.md R70 to R73: on a container made with a table of
distinct codes, whatever follows it in `CBI`, `DECODE` writes the text to `DST`, leaves the reader open just past the
container's last byte, and touches no other byte of `DST`. The table need not be prefix-free: the text's codes are those
of which no other code is a prefix, since the shorter code wins; with the empty code in the table it is the only one. -/
def Obligations.DecodeReadsTheContainer : Prop :=
  ∀ (s : State) (total : Word) (ct : List CodeEntry) (text : List Byte) (code : Byte → Bits) (trail : List Byte),
    paramsWellFormed s.params = true → s.inp.opened = true → s.inp.pos.toNat ≤ s.inp.len.toNat →
    total.toNat = text.length → total.toNat ≤ s.params.dstCap → ct ≠ [] → ct.length ≤ s.params.dmapCap →
    ct.length < 2 ^ 16 →
    (∀ e ∈ ct, e.len.toNat = e.bits.length ∧ e.bits.length ≤ s.params.dcodeMax) →
    (ct.map CodeEntry.bits).Nodup →
    (∀ b ∈ text, ∃ e ∈ ct, e.sym = b ∧ e.bits = code b ∧ ∀ x ∈ ct, x.bits <+: e.bits → x = e) →
    restStream s.inp = containerBytes total ct (text.flatMap code) ++ trail →
    ∃ t, exec .decode s = .next t ∧ t.err = s.err ∧
      (∀ a, byteAt .dst t.dst a = if a < text.length then text.getD a 0#8 else byteAt .dst s.dst a) ∧
      t.dstLen = total ∧ t.dstV = true ∧ t.emitted = total ∧ t.total = total ∧ t.unique = BitVec.ofNat 16 ct.length ∧
      t.dmap = ct.map (fun e => ⟨e.bits, e.sym⟩) ∧ t.dmapLen = BitVec.ofNat 16 ct.length ∧ t.rdata = s.rdata ∧
      t.inp.opened = true ∧ restStream t.inp = trail ∧
      t.inp.pos.toNat = s.inp.pos.toNat + (containerBytes total ct (text.flatMap code)).length

/-- 46_decoder.md R151, R152, 60_exceptions.md R183: the faults of `DECODE` up to the header, in order. -/
def Obligations.DecodeHeaderFaults : Prop :=
  ∀ s : State,
    (s.inp.opened = false → FaultsWith .decode .closed 0x35#32 s) ∧
    (s.inp.opened = true → s.inp.pos.toNat ≤ s.inp.len.toNat → s.inp.len.toNat - s.inp.pos.toNat < 6 →
      FaultsWith .decode .noHeader (BitVec.ofNat 32 (s.inp.len.toNat - s.inp.pos.toNat)) s) ∧
    (∀ (total unique : Word) (trail : List Byte), s.inp.opened = true → s.inp.pos.toNat ≤ s.inp.len.toNat →
      unique.toNat < 2 ^ 16 → restStream s.inp = bytesLe total 4 ++ bytesLe unique 2 ++ trail →
      s.params.dmapCap < unique.toNat ∨ s.params.dstCap < total.toNat → FaultsWith .decode .capacity 0x35#32 s)

/-- 46_decoder.md R158: `TOTAL = 0` with `UNIQUE = 0` decodes to the empty output; `UNIQUE = 0` with `TOTAL > 0` reads
to the end of the stream and faults there (`flagCleared` is the model's own field: log 9). -/
def Obligations.DecodeWithoutATable : Prop :=
  ∀ (s : State) (total : Word) (trail : List Byte), s.inp.opened = true → s.inp.pos.toNat ≤ s.inp.len.toNat →
    restStream s.inp = bytesLe total 4 ++ bytesLe 0#32 2 ++ trail → total.toNat ≤ s.params.dstCap →
    (total = 0#32 →
      exec .decode s =
        .next { s with
          inp := { s.inp with buf := 0#8, cnt := 0#4, pos := s.inp.pos + 6#64 }, total := 0#32, unique := 0#16,
          dmap := [], dmapLen := 0#16, emitted := 0#32, dstLen := 0#32, dstV := true, flagCleared := true }) ∧
    (total ≠ 0#32 → FaultsWith .decode .truncated (s.inp.len.setWidth 32) s)

/-- 46_decoder.md R155: an entry that repeats an earlier code faults with its index, tested after its bits are read. -/
def Obligations.DecodeRejectsARepeatedCode : Prop :=
  ∀ (s : State) (total unique : Word) (es : List CodeEntry) (e : CodeEntry) (trail : List Byte),
    s.inp.opened = true → s.inp.pos.toNat ≤ s.inp.len.toNat → total.toNat ≤ s.params.dstCap →
    es.length < unique.toNat → unique.toNat < 2 ^ 16 → unique.toNat ≤ s.params.dmapCap →
    (∀ x ∈ e :: es, x.len.toNat = x.bits.length ∧ x.bits.length ≤ s.params.dcodeMax) →
    (es.map CodeEntry.bits).Nodup → e.bits ∈ es.map CodeEntry.bits →
    restStream s.inp = bytesLe total 4 ++ bytesLe unique 2 ++
      (es ++ [e]).flatMap (fun x => entryHead x ++ packBits x.bits) ++ trail →
    FaultsWith .decode .dupCode (BitVec.ofNat 32 es.length) s

/-- 46_decoder.md R151, R153, R161, R163, 60_exceptions.md R182: the other faults after the header. After entries with
distinct codes: a stream that ends inside an entry's symbol, length or code bits, and a length above `DCODE_MAX`. After a
whole table and some symbols: a payload that ends before the next symbol's code is complete, or whose bits match no
code. `ERR_TRUNCATED` reports the end of the stream, or one byte before it where a 16-bit length finds one byte. -/
def Obligations.DecodeFaultsInTableAndPayload : Prop :=
  (∀ (s : State) (total unique : Word) (es : List CodeEntry) (tail : List Byte),
    s.inp.opened = true → s.inp.pos.toNat ≤ s.inp.len.toNat → total.toNat ≤ s.params.dstCap →
    es.length < unique.toNat → unique.toNat < 2 ^ 16 → unique.toNat ≤ s.params.dmapCap →
    (∀ x ∈ es, x.len.toNat = x.bits.length ∧ x.bits.length ≤ s.params.dcodeMax) → (es.map CodeEntry.bits).Nodup →
    restStream s.inp = bytesLe total 4 ++ bytesLe unique 2 ++ es.flatMap (fun x => entryHead x ++ packBits x.bits) ++ tail →
    (tail.length ≤ 1 → FaultsWith .decode .truncated (s.inp.len.setWidth 32) s) ∧
    (tail.length = 2 → FaultsWith .decode .truncated ((s.inp.len - 1#64).setWidth 32) s) ∧
    ∀ (e : CodeEntry) (rest : List Byte), tail = entryHead e ++ rest →
      (s.params.dcodeMax < e.len.toNat → FaultsWith .decode .capacity 0x35#32 s) ∧
      (e.len.toNat ≤ s.params.dcodeMax → 8 * rest.length < e.len.toNat →
        FaultsWith .decode .truncated (s.inp.len.setWidth 32) s)) ∧
  ∀ (s : State) (total : Word) (ct : List CodeEntry) (text : List Byte) (code : Byte → Bits) (rest : Bits),
    s.inp.opened = true → s.inp.pos.toNat ≤ s.inp.len.toNat → text.length < total.toNat →
    total.toNat ≤ s.params.dstCap → ct ≠ [] → ct.length ≤ s.params.dmapCap → ct.length < 2 ^ 16 →
    (∀ e ∈ ct, e.len.toNat = e.bits.length ∧ e.bits.length ≤ s.params.dcodeMax) → (ct.map CodeEntry.bits).Nodup →
    (∀ b ∈ text, ∃ e ∈ ct, e.sym = b ∧ e.bits = code b ∧ ∀ x ∈ ct, x.bits <+: e.bits → x = e) →
    (∀ e ∈ ct, ¬ e.bits <+: rest) →
    (∀ e ∈ ct.getLast?, (e.bits.length + (text.flatMap code ++ rest).length) % 8 = 0) →
    restStream s.inp = containerBytes total ct (text.flatMap code ++ rest) →
    FaultsWith .decode .truncated (s.inp.len.setWidth 32) s

/-- 46_decoder.md R150: `DECODE` uses none of `FREQ`, `Q`, `NODE`, `CT`: two states that agree on the reader, on `DST`
and on the parameters decode alike. -/
def Obligations.DecoderUsesNoEncoderState : Prop :=
  ∀ s s' t t' : State, s.inp = s'.inp → s.dst = s'.dst → s.params = s'.params → s.err = none → s'.err = none →
    exec .decode s = .next t → exec .decode s' = .next t' →
    t.err = t'.err ∧ (t.err = none →
      t.inp = t'.inp ∧ t.dst = t'.dst ∧ t.dstLen = t'.dstLen ∧ t.dstV = t'.dstV ∧ t.dmap = t'.dmap ∧
        t.dmapLen = t'.dmapLen ∧ t.total = t'.total ∧ t.unique = t'.unique ∧ t.emitted = t'.emitted) ∧
      (t.err ≠ none → t.errInfo = t'.errInfo)

/-- 45_encoder.md R145, 46_decoder.md R160: `COMPRESS` and `DECOMPRESS` do what their commands do one after the other,
and stop with the first fault. -/
def Obligations.WholeFlowCommandsAreSequences : Prop :=
  ∀ s : State, s.err = none →
    ∀ p, p ∈ [(Instr.compress, [Instr.freq, .sort, .tree, .codes, .wopen, .encode]),
        (Instr.decompress, [Instr.ropen, .decode, .rclose])] →
      ∃ t u, exec p.1 s = .next t ∧ runCommands p.2 s = .next u ∧
        t.err = u.err ∧ t.errInfo = u.errInfo ∧ (t.err = none → t = u)

/-- 46_decoder.md R160, R157, R159: on a container made with a prefix-free table, whatever follows it in `CBI`,
`DECOMPRESS` gives the text, leaves the reader closed and `R_POS` just past the container. -/
def Obligations.DecompressReadsTheContainer : Prop :=
  ∀ (s : State) (total : Word) (ct : List CodeEntry) (text : List Byte) (code : Byte → Bits) (trail : List Byte),
    paramsWellFormed s.params = true → total.toNat = text.length → total.toNat ≤ s.params.dstCap → ct ≠ [] →
    ct.length ≤ s.params.dmapCap → ct.length < 2 ^ 16 →
    (∀ e ∈ ct, e.len.toNat = e.bits.length ∧ e.bits.length ≤ s.params.dcodeMax) →
    (ct.Pairwise fun x y => ¬ x.bits <+: y.bits ∧ ¬ y.bits <+: x.bits) →
    (∀ b ∈ text, ∃ e ∈ ct, e.sym = b ∧ e.bits = code b) →
    Loaded (containerBytes total ct (text.flatMap code) ++ trail) s →
    ∃ t, exec .decompress s = .next t ∧ t.err = none ∧
      (∀ a, byteAt .dst t.dst a = if a < text.length then text.getD a 0#8 else byteAt .dst s.dst a) ∧
      t.dstLen = total ∧ t.dstV = true ∧ t.inp.opened = false ∧ t.inp.buf = 0#8 ∧ t.inp.cnt = 0#4 ∧
      t.inp.pos.toNat = (containerBytes total ct (text.flatMap code)).length

/-- 45_encoder.md R146: for every text within the capacities, for every `TIE_ORDER` and for either of the two orders that
the model's `PEND_ORDER` has (log 17: a design choice), `COMPRESS` and then `DECOMPRESS` of its output, in whatever
other state, fault nowhere and give the text back. -/
def Obligations.DecompressUndoesCompress : Prop :=
  ∀ s : State, paramsWellFormed s.params = true → s.err = none → s.out.opened = false → s.srcLen ≠ 0#32 →
    s.srcLen.toNat ≤ s.params.srcCap →
    (containerOf s.params (bytesAt .src s.src 0 s.srcLen.toNat)).length ≤ s.params.cboCap →
    ∃ t, exec .compress s = .next t ∧ t.err = none ∧
      ∀ r : State, paramsWellFormed r.params = true → Loaded (outStream t.out) r →
        s.srcLen.toNat ≤ r.params.dstCap → 256 ≤ r.params.dmapCap → 255 ≤ r.params.dcodeMax →
        ∃ u, exec .decompress r = .next u ∧ u.err = none ∧ u.dstLen = s.srcLen ∧ u.dstV = true ∧
          u.inp.opened = false ∧ u.inp.pos = t.out.len ∧
          ∀ a, a < s.srcLen.toNat → byteAt .dst u.dst a = byteAt .src s.src a

/-! ## The host -/

/-- 47_system.md R172 (b), (c), (g), 10_state.md R16: the host's writes of `WDATA`, `SRC_LEN` and `SRC`; the last two
clear the four stage flags, even when the value does not change (the model's own field `flagCleared` records it: log 9). -/
def Obligations.HostWritesInvalidateTheStages : Prop :=
  ∀ (s : State) (rest : List Event) (v : Word) (a : Nat) (b : Byte), s.err = none →
    (s.pending = .host (.writeReg 1 (v.setWidth 64)) :: rest →
      step s = .next { s with pending := rest, fresh := s.fresh + 1, wdata := v }) ∧
    (s.pending = .host (.writeReg 5 (v.setWidth 64)) :: rest →
      step s = .next { s with
        pending := rest, fresh := s.fresh + 1, srcLen := v, freqV := false, qV := false, treeV := false, ctV := false,
        flagCleared := true }) ∧
    (s.pending = .host (.writeMem .src a b) :: rest → a < s.params.srcCap →
      ∃ m, step s = .next { s with
          pending := rest, fresh := s.fresh + 1, src := m, freqV := false, qV := false, treeV := false, ctV := false,
          flagCleared := true } ∧
        ∀ k, byteAt .src m k = if k = a then b else byteAt .src s.src k)

/-- 47_system.md R172 (d), (h), 70_reset_and_hazards.md R206, 60_exceptions.md R185: the host's writes of `CBI_LEN` and
`CBI` take effect while the reader is closed, and fault with `ERR_SEQ`, `ERR_INFO` = 0x100, while it is open. The refused
write damages no byte of `CBI` and changes nothing but the fault latch, save that `CBI_LEN` is unspecified after a
refused write of it (log 12). -/
def Obligations.HostWritesOfTheInputNeedAClosedReader : Prop :=
  ∀ (s : State) (rest : List Event) (v : BitVec 64) (a : Nat) (b : Byte), s.err = none →
    (s.inp.opened = false →
      (s.pending = .host (.writeReg 6 v) :: rest →
        step s = .next { s with pending := rest, fresh := s.fresh + 1, inp := { s.inp with len := v } }) ∧
      (s.pending = .host (.writeMem .cbi a b) :: rest → a < s.params.cbiCap →
        ∃ m, step s = .next { s with pending := rest, fresh := s.fresh + 1, inp := { s.inp with cbi := m } } ∧
          ∀ k, byteAt .cbi m k = if k = a then b else byteAt .cbi s.inp.cbi k)) ∧
    (s.inp.opened = true →
      (s.pending = .host (.writeReg 6 v) :: rest →
        ∃ n, step s = .next { s with
          pending := rest, fresh := s.fresh + 1, inp := { s.inp with len := n }, err := some .seq, errInfo := 0x100#32 }) ∧
      (s.pending = .host (.writeMem .cbi a b) :: rest → a < s.params.cbiCap →
        step s = .next { s with pending := rest, fresh := s.fresh + 1, err := some .seq, errInfo := 0x100#32 }))

/-- 47_system.md R172 (a), (f), 10_state.md R28: a read of a register, a memory or a table returns the element and has
no side effect (what it returned stands in `hostRead`: log 7). That a `DMAP` entry below `DMAP_LEN` is returned whatever
`DST_V` is, since no stage flag is `DMAP`'s, is the model's reading of R28 (log 10). -/
def Obligations.HostReadsHaveNoSideEffect : Prop :=
  ∀ (s : State) (rest : List Event),
    (∀ i, i ≤ 20 → s.pending = .host (.readReg i) :: rest →
      ∃ x, step s = .next { s with pending := rest, fresh := s.fresh + 1, hostRead := some (.reg x) } ∧
        (i ≠ 16 ∧ i ≠ 17 ∨ s.treeV = true → x = regValue s i)) ∧
    (∀ m a, a < s.params.cap m → s.pending = .host (.readMem m a) :: rest →
      ∃ x, step s = .next { s with pending := rest, fresh := s.fresh + 1, hostRead := some (.byte x) } ∧
        (m = .src → x = byteAt .src s.src a) ∧ (m = .cbi → x = byteAt .cbi s.inp.cbi a) ∧
        (m = .cbo → a < s.out.len.toNat → x = byteAt .cbo s.out.cbo a) ∧
        (m = .dst → a < s.dstLen.toNat → x = byteAt .dst s.dst a)) ∧
    (∀ tb i, s.pending = .host (.readView tb i) :: rest →
      ∃ x, step s = .next { s with pending := rest, fresh := s.fresh + 1, hostRead := some x } ∧
        (∀ h : i < 256, tb = .freq → s.freqV = true → x = .count s.freq[i]) ∧
        (∀ h : i < s.q.length, tb = .queue → s.qV = true → i < s.qLen.toNat → x = .queue s.q[i]) ∧
        (∀ h : i < s.nodes.length, tb = .node → s.treeV = true → i < s.nNodes.toNat → x = .node s.nodes[i]) ∧
        (∀ h : i < s.ct.length, tb = .code → s.ctV = true → i < s.ctLen.toNat → x = .code s.ct[i]) ∧
        (∀ h : i < s.dmap.length, tb = .dmap → i < s.dmapLen.toNat → x = .map s.dmap[i]))

/-- 47_system.md R172: what is not a host action is given no step (93_implementation_defined.md U10; the refusal by
name is the model's choice: log 13). -/
def Obligations.ForeignWritesAreNotOffered : Prop :=
  ∀ (s : State) (rest : List Event) (i : Nat) (v : BitVec 64) (m : MemName) (a : Nat) (b : Byte),
    (i ≠ 0 → i ≠ 1 → i ≠ 5 → i ≠ 6 → s.pending = .host (.writeReg i v) :: rest →
      step s = .refused (.notOffered (.writeReg i v))) ∧
    (20 < i → s.pending = .host (.readReg i) :: rest → step s = .refused (.notOffered (.readReg i))) ∧
    (m = .cbo ∨ m = .dst → s.pending = .host (.writeMem m a b) :: rest →
      step s = .refused (.notOffered (.writeMem m a b)))

/-- 10_state.md R12, R15, R17, R20, R21, 60_exceptions.md R181: the whole register map: what each of the registers 0 to 20
reads, the places of the fields of `STATUS`, `CHW` and `CHR`, and the fault code numbers. `ROOT` and `ROOT_W` read as
stored while `TREE_V` is 1, or no stage flag has been cleared since reset (log 9). -/
def Obligations.StatusAndChannelRegisterLayout : Prop :=
  ∀ s : State,
    ((statusWord s).getLsbD 0 = s.out.opened ∧ (statusWord s).getLsbD 1 = s.inp.opened ∧
      (statusWord s).getLsbD 2 = s.freqV ∧ (statusWord s).getLsbD 3 = s.qV ∧ (statusWord s).getLsbD 4 = s.treeV ∧
      (statusWord s).getLsbD 5 = s.ctV ∧ (statusWord s).getLsbD 6 = s.dstV ∧ (statusWord s).getLsbD 7 = false ∧
      (statusWord s).extractLsb' 16 16 = 0#16) ∧
    (statusWord s).extractLsb' 8 8 =
      (match s.err with
      | none => 0#8
      | some .range => 1#8
      | some .bitValue => 2#8
      | some .truncated => 3#8
      | some .emptyInput => 4#8
      | some .noHeader => 5#8
      | some .dupCode => 6#8
      | some .closed => 7#8
      | some .seq => 8#8
      | some .illegal => 9#8
      | some .capacity => 10#8) ∧
    (regValue s 0 = 0#64 ∧ regValue s 1 = s.wdata.setWidth 64 ∧ regValue s 2 = s.rdata.setWidth 64 ∧
      regValue s 3 = (statusWord s).setWidth 64 ∧ regValue s 4 = s.errInfo.setWidth 64 ∧
      regValue s 5 = s.srcLen.setWidth 64 ∧ regValue s 6 = s.inp.len ∧ regValue s 7 = s.out.len ∧
      regValue s 8 = s.dstLen.setWidth 64 ∧ regValue s 9 = s.inp.pos) ∧
    regValue s 10 = (0#52 ++ (s.out.cnt ++ s.out.acc) : BitVec 64) ∧
    regValue s 11 = (0#52 ++ (s.inp.cnt ++ s.inp.buf) : BitVec 64) ∧
    (regValue s 12 = s.total.setWidth 64 ∧ regValue s 13 = s.unique.setWidth 64 ∧ regValue s 14 = s.qLen.setWidth 64 ∧
      regValue s 15 = s.nNodes.setWidth 64 ∧ regValue s 18 = s.ctLen.setWidth 64 ∧
      regValue s 19 = s.dmapLen.setWidth 64 ∧ regValue s 20 = s.emitted.setWidth 64) ∧
    (s.treeV = true ∨ s.flagCleared = false →
      regValue s 16 = s.root.setWidth 64 ∧ regValue s 17 = s.rootW.setWidth 64)

/-! ## The invariant -/

/-- The state after power-up meets the invariant. -/
def Obligations.ResetMeetsTheInvariant : Prop := Inv State.reset

/-- Every step keeps the invariant: memories in canonical form and within their capacities, the channels' counts and
zero padding (10_state.md R20, R21), the reader's position within the stream (41_channel_reader.md R78 (a); log 18),
the set stage flags describing products of the present source (10_state.md R16), and the decoder's products (R12, R27). -/
def Obligations.EveryStepKeepsTheInvariant : Prop :=
  ∀ s t : State, Inv s → step s = .next t → Inv t
end

