-- ==== Sys2Proof/Laws/Memory.lean ====
section
/-! SUPPORT. The laws of a memory: read after write, the canonical form, the capacity. -/

namespace Sys2Proof.Machine

namespace Memory

@[simp] theorem cell?_write_same (m : Memory) (a : Nat) (b : Byte) : cell? (write m a b) a = some b := by
  induction m with
  | nil => simp [write, cell?]
  | cons x m ih =>
    obtain ⟨k, c⟩ := x
    simp only [write]
    split
    · simp [cell?]
    · split
      · simp [cell?]
      · next h => simp [cell?, Ne.symm h, ih]

theorem cell?_write_other (m : Memory) {a a' : Nat} (h : a' ≠ a) (b : Byte) :
    cell? (write m a b) a' = cell? m a' := by
  induction m with
  | nil => simp [write, cell?, h.symm]
  | cons x m ih =>
    obtain ⟨k, c⟩ := x
    simp only [write]
    split
    · simp [cell?, h.symm]
    · split
      · next heq => subst heq; simp [cell?, h.symm]
      · simp [cell?, ih]

/-- The first components of a write: nothing but the address written is new. -/
theorem mem_write {m : Memory} {a : Nat} {b : Byte} {x : Host.Cell} (h : x ∈ write m a b) : x = (a, b) ∨ x ∈ m := by
  induction m with
  | nil => simpa [write] using h
  | cons y m ih =>
    obtain ⟨k, c⟩ := y
    simp only [write] at h
    split at h
    · simpa using h
    · split at h
      · rcases List.mem_cons.1 h with h | h
        · exact .inl h
        · exact .inr (List.mem_cons_of_mem _ h)
      · rcases List.mem_cons.1 h with h | h
        · exact .inr (by simp [h])
        · exact (ih h).imp_right (List.mem_cons_of_mem _)

/-- A write keeps the canonical form. -/
theorem wf_write {m : Memory} (h : wf m) (a : Nat) (b : Byte) : wf (write m a b) := by
  induction m with
  | nil => simp [write, wf]
  | cons x m ih =>
    obtain ⟨k, c⟩ := x
    have hx := List.pairwise_cons.1 h
    simp only [write]
    split
    · next hlt =>
      refine List.pairwise_cons.2 ⟨fun y hy => ?_, h⟩
      rcases List.mem_cons.1 hy with rfl | hy
      · exact hlt
      · exact Nat.lt_trans hlt (hx.1 y hy)
    · split
      · next heq => subst heq; exact List.pairwise_cons.2 ⟨hx.1, hx.2⟩
      · next hlt hne =>
        refine List.pairwise_cons.2 ⟨fun y hy => ?_, ih hx.2⟩
        rcases mem_write hy with rfl | hy
        · simp only; omega
        · exact hx.1 y hy

/-- A write below the capacity stays within it. -/
theorem within_write {cap : Nat} {m : Memory} (h : within cap m) {a : Nat} (ha : a < cap) (b : Byte) :
    within cap (write m a b) := by
  intro x hx
  rcases mem_write hx with rfl | hx
  · exact ha
  · exact h x hx

/-- A memory made of arbitrary cells is in canonical form and within its capacity. -/
theorem ofCells_ok (cap : Nat) (cells : List Host.Cell) : wf (ofCells cap cells) ∧ within cap (ofCells cap cells) := by
  suffices H : ∀ m : Memory, wf m ∧ within cap m →
      wf (cells.foldl (fun m x => if x.1 < cap then write m x.1 x.2 else m) m) ∧
        within cap (cells.foldl (fun m x => if x.1 < cap then write m x.1 x.2 else m) m) from
    H [] ⟨by simp [wf], by simp [within]⟩
  induction cells with
  | nil => exact fun m h => h
  | cons x cells ih =>
    intro m h
    simp only [List.foldl_cons]
    split
    · next hx => exact ih _ ⟨wf_write h.1 _ _, within_write h.2 hx _⟩
    · exact ih _ h

end Memory

@[simp] theorem byteAt_write_same (n : MemName) (m : Memory) (a : Nat) (b : Byte) :
    byteAt n (Memory.write m a b) a = b := by simp [byteAt]

theorem byteAt_write_other (n : MemName) (m : Memory) {a a' : Nat} (h : a' ≠ a) (b : Byte) :
    byteAt n (Memory.write m a b) a' = byteAt n m a' := by simp [byteAt, Memory.cell?_write_other m h]

/-- Read after write. -/
theorem byteAt_write (n : MemName) (m : Memory) (a a' : Nat) (b : Byte) :
    byteAt n (Memory.write m a b) a' = if a' = a then b else byteAt n m a' := by
  split
  · next h => subst h; simp
  · next h => exact byteAt_write_other n m h b

@[simp] theorem length_bytesAt (n : MemName) (m : Memory) (a k : Nat) : (bytesAt n m a k).length = k := by
  simp [bytesAt]

theorem getElem_bytesAt (n : MemName) (m : Memory) (a k j : Nat) (h : j < (bytesAt n m a k).length) :
    (bytesAt n m a k)[j] = byteAt n m (a + j) := by simp [bytesAt]

/-- Two reads agree when the cells do. -/
theorem bytesAt_congr {n : MemName} {m m' : Memory} {a k : Nat}
    (h : ∀ j, j < k → byteAt n m' (a + j) = byteAt n m (a + j)) : bytesAt n m' a k = bytesAt n m a k := by
  simp only [bytesAt]
  exact List.map_congr_left fun j hj => h j (List.mem_range.1 hj)

theorem bytesAt_zero (n : MemName) (m : Memory) (a : Nat) : bytesAt n m a 0 = [] := rfl

/-- Splits a read in two. -/
theorem bytesAt_add (n : MemName) (m : Memory) (a j k : Nat) :
    bytesAt n m a (j + k) = bytesAt n m a j ++ bytesAt n m (a + j) k := by
  simp [bytesAt, List.range_add, Function.comp_def, Nat.add_assoc]

theorem bytesAt_succ (n : MemName) (m : Memory) (a k : Nat) :
    bytesAt n m a (k + 1) = byteAt n m a :: bytesAt n m (a + 1) k := by
  rw [Nat.add_comm k 1, bytesAt_add]; simp [bytesAt]

@[simp] theorem length_srcBytes (s : State) : (srcBytes s).length = s.srcLen.toNat := by simp [srcBytes]

theorem length_srcBytes_lt (s : State) : (srcBytes s).length < 2 ^ 32 := by
  rw [length_srcBytes]; exact s.srcLen.isLt

/-- The bounds that legal parameters meet (00_scope.md R5). -/
theorem params_bounds {p : Params} (h : paramsWellFormed p = true) :
    p.tieOrder.Nodup ∧ p.tieOrder.length = 256 ∧ p.srcCap < 2 ^ 32 ∧ p.cboCap < 2 ^ 64 ∧ p.cbiCap < 2 ^ 64 ∧
      p.dstCap < 2 ^ 32 := by
  simp only [paramsWellFormed, Bool.and_eq_true, decide_eq_true_eq] at h
  refine ⟨h.1.2, h.2, ?_, ?_, ?_, ?_⟩ <;> omega

end Sys2Proof.Machine
end

