-- ==== Sys2Proof/Laws/State.lean ====
section
/-! SUPPORT. One lemma per field per update of the state, true by `rfl`: no later proof unfolds a record update. -/

namespace Sys2Proof.Machine

variable (s : State)

/-! ## `invalidateStages` -/

@[simp] theorem invalidateStages_wdata : (invalidateStages s).wdata = s.wdata := rfl
@[simp] theorem invalidateStages_rdata : (invalidateStages s).rdata = s.rdata := rfl
@[simp] theorem invalidateStages_err : (invalidateStages s).err = s.err := rfl
@[simp] theorem invalidateStages_errInfo : (invalidateStages s).errInfo = s.errInfo := rfl
@[simp] theorem invalidateStages_srcLen : (invalidateStages s).srcLen = s.srcLen := rfl
@[simp] theorem invalidateStages_src : (invalidateStages s).src = s.src := rfl
@[simp] theorem invalidateStages_out : (invalidateStages s).out = s.out := rfl
@[simp] theorem invalidateStages_inp : (invalidateStages s).inp = s.inp := rfl
@[simp] theorem invalidateStages_dst : (invalidateStages s).dst = s.dst := rfl
@[simp] theorem invalidateStages_dstLen : (invalidateStages s).dstLen = s.dstLen := rfl
@[simp] theorem invalidateStages_freqV : (invalidateStages s).freqV = false := rfl
@[simp] theorem invalidateStages_qV : (invalidateStages s).qV = false := rfl
@[simp] theorem invalidateStages_treeV : (invalidateStages s).treeV = false := rfl
@[simp] theorem invalidateStages_ctV : (invalidateStages s).ctV = false := rfl
@[simp] theorem invalidateStages_dstV : (invalidateStages s).dstV = s.dstV := rfl
@[simp] theorem invalidateStages_flagCleared : (invalidateStages s).flagCleared = true := rfl
@[simp] theorem invalidateStages_freq : (invalidateStages s).freq = s.freq := rfl
@[simp] theorem invalidateStages_q : (invalidateStages s).q = s.q := rfl
@[simp] theorem invalidateStages_qLen : (invalidateStages s).qLen = s.qLen := rfl
@[simp] theorem invalidateStages_nodes : (invalidateStages s).nodes = s.nodes := rfl
@[simp] theorem invalidateStages_nNodes : (invalidateStages s).nNodes = s.nNodes := rfl
@[simp] theorem invalidateStages_root : (invalidateStages s).root = s.root := rfl
@[simp] theorem invalidateStages_rootW : (invalidateStages s).rootW = s.rootW := rfl
@[simp] theorem invalidateStages_ct : (invalidateStages s).ct = s.ct := rfl
@[simp] theorem invalidateStages_ctLen : (invalidateStages s).ctLen = s.ctLen := rfl
@[simp] theorem invalidateStages_dmap : (invalidateStages s).dmap = s.dmap := rfl
@[simp] theorem invalidateStages_dmapLen : (invalidateStages s).dmapLen = s.dmapLen := rfl
@[simp] theorem invalidateStages_total : (invalidateStages s).total = s.total := rfl
@[simp] theorem invalidateStages_unique : (invalidateStages s).unique = s.unique := rfl
@[simp] theorem invalidateStages_emitted : (invalidateStages s).emitted = s.emitted := rfl
@[simp] theorem invalidateStages_params : (invalidateStages s).params = s.params := rfl
@[simp] theorem invalidateStages_pending : (invalidateStages s).pending = s.pending := rfl
@[simp] theorem invalidateStages_hostRead : (invalidateStages s).hostRead = s.hostRead := rfl
@[simp] theorem invalidateStages_fresh : (invalidateStages s).fresh = s.fresh := rfl

/-! ## `resetRegs` -/

@[simp] theorem resetRegs_wdata : (resetRegs s).wdata = 0#32 := rfl
@[simp] theorem resetRegs_rdata : (resetRegs s).rdata = 0#32 := rfl
@[simp] theorem resetRegs_err : (resetRegs s).err = none := rfl
@[simp] theorem resetRegs_errInfo : (resetRegs s).errInfo = 0#32 := rfl
@[simp] theorem resetRegs_srcLen : (resetRegs s).srcLen = 0#32 := rfl
@[simp] theorem resetRegs_src : (resetRegs s).src = s.src := rfl
@[simp] theorem resetRegs_out : (resetRegs s).out = ⟨0#8, 0#4, false, s.out.cbo, 0#64⟩ := rfl
@[simp] theorem resetRegs_inp : (resetRegs s).inp = ⟨0#8, 0#4, 0#64, false, s.inp.cbi, 0#64⟩ := rfl
@[simp] theorem resetRegs_dst : (resetRegs s).dst = s.dst := rfl
@[simp] theorem resetRegs_dstLen : (resetRegs s).dstLen = 0#32 := rfl
@[simp] theorem resetRegs_freqV : (resetRegs s).freqV = false := rfl
@[simp] theorem resetRegs_qV : (resetRegs s).qV = false := rfl
@[simp] theorem resetRegs_treeV : (resetRegs s).treeV = false := rfl
@[simp] theorem resetRegs_ctV : (resetRegs s).ctV = false := rfl
@[simp] theorem resetRegs_dstV : (resetRegs s).dstV = false := rfl
@[simp] theorem resetRegs_flagCleared : (resetRegs s).flagCleared = false := rfl
@[simp] theorem resetRegs_freq : (resetRegs s).freq = s.freq := rfl
@[simp] theorem resetRegs_q : (resetRegs s).q = s.q := rfl
@[simp] theorem resetRegs_qLen : (resetRegs s).qLen = 0#9 := rfl
@[simp] theorem resetRegs_nodes : (resetRegs s).nodes = s.nodes := rfl
@[simp] theorem resetRegs_nNodes : (resetRegs s).nNodes = 0#9 := rfl
@[simp] theorem resetRegs_root : (resetRegs s).root = 0#9 := rfl
@[simp] theorem resetRegs_rootW : (resetRegs s).rootW = 0#32 := rfl
@[simp] theorem resetRegs_ct : (resetRegs s).ct = s.ct := rfl
@[simp] theorem resetRegs_ctLen : (resetRegs s).ctLen = 0#9 := rfl
@[simp] theorem resetRegs_dmap : (resetRegs s).dmap = s.dmap := rfl
@[simp] theorem resetRegs_dmapLen : (resetRegs s).dmapLen = 0#16 := rfl
@[simp] theorem resetRegs_total : (resetRegs s).total = 0#32 := rfl
@[simp] theorem resetRegs_unique : (resetRegs s).unique = 0#16 := rfl
@[simp] theorem resetRegs_emitted : (resetRegs s).emitted = 0#32 := rfl
@[simp] theorem resetRegs_params : (resetRegs s).params = s.params := rfl
@[simp] theorem resetRegs_pending : (resetRegs s).pending = s.pending := rfl
@[simp] theorem resetRegs_hostRead : (resetRegs s).hostRead = s.hostRead := rfl
@[simp] theorem resetRegs_fresh : (resetRegs s).fresh = s.fresh := rfl

/-! ## `afterEvent` and `withFetchWord` -/

@[simp] theorem afterEvent_wdata (rest : List Event) : (afterEvent rest s).wdata = s.wdata := rfl
@[simp] theorem afterEvent_rdata (rest : List Event) : (afterEvent rest s).rdata = s.rdata := rfl
@[simp] theorem afterEvent_err (rest : List Event) : (afterEvent rest s).err = s.err := rfl
@[simp] theorem afterEvent_errInfo (rest : List Event) : (afterEvent rest s).errInfo = s.errInfo := rfl
@[simp] theorem afterEvent_srcLen (rest : List Event) : (afterEvent rest s).srcLen = s.srcLen := rfl
@[simp] theorem afterEvent_src (rest : List Event) : (afterEvent rest s).src = s.src := rfl
@[simp] theorem afterEvent_out (rest : List Event) : (afterEvent rest s).out = s.out := rfl
@[simp] theorem afterEvent_inp (rest : List Event) : (afterEvent rest s).inp = s.inp := rfl
@[simp] theorem afterEvent_dst (rest : List Event) : (afterEvent rest s).dst = s.dst := rfl
@[simp] theorem afterEvent_dstLen (rest : List Event) : (afterEvent rest s).dstLen = s.dstLen := rfl
@[simp] theorem afterEvent_freqV (rest : List Event) : (afterEvent rest s).freqV = s.freqV := rfl
@[simp] theorem afterEvent_qV (rest : List Event) : (afterEvent rest s).qV = s.qV := rfl
@[simp] theorem afterEvent_treeV (rest : List Event) : (afterEvent rest s).treeV = s.treeV := rfl
@[simp] theorem afterEvent_ctV (rest : List Event) : (afterEvent rest s).ctV = s.ctV := rfl
@[simp] theorem afterEvent_dstV (rest : List Event) : (afterEvent rest s).dstV = s.dstV := rfl
@[simp] theorem afterEvent_flagCleared (rest : List Event) : (afterEvent rest s).flagCleared = s.flagCleared := rfl
@[simp] theorem afterEvent_freq (rest : List Event) : (afterEvent rest s).freq = s.freq := rfl
@[simp] theorem afterEvent_q (rest : List Event) : (afterEvent rest s).q = s.q := rfl
@[simp] theorem afterEvent_qLen (rest : List Event) : (afterEvent rest s).qLen = s.qLen := rfl
@[simp] theorem afterEvent_nodes (rest : List Event) : (afterEvent rest s).nodes = s.nodes := rfl
@[simp] theorem afterEvent_nNodes (rest : List Event) : (afterEvent rest s).nNodes = s.nNodes := rfl
@[simp] theorem afterEvent_root (rest : List Event) : (afterEvent rest s).root = s.root := rfl
@[simp] theorem afterEvent_rootW (rest : List Event) : (afterEvent rest s).rootW = s.rootW := rfl
@[simp] theorem afterEvent_ct (rest : List Event) : (afterEvent rest s).ct = s.ct := rfl
@[simp] theorem afterEvent_ctLen (rest : List Event) : (afterEvent rest s).ctLen = s.ctLen := rfl
@[simp] theorem afterEvent_dmap (rest : List Event) : (afterEvent rest s).dmap = s.dmap := rfl
@[simp] theorem afterEvent_dmapLen (rest : List Event) : (afterEvent rest s).dmapLen = s.dmapLen := rfl
@[simp] theorem afterEvent_total (rest : List Event) : (afterEvent rest s).total = s.total := rfl
@[simp] theorem afterEvent_unique (rest : List Event) : (afterEvent rest s).unique = s.unique := rfl
@[simp] theorem afterEvent_emitted (rest : List Event) : (afterEvent rest s).emitted = s.emitted := rfl
@[simp] theorem afterEvent_params (rest : List Event) : (afterEvent rest s).params = s.params := rfl
@[simp] theorem afterEvent_pending (rest : List Event) : (afterEvent rest s).pending = rest := rfl
@[simp] theorem afterEvent_hostRead (rest : List Event) : (afterEvent rest s).hostRead = s.hostRead := rfl
@[simp] theorem afterEvent_fresh (rest : List Event) : (afterEvent rest s).fresh = s.fresh + 1 := rfl
@[simp] theorem withFetchWord_wdata (nbits w : Nat) : (s.withFetchWord nbits w).wdata = s.wdata := rfl
@[simp] theorem withFetchWord_rdata (nbits w : Nat) : (s.withFetchWord nbits w).rdata = s.rdata := rfl
@[simp] theorem withFetchWord_err (nbits w : Nat) : (s.withFetchWord nbits w).err = s.err := rfl
@[simp] theorem withFetchWord_errInfo (nbits w : Nat) : (s.withFetchWord nbits w).errInfo = s.errInfo := rfl
@[simp] theorem withFetchWord_srcLen (nbits w : Nat) : (s.withFetchWord nbits w).srcLen = s.srcLen := rfl
@[simp] theorem withFetchWord_src (nbits w : Nat) : (s.withFetchWord nbits w).src = s.src := rfl
@[simp] theorem withFetchWord_out (nbits w : Nat) : (s.withFetchWord nbits w).out = s.out := rfl
@[simp] theorem withFetchWord_inp (nbits w : Nat) : (s.withFetchWord nbits w).inp = s.inp := rfl
@[simp] theorem withFetchWord_dst (nbits w : Nat) : (s.withFetchWord nbits w).dst = s.dst := rfl
@[simp] theorem withFetchWord_dstLen (nbits w : Nat) : (s.withFetchWord nbits w).dstLen = s.dstLen := rfl
@[simp] theorem withFetchWord_freqV (nbits w : Nat) : (s.withFetchWord nbits w).freqV = s.freqV := rfl
@[simp] theorem withFetchWord_qV (nbits w : Nat) : (s.withFetchWord nbits w).qV = s.qV := rfl
@[simp] theorem withFetchWord_treeV (nbits w : Nat) : (s.withFetchWord nbits w).treeV = s.treeV := rfl
@[simp] theorem withFetchWord_ctV (nbits w : Nat) : (s.withFetchWord nbits w).ctV = s.ctV := rfl
@[simp] theorem withFetchWord_dstV (nbits w : Nat) : (s.withFetchWord nbits w).dstV = s.dstV := rfl
@[simp] theorem withFetchWord_flagCleared (nbits w : Nat) : (s.withFetchWord nbits w).flagCleared = s.flagCleared := rfl
@[simp] theorem withFetchWord_freq (nbits w : Nat) : (s.withFetchWord nbits w).freq = s.freq := rfl
@[simp] theorem withFetchWord_q (nbits w : Nat) : (s.withFetchWord nbits w).q = s.q := rfl
@[simp] theorem withFetchWord_qLen (nbits w : Nat) : (s.withFetchWord nbits w).qLen = s.qLen := rfl
@[simp] theorem withFetchWord_nodes (nbits w : Nat) : (s.withFetchWord nbits w).nodes = s.nodes := rfl
@[simp] theorem withFetchWord_nNodes (nbits w : Nat) : (s.withFetchWord nbits w).nNodes = s.nNodes := rfl
@[simp] theorem withFetchWord_root (nbits w : Nat) : (s.withFetchWord nbits w).root = s.root := rfl
@[simp] theorem withFetchWord_rootW (nbits w : Nat) : (s.withFetchWord nbits w).rootW = s.rootW := rfl
@[simp] theorem withFetchWord_ct (nbits w : Nat) : (s.withFetchWord nbits w).ct = s.ct := rfl
@[simp] theorem withFetchWord_ctLen (nbits w : Nat) : (s.withFetchWord nbits w).ctLen = s.ctLen := rfl
@[simp] theorem withFetchWord_dmap (nbits w : Nat) : (s.withFetchWord nbits w).dmap = s.dmap := rfl
@[simp] theorem withFetchWord_dmapLen (nbits w : Nat) : (s.withFetchWord nbits w).dmapLen = s.dmapLen := rfl
@[simp] theorem withFetchWord_total (nbits w : Nat) : (s.withFetchWord nbits w).total = s.total := rfl
@[simp] theorem withFetchWord_unique (nbits w : Nat) : (s.withFetchWord nbits w).unique = s.unique := rfl
@[simp] theorem withFetchWord_emitted (nbits w : Nat) : (s.withFetchWord nbits w).emitted = s.emitted := rfl
@[simp] theorem withFetchWord_params (nbits w : Nat) : (s.withFetchWord nbits w).params = s.params := rfl
@[simp] theorem withFetchWord_pending (nbits w : Nat) : (s.withFetchWord nbits w).pending = cmdWrite (tableWord nbits w) :: s.pending := rfl
@[simp] theorem withFetchWord_hostRead (nbits w : Nat) : (s.withFetchWord nbits w).hostRead = s.hostRead := rfl
@[simp] theorem withFetchWord_fresh (nbits w : Nat) : (s.withFetchWord nbits w).fresh = s.fresh := rfl

/-! ## `takeFault`: the fault latch; the rest is `havoc`'s (`Laws/Fault.lean`) -/

@[simp] theorem takeFault_err (es : List Elem) (r : Raise) : (takeFault es r s).err = some r.code := rfl
@[simp] theorem takeFault_errInfo (es : List Elem) (r : Raise) : (takeFault es r s).errInfo = r.info := rfl
@[simp] theorem takeFault_wdata (es : List Elem) (r : Raise) : (takeFault es r s).wdata = (havoc es s).wdata := rfl
@[simp] theorem takeFault_rdata (es : List Elem) (r : Raise) : (takeFault es r s).rdata = (havoc es s).rdata := rfl
@[simp] theorem takeFault_srcLen (es : List Elem) (r : Raise) : (takeFault es r s).srcLen = (havoc es s).srcLen := rfl
@[simp] theorem takeFault_src (es : List Elem) (r : Raise) : (takeFault es r s).src = (havoc es s).src := rfl
@[simp] theorem takeFault_out (es : List Elem) (r : Raise) : (takeFault es r s).out = (havoc es s).out := rfl
@[simp] theorem takeFault_inp (es : List Elem) (r : Raise) : (takeFault es r s).inp = (havoc es s).inp := rfl
@[simp] theorem takeFault_dst (es : List Elem) (r : Raise) : (takeFault es r s).dst = (havoc es s).dst := rfl
@[simp] theorem takeFault_dstLen (es : List Elem) (r : Raise) : (takeFault es r s).dstLen = (havoc es s).dstLen := rfl
@[simp] theorem takeFault_freqV (es : List Elem) (r : Raise) : (takeFault es r s).freqV = (havoc es s).freqV := rfl
@[simp] theorem takeFault_qV (es : List Elem) (r : Raise) : (takeFault es r s).qV = (havoc es s).qV := rfl
@[simp] theorem takeFault_treeV (es : List Elem) (r : Raise) : (takeFault es r s).treeV = (havoc es s).treeV := rfl
@[simp] theorem takeFault_ctV (es : List Elem) (r : Raise) : (takeFault es r s).ctV = (havoc es s).ctV := rfl
@[simp] theorem takeFault_dstV (es : List Elem) (r : Raise) : (takeFault es r s).dstV = (havoc es s).dstV := rfl
@[simp] theorem takeFault_flagCleared (es : List Elem) (r : Raise) : (takeFault es r s).flagCleared = (havoc es s).flagCleared := rfl
@[simp] theorem takeFault_freq (es : List Elem) (r : Raise) : (takeFault es r s).freq = (havoc es s).freq := rfl
@[simp] theorem takeFault_q (es : List Elem) (r : Raise) : (takeFault es r s).q = (havoc es s).q := rfl
@[simp] theorem takeFault_qLen (es : List Elem) (r : Raise) : (takeFault es r s).qLen = (havoc es s).qLen := rfl
@[simp] theorem takeFault_nodes (es : List Elem) (r : Raise) : (takeFault es r s).nodes = (havoc es s).nodes := rfl
@[simp] theorem takeFault_nNodes (es : List Elem) (r : Raise) : (takeFault es r s).nNodes = (havoc es s).nNodes := rfl
@[simp] theorem takeFault_root (es : List Elem) (r : Raise) : (takeFault es r s).root = (havoc es s).root := rfl
@[simp] theorem takeFault_rootW (es : List Elem) (r : Raise) : (takeFault es r s).rootW = (havoc es s).rootW := rfl
@[simp] theorem takeFault_ct (es : List Elem) (r : Raise) : (takeFault es r s).ct = (havoc es s).ct := rfl
@[simp] theorem takeFault_ctLen (es : List Elem) (r : Raise) : (takeFault es r s).ctLen = (havoc es s).ctLen := rfl
@[simp] theorem takeFault_dmap (es : List Elem) (r : Raise) : (takeFault es r s).dmap = (havoc es s).dmap := rfl
@[simp] theorem takeFault_dmapLen (es : List Elem) (r : Raise) : (takeFault es r s).dmapLen = (havoc es s).dmapLen := rfl
@[simp] theorem takeFault_total (es : List Elem) (r : Raise) : (takeFault es r s).total = (havoc es s).total := rfl
@[simp] theorem takeFault_unique (es : List Elem) (r : Raise) : (takeFault es r s).unique = (havoc es s).unique := rfl
@[simp] theorem takeFault_emitted (es : List Elem) (r : Raise) : (takeFault es r s).emitted = (havoc es s).emitted := rfl
@[simp] theorem takeFault_params (es : List Elem) (r : Raise) : (takeFault es r s).params = (havoc es s).params := rfl
@[simp] theorem takeFault_pending (es : List Elem) (r : Raise) : (takeFault es r s).pending = (havoc es s).pending := rfl
@[simp] theorem takeFault_hostRead (es : List Elem) (r : Raise) : (takeFault es r s).hostRead = (havoc es s).hostRead := rfl
@[simp] theorem takeFault_fresh (es : List Elem) (r : Raise) : (takeFault es r s).fresh = (havoc es s).fresh := rfl

/-! ## The reset state is the power-up state with every register reset -/

theorem resetRegs_reset : resetRegs State.reset = State.reset := rfl

end Sys2Proof.Machine
end

