-- ==== Sys2Proof/Laws/Fault.lean ====
section
/-! SUPPORT. What a fault leaves unchanged: everything the faulting command's rule does not list as written
(60_exceptions.md R185). -/

namespace Sys2Proof.Machine

theorem Agree.refl (e : Elem) (s : State) : Agree e s s := by cases e <;> simp [Agree]

theorem Agree.trans {e : Elem} {s t u : State} (h : Agree e s t) (h' : Agree e t u) : Agree e s u := by
  cases e <;> simp only [Agree] at * <;> first | exact h'.trans h | exact fun a => (h' a).trans (h a)

/-- Giving one element an unspecified value leaves every other element alone. -/
theorem havocElem_agree {e e' : Elem} (h : e ≠ e') (s : State) : Agree e s (havocElem s e') := by
  cases e' <;> cases e <;>
    first
    | rfl
    | exact fun _ => rfl
    | exact absurd rfl h
    | exact byteAt_write_other _ _ (fun hh => h (by rw [hh])) _

theorem havocElem_other (s : State) (e : Elem) :
    (havocElem s e).err = s.err ∧ (havocElem s e).errInfo = s.errInfo ∧ SameModelFields s (havocElem s e) := by
  cases e <;> exact ⟨rfl, rfl, rfl, rfl, rfl, rfl⟩

/-- Unlisted elements survive. -/
theorem havoc_agree {e : Elem} {es : List Elem} (h : e ∉ es) (s : State) : Agree e s (havoc es s) := by
  induction es generalizing s with
  | nil => exact Agree.refl e s
  | cons e' es ih =>
    rw [List.mem_cons, not_or] at h
    exact (havocElem_agree h.1 s).trans (ih h.2 _)

theorem havoc_other (es : List Elem) (s : State) :
    (havoc es s).err = s.err ∧ (havoc es s).errInfo = s.errInfo ∧ SameModelFields s (havoc es s) := by
  induction es generalizing s with
  | nil => exact ⟨rfl, rfl, rfl, rfl, rfl, rfl⟩
  | cons e es ih =>
    obtain ⟨h1, h2, h3, h4, h5, h6⟩ := havocElem_other s e
    obtain ⟨k1, k2, k3, k4, k5, k6⟩ := ih (havocElem s e)
    exact ⟨k1.trans h1, k2.trans h2, k3.trans h3, k4.trans h4, k5.trans h5, k6.trans h6⟩

@[simp] theorem havoc_nil (s : State) : havoc [] s = s := rfl
@[simp] theorem havoc_err (es : List Elem) (s : State) : (havoc es s).err = s.err := (havoc_other es s).1
@[simp] theorem havoc_errInfo (es : List Elem) (s : State) : (havoc es s).errInfo = s.errInfo := (havoc_other es s).2.1
@[simp] theorem havoc_params (es : List Elem) (s : State) : (havoc es s).params = s.params := (havoc_other es s).2.2.1
@[simp] theorem havoc_pending (es : List Elem) (s : State) : (havoc es s).pending = s.pending :=
  (havoc_other es s).2.2.2.1
@[simp] theorem havoc_hostRead (es : List Elem) (s : State) : (havoc es s).hostRead = s.hostRead :=
  (havoc_other es s).2.2.2.2.1
@[simp] theorem havoc_fresh (es : List Elem) (s : State) : (havoc es s).fresh = s.fresh := (havoc_other es s).2.2.2.2.2

/-- The elements of the list are the only ones a fault can change. -/
theorem takeFault_agree {e : Elem} {es : List Elem} (h : e ∉ es) (r : Raise) (s : State) :
    Agree e s (takeFault es r s) := by
  have := havoc_agree h s
  cases e <;> exact this

theorem takeFault_sameModelFields (es : List Elem) (r : Raise) (s : State) : SameModelFields s (takeFault es r s) :=
  (havoc_other es s).2.2

/-! ## The end of a command -/

@[simp] theorem finish_ok (i : Instr) (s t : State) : finish i s (.ok t) = .next t := rfl
@[simp] theorem finish_error (i : Instr) (s : State) (r : Raise) :
    finish i s (.error r) = .next (takeFault (writesOf i) r s) := rfl

/-- Everything a command can do: complete its pseudocode, or latch its first fault. -/
theorem finish_next {i : Instr} {s t : State} {x : Except Raise State} (h : finish i s x = .next t) :
    x = .ok t ∨ ∃ r, x = .error r ∧ t = takeFault (writesOf i) r s := by
  cases x with
  | ok u => simp only [finish_ok, Host.Outcome.next.injEq] at h; exact .inl (by rw [h])
  | error r => simp only [finish_error, Host.Outcome.next.injEq] at h; exact .inr ⟨r, rfl, h.symm⟩

/-- No command stops the model. -/
theorem finish_isNext (i : Instr) (s : State) (x : Except Raise State) : ∃ t, finish i s x = .next t := by
  cases x <;> simp

/-! ## `Except` in the pseudocode -/

/-- A step of pseudocode followed by another completes exactly when both do. -/
theorem bind_eq_ok {α β : Type} {x : Except Raise α} {f : α → Except Raise β} {b : β} :
    (x >>= f) = .ok b ↔ ∃ a, x = .ok a ∧ f a = .ok b := by
  cases x <;> simp [bind, Except.bind]

/-- It stops when the first stops, or the second does after it. -/
theorem bind_eq_error {α β : Type} {x : Except Raise α} {f : α → Except Raise β} {r : Raise} :
    (x >>= f) = .error r ↔ x = .error r ∨ ∃ a, x = .ok a ∧ f a = .error r := by
  cases x <;> simp [bind, Except.bind]

@[simp] theorem ok_bind {α β : Type} (a : α) (f : α → Except Raise β) : (Except.ok a >>= f) = f a := rfl
@[simp] theorem error_bind {α β : Type} (r : Raise) (f : α → Except Raise β) :
    ((Except.error r : Except Raise α) >>= f) = .error r := rfl

end Sys2Proof.Machine
end

