-- ==== Sys2Proof/Laws/Channel.lean ====
section
/-! SUPPORT. What each shared step of the bit channel can do: when it completes, what it leaves, and when it raises. -/

namespace Sys2Proof.Machine

/-! ## The writer -/

theorem emit_eq_ok {cap : Nat} {op : Word} {b : Byte} {c c' : OutChannel} :
    emit cap op b c = .ok c' ↔
      c.len.toNat < cap ∧ c' = { c with cbo := Memory.write c.cbo c.len.toNat b, len := c.len + 1#64 } := by
  unfold emit
  split
  · simp; omega
  · simp only [Except.ok.injEq]
    constructor
    · exact fun h => ⟨by omega, h.symm⟩
    · exact fun h => h.2.symm

theorem emit_eq_error {cap : Nat} {op : Word} {b : Byte} {c : OutChannel} {r : Raise} :
    emit cap op b c = .error r ↔ cap ≤ c.len.toNat ∧ r = ⟨.capacity, op⟩ := by
  unfold emit
  split
  · next h => simp [h, eq_comm]
  · next h => simp [h]

theorem Appended.nil (c : OutChannel) : Appended [] c c :=
  ⟨by simp, fun a => by rw [if_neg (by simp)]⟩

/-- One `emit` appends one byte. -/
theorem Appended.emit {cap : Nat} (hcap : cap < 2 ^ 64) {op : Word} {b : Byte} {c c' : OutChannel}
    (h : emit cap op b c = .ok c') : Appended [b] c c' := by
  obtain ⟨hlt, rfl⟩ := emit_eq_ok.1 h
  have hlen : (c.len + 1#64).toNat = c.len.toNat + 1 := by
    rw [BitVec.toNat_add]; simp; omega
  refine ⟨by simp [hlen], fun a => ?_⟩
  simp only [byteAt_write, List.length_singleton]
  split
  · next h => subst h; simp
  · next h => rw [if_neg (by omega)]

theorem Appended.append {bs bs' : List Byte} {c c' c'' : OutChannel} (h : Appended bs c c') (h' : Appended bs' c' c'') :
    Appended (bs ++ bs') c c'' := by
  obtain ⟨hl, hb⟩ := h
  obtain ⟨hl', hb'⟩ := h'
  refine ⟨by simp [hl', hl]; omega, fun a => ?_⟩
  rw [hb', hl]
  simp only [List.length_append]
  split
  · next h1 =>
    rw [if_pos (by omega), List.getD_append_right _ _ _ _ (by omega)]
    congr 1; omega
  · next h1 =>
    rw [hb]
    split
    · next h2 => rw [if_pos (by omega), List.getD_append _ _ _ _ (by omega)]
    · next h2 => rw [if_neg (by omega)]

/-- Appending looks only at the stream, not at the accumulator. -/
theorem Appended.congr {bs : List Byte} {c c' d d' : OutChannel} (h : Appended bs c c') (h1 : d.cbo = c.cbo)
    (h2 : d.len = c.len) (h3 : d'.cbo = c'.cbo) (h4 : d'.len = c'.len) : Appended bs d d' := by
  simpa only [Appended, h1, h2, h3, h4] using h

/-- The stream afterwards is the stream before with the bytes appended. -/
theorem Appended.outStream {bs : List Byte} {c c' : OutChannel} (h : Appended bs c c') :
    outStream c' = outStream c ++ bs := by
  obtain ⟨hl, hb⟩ := h
  unfold Machine.outStream
  rw [hl, bytesAt_add]
  congr 1
  · refine bytesAt_congr fun j hj => ?_
    rw [hb, if_neg (by omega)]
  · refine List.ext_getElem (by simp) fun j h1 h2 => ?_
    rw [getElem_bytesAt, hb, if_pos (by simp at h1; omega), List.getD_eq_getElem _ _ (by simp at h1; omega)]
    congr 1; omega

/-- `emitAll` completes exactly when there is room, and appends its bytes. -/
theorem emitAll_eq_ok {cap : Nat} (hcap : cap < 2 ^ 64) {op : Word} {bs : List Byte} {c c' : OutChannel}
    (h : emitAll cap op bs c = .ok c') :
    Appended bs c c' ∧ c' = { c with cbo := c'.cbo, len := c'.len } ∧ (bs = [] ∨ c'.len.toNat ≤ cap) := by
  induction bs generalizing c with
  | nil =>
    simp only [emitAll, Except.ok.injEq] at h
    subst h; exact ⟨.nil c, rfl, .inl rfl⟩
  | cons b bs ih =>
    simp only [emitAll, bind_eq_ok] at h
    obtain ⟨d, hd, h⟩ := h
    obtain ⟨i1, i2, i3⟩ := ih h
    have ha := Appended.emit hcap hd
    obtain ⟨hlt, hd'⟩ := emit_eq_ok.1 hd
    refine ⟨by simpa using ha.append i1, by rw [i2, hd'], .inr ?_⟩
    rcases i3 with rfl | i3
    · have := i1.1; have := ha.1; simp at *; omega
    · exact i3

theorem emitAll_eq_error {cap : Nat} (hcap : cap < 2 ^ 64) {op : Word} {bs : List Byte} {c : OutChannel} {r : Raise} :
    emitAll cap op bs c = .error r ↔ (bs ≠ [] ∧ cap < c.len.toNat + bs.length) ∧ r = ⟨.capacity, op⟩ := by
  induction bs generalizing c with
  | nil => simp [emitAll]
  | cons b bs ih =>
    simp only [emitAll, bind_eq_error, emit_eq_error, ih, ne_eq, reduceCtorEq, not_false_eq_true, true_and,
      List.length_cons]
    constructor
    · rintro (⟨h, rfl⟩ | ⟨d, hd, ⟨hne, h⟩, rfl⟩)
      · exact ⟨by omega, rfl⟩
      · have := (Appended.emit hcap hd).1
        simp at this
        exact ⟨by omega, rfl⟩
    · rintro ⟨h, rfl⟩
      by_cases hc : cap ≤ c.len.toNat
      · exact .inl ⟨hc, rfl⟩
      · refine .inr ⟨_, emit_eq_ok.2 ⟨by omega, rfl⟩, ⟨?_, ?_⟩, rfl⟩
        · rintro rfl; simp at h; omega
        · have : (c.len + 1#64).toNat = c.len.toNat + 1 := by rw [BitVec.toNat_add]; simp; omega
          simp only [this]; omega

/-- What `flush` leaves: the accumulator is empty and its byte, if there was one, is in the stream. -/
theorem flush_eq_ok {cap : Nat} (hcap : cap < 2 ^ 64) {op : Word} {c c' : OutChannel} (h : flush cap op c = .ok c') :
    Appended (padBytes c) c c' ∧ c'.cnt = 0#4 ∧ c'.acc = (if c.cnt = 0#4 then c.acc else 0#8) ∧ c'.opened = c.opened ∧
      (c.cnt = 0#4 ∧ c' = c ∨ c'.len.toNat ≤ cap) := by
  unfold flush at h
  split at h
  · next hc =>
    simp only [Except.ok.injEq] at h
    subst h
    exact ⟨by simpa [padBytes, hc] using Appended.nil c, hc, by simp [hc], rfl, .inl ⟨hc, rfl⟩⟩
  · next hc =>
    simp only [emitAcc, bind_eq_ok, Except.ok.injEq] at h
    obtain ⟨d, hd, rfl⟩ := h
    have ha := Appended.emit hcap hd
    obtain ⟨hlt, hd'⟩ := emit_eq_ok.1 hd
    refine ⟨?_, rfl, by simp [hc], by rw [hd'], .inr ?_⟩
    · rw [padBytes, if_neg hc]; exact ha.congr rfl rfl rfl rfl
    · have := ha.1; simp at this; simp; omega

theorem flush_eq_error {cap : Nat} {op : Word} {c : OutChannel} {r : Raise} :
    flush cap op c = .error r ↔ (c.cnt ≠ 0#4 ∧ cap ≤ c.len.toNat) ∧ r = ⟨.capacity, op⟩ := by
  unfold flush
  split
  · next h => simp [h]
  · next h => simp [emitAcc, bind_eq_error, emit_eq_error, h]

/-- What `put` leaves: the padded partial byte, then the value's bytes, low byte first. -/
theorem put_eq_ok {cap : Nat} (hcap : cap < 2 ^ 64) {op v : Word} {n : Nat} {c c' : OutChannel}
    (h : put cap op v n c = .ok c') :
    v.toNat < 2 ^ (8 * n) ∧ Appended (padBytes c ++ bytesLe v n) c c' ∧ c'.cnt = 0#4 ∧
      c'.acc = (if c.cnt = 0#4 then c.acc else 0#8) ∧ c'.opened = c.opened ∧ (0 < n → c'.len.toNat ≤ cap) := by
  unfold put at h
  split at h
  · next hf =>
    simp only [fitsBytes, decide_eq_true_eq] at hf
    simp only [bind_eq_ok] at h
    obtain ⟨d, hd, h⟩ := h
    obtain ⟨f1, f2, f3, f4, -⟩ := flush_eq_ok hcap hd
    obtain ⟨e1, e2, e3⟩ := emitAll_eq_ok hcap h
    refine ⟨hf, f1.append e1, by rw [e2]; exact f2, by rw [e2]; exact f3, by rw [e2]; exact f4, fun hn => ?_⟩
    rcases e3 with e3 | e3
    · simp [bytesLe] at e3; omega
    · exact e3
  · exact absurd h (by simp)

@[simp] theorem length_bytesLe (v : Word) (n : Nat) : (bytesLe v n).length = n := by simp [bytesLe]

/-- When `put` raises: a value that does not fit, tested first, or no room for the padded byte and the value. -/
theorem put_eq_error {cap : Nat} (hcap : cap < 2 ^ 64) {op v : Word} {n : Nat} (hn : 0 < n) {c : OutChannel} {r : Raise} :
    put cap op v n c = .error r ↔
      (2 ^ (8 * n) ≤ v.toNat ∧ r = ⟨.range, v⟩) ∨
        (v.toNat < 2 ^ (8 * n) ∧ cap < c.len.toNat + (padBytes c).length + n ∧ r = ⟨.capacity, op⟩) := by
  unfold put
  split
  · next hf =>
    simp only [fitsBytes, decide_eq_true_eq] at hf
    have hnot : ¬ 2 ^ (8 * n) ≤ v.toNat := by omega
    simp only [bind_eq_error, flush_eq_error, emitAll_eq_error hcap, hnot, false_and, false_or, hf, true_and,
      length_bytesLe]
    have hne : bytesLe v n ≠ [] := by rw [Ne, ← List.length_eq_zero_iff, length_bytesLe]; omega
    constructor
    · rintro (⟨⟨h0, h⟩, rfl⟩ | ⟨d, hd, ⟨-, h⟩, rfl⟩)
      · exact ⟨by simp [padBytes, h0]; omega, rfl⟩
      · have := (flush_eq_ok hcap hd).1.1
        exact ⟨by omega, rfl⟩
    · rintro ⟨h, rfl⟩
      cases hfl : flush cap op c with
      | error q =>
        obtain ⟨hq, rfl⟩ := flush_eq_error.1 hfl
        exact .inl ⟨hq, rfl⟩
      | ok d =>
        have := (flush_eq_ok hcap hfl).1.1
        exact .inr ⟨d, rfl, ⟨hne, by omega⟩, rfl⟩
  · next hf =>
    simp only [fitsBytes, decide_eq_true_eq] at hf
    have hnot : ¬ v.toNat < 2 ^ (8 * n) := hf
    simp only [Except.error.injEq, hnot, false_and, or_false]
    constructor
    · exact fun h => ⟨by omega, h.symm⟩
    · exact fun h => h.2.symm

/-- `put` completes when the value fits and there is room. -/
theorem put_completes {cap : Nat} (hcap : cap < 2 ^ 64) {op v : Word} {n : Nat} (hn : 0 < n) {c : OutChannel}
    (hv : v.toNat < 2 ^ (8 * n)) (hroom : c.len.toNat + (padBytes c).length + n ≤ cap) :
    ∃ c', put cap op v n c = .ok c' := by
  cases h : put cap op v n c with
  | ok c' => exact ⟨c', rfl⟩
  | error r =>
    rcases (put_eq_error hcap hn).1 h with ⟨h1, -⟩ | ⟨-, h2, -⟩ <;> omega

/-- What `WBIT`'s body leaves, and when it emits. -/
theorem putBit_eq_ok {cap : Nat} {op : Word} {b f : Bool} {c c' : OutChannel} (h : putBit cap op b f c = .ok c') :
    (((appendBit b c).cnt ≠ 8#4 ∧ f = false) ∧ c' = appendBit b c) ∨
      (((appendBit b c).cnt = 8#4 ∨ f = true) ∧ c.len.toNat < cap ∧
        c' = { c with acc := 0#8, cnt := 0#4, cbo := Memory.write c.cbo c.len.toNat (appendBit b c).acc, len := c.len + 1#64 }) := by
  unfold putBit at h
  split at h
  · next hc =>
    simp only [emitAcc, bind_eq_ok, Except.ok.injEq] at h
    obtain ⟨d, hd, rfl⟩ := h
    obtain ⟨hlt, hd'⟩ := emit_eq_ok.1 hd
    exact .inr ⟨hc, hlt, by rw [hd']; rfl⟩
  · next hc =>
    simp only [Except.ok.injEq] at h
    rw [not_or, Bool.not_eq_true] at hc
    exact .inl ⟨hc, h.symm⟩

theorem putBit_eq_error {cap : Nat} {op : Word} {b f : Bool} {c : OutChannel} {r : Raise} :
    putBit cap op b f c = .error r ↔
      ((appendBit b c).cnt = 8#4 ∨ f = true) ∧ cap ≤ c.len.toNat ∧ r = ⟨.capacity, op⟩ := by
  unfold putBit
  split
  · next hc =>
    simp only [emitAcc, bind_eq_error, emit_eq_error, reduceCtorEq, and_false, exists_false, or_false]
    exact ⟨fun h => ⟨hc, h⟩, fun h => h.2⟩
  · next hc => simp only [reduceCtorEq, false_iff, not_and]; exact fun h => absurd h hc

/-! ## The reader -/

/-- What `fetch` leaves. -/
theorem fetch_eq_ok {n : Nat} {c c' : InChannel} {v : Word} :
    fetch n c = .ok (v, c') ↔
      n ≤ available c ∧ v = BitVec.ofNat 32 (leValue (bytesAt .cbi c.cbi c.pos.toNat n)) ∧
        c' = { c with pos := c.pos + BitVec.ofNat 64 n } := by
  unfold fetch
  split
  · simp; omega
  · simp only [Except.ok.injEq, Prod.mk.injEq]
    exact ⟨fun h => ⟨by omega, h.1.symm, h.2.symm⟩, fun h => ⟨h.2.1.symm, h.2.2.symm⟩⟩

theorem fetch_eq_error {n : Nat} {c : InChannel} {r : Raise} :
    fetch n c = .error r ↔ available c < n ∧ r = ⟨.truncated, c.pos.setWidth 32⟩ := by
  unfold fetch
  split
  · next h => simp [h, eq_comm]
  · next h => simp [h]

@[simp] theorem available_discard (c : InChannel) : available (discard c) = available c := rfl

theorem get_eq_ok {n : Nat} {c c' : InChannel} {v : Word} :
    get n c = .ok (v, c') ↔
      n ≤ available c ∧ v = BitVec.ofNat 32 (leValue (bytesAt .cbi c.cbi c.pos.toNat n)) ∧
        c' = { c with buf := 0#8, cnt := 0#4, pos := c.pos + BitVec.ofNat 64 n } := by
  rw [get, fetch_eq_ok]; rfl

theorem get_eq_error {n : Nat} {c : InChannel} {r : Raise} :
    get n c = .error r ↔ available c < n ∧ r = ⟨.truncated, c.pos.setWidth 32⟩ := by
  rw [get, fetch_eq_error]; rfl

/-- `RBIT`'s body needs a new byte exactly when no bit is unread. -/
theorem getBit_eq_error {c : InChannel} {r : Raise} :
    getBit c = .error r ↔ (c.cnt = 0#4 ∧ available c = 0) ∧ r = ⟨.truncated, c.pos.setWidth 32⟩ := by
  unfold getBit refill
  split
  · next h =>
    simp only [bind_eq_error, get_eq_error, reduceCtorEq, and_false, exists_false, or_false, h, true_and]
    simp only [Nat.lt_one_iff]
  · next h => simp [h]

/-- The reader commands and the decoder change neither the stream nor the open flag. -/
def SameStream (c c' : InChannel) : Prop := c'.cbi = c.cbi ∧ c'.len = c.len ∧ c'.opened = c.opened

theorem SameStream.refl (c : InChannel) : SameStream c c := ⟨rfl, rfl, rfl⟩

theorem SameStream.trans {c c' c'' : InChannel} (h : SameStream c c') (h' : SameStream c' c'') : SameStream c c'' :=
  ⟨h'.1.trans h.1, h'.2.1.trans h.2.1, h'.2.2.trans h.2.2⟩

theorem get_sameStream {n : Nat} {c c' : InChannel} {v : Word} (h : get n c = .ok (v, c')) : SameStream c c' := by
  obtain ⟨-, -, rfl⟩ := get_eq_ok.1 h; exact ⟨rfl, rfl, rfl⟩

/-- What `RBIT`'s body leaves, with a bit unread and without. -/
theorem getBit_eq_ok {c c' : InChannel} {b : Bool} (h : getBit c = .ok (b, c')) :
    (c.cnt ≠ 0#4 ∧ b = c.buf.getLsbD 7 ∧ c' = { c with buf := c.buf <<< 1, cnt := c.cnt - 1#4 }) ∨
      (c.cnt = 0#4 ∧ 1 ≤ available c ∧ b = (byteAt .cbi c.cbi c.pos.toNat).getLsbD 7 ∧
        c' = { c with buf := byteAt .cbi c.cbi c.pos.toNat <<< 1, cnt := 7#4, pos := c.pos + 1#64 }) := by
  unfold getBit refill at h
  split at h
  · next h0 =>
    simp only [bind_eq_ok, Except.ok.injEq, Prod.exists] at h
    obtain ⟨d, ⟨v, e, hget, rfl⟩, h⟩ := h
    obtain ⟨ha, rfl, rfl⟩ := get_eq_ok.1 hget
    simp only [takeBit, Prod.mk.injEq] at h
    obtain ⟨hb, hc⟩ := h
    have hv : (BitVec.ofNat 32 (leValue (bytesAt .cbi c.cbi c.pos.toNat 1))).setWidth 8 = byteAt .cbi c.cbi c.pos.toNat := by
      simp only [bytesAt, List.range_one, List.map_cons, List.map_nil, leValue]
      apply BitVec.eq_of_toNat_eq
      simp
    rw [hv] at hb hc
    exact .inr ⟨h0, ha, hb.symm, hc.symm⟩
  · next h0 =>
    simp only [ok_bind, takeBit, Except.ok.injEq, Prod.mk.injEq] at h
    exact .inl ⟨h0, h.1.symm, h.2.symm⟩

theorem getBit_sameStream {c c' : InChannel} {b : Bool} (h : getBit c = .ok (b, c')) : SameStream c c' := by
  rcases getBit_eq_ok h with ⟨-, -, rfl⟩ | ⟨-, -, -, rfl⟩ <;> exact ⟨rfl, rfl, rfl⟩

theorem getBits_sameStream {n : Nat} {c c' : InChannel} {p : Bits} (h : getBits n c = .ok (p, c')) : SameStream c c' := by
  induction n generalizing c p with
  | zero => simp only [getBits, Except.ok.injEq, Prod.mk.injEq] at h; rw [← h.2]; exact .refl _
  | succ n ih =>
    simp only [getBits, bind_eq_ok, Prod.exists, Except.ok.injEq, Prod.mk.injEq] at h
    obtain ⟨b, d, hd, bs, e, he, -, rfl⟩ := h
    exact (getBit_sameStream hd).trans (ih he)

/-! ## What a channel step never changes -/

theorem emit_opened {cap : Nat} {op : Word} {b : Byte} {c c' : OutChannel} (h : emit cap op b c = .ok c') : c'.opened = c.opened := by
  rw [(emit_eq_ok.1 h).2]

theorem emitAll_opened {cap : Nat} {op : Word} {bs : List Byte} {c c' : OutChannel} (h : emitAll cap op bs c = .ok c') : c'.opened = c.opened := by
  induction bs generalizing c with
  | nil => cases h; rfl
  | cons b bs ih =>
    simp only [emitAll, bind_eq_ok] at h
    obtain ⟨d, hd, h⟩ := h
    rw [ih h, emit_opened hd]

theorem flush_opened {cap : Nat} {op : Word} {c c' : OutChannel} (h : flush cap op c = .ok c') : c'.opened = c.opened := by
  unfold flush at h
  split at h
  · cases h; rfl
  · simp only [emitAcc, bind_eq_ok, Except.ok.injEq] at h
    obtain ⟨d, hd, rfl⟩ := h
    have := emit_opened hd; exact this

theorem put_opened {cap : Nat} {op v : Word} {n : Nat} {c c' : OutChannel} (h : put cap op v n c = .ok c') : c'.opened = c.opened := by
  unfold put at h
  split at h
  · simp only [bind_eq_ok] at h
    obtain ⟨d, hd, h⟩ := h
    rw [emitAll_opened h, flush_opened hd]
  · cases h

theorem putBit_opened {cap : Nat} {op : Word} {b f : Bool} {c c' : OutChannel} (h : putBit cap op b f c = .ok c') : c'.opened = c.opened := by
  rcases putBit_eq_ok h with ⟨-, rfl⟩ | ⟨-, -, rfl⟩ <;> rfl

end Sys2Proof.Machine
end

