-- ==== Sys2Proof/Laws/Frequency.lean ====
section
/-! SUPPORT. The frequency table counts, and the queue is a stable sort of the observed symbols
(42_frequency_sort.md). -/

namespace Sys2Proof.Machine

@[simp] theorem countOf_replicate (s : Byte) : countOf (Vector.replicate 256 0#32) s = 0#32 := by
  simp [countOf]

theorem countOf_bumpCount (t : Vector Word 256) (b s : Byte) :
    countOf (bumpCount t b) s = if b = s then countOf t s + 1#32 else countOf t s := by
  unfold countOf bumpCount
  rw [Vector.getElem_set]
  by_cases h : b = s
  · subst h; simp
  · have : b.toNat ≠ s.toNat := fun hh => h (BitVec.eq_of_toNat_eq hh)
    simp [h, this]

theorem countOf_foldl (bs : List Byte) (t : Vector Word 256) (s : Byte) :
    countOf (bs.foldl bumpCount t) s = countOf t s + BitVec.ofNat 32 (bs.count s) := by
  induction bs generalizing t with
  | nil => simp
  | cons b bs ih =>
    rw [List.foldl_cons, ih, countOf_bumpCount, List.count_cons]
    by_cases h : b = s
    · subst h
      simp only [if_true, beq_self_eq_true]
      rw [BitVec.add_assoc, BitVec.ofNat_add, BitVec.add_comm (1#32)]
    · simp [h]

/-- `FREQ[s]` is the number of positions that hold `s` (10_state.md R22). -/
theorem countOf_freqTable (bs : List Byte) (s : Byte) : countOf (freqTable bs) s = BitVec.ofNat 32 (bs.count s) := by
  rw [freqTable, countOf_foldl, countOf_replicate, BitVec.zero_add]

/-- No count wraps (42_frequency_sort.md R102). -/
theorem toNat_countOf_freqTable {bs : List Byte} (h : bs.length < 2 ^ 32) (s : Byte) :
    (countOf (freqTable bs) s).toNat = bs.count s := by
  rw [countOf_freqTable, BitVec.toNat_ofNat]
  exact Nat.mod_eq_of_lt (Nat.lt_of_le_of_lt List.count_le_length h)

/-- A symbol is observed exactly when it occurs (10_state.md R22). -/
theorem countOf_freqTable_ne_zero {bs : List Byte} (h : bs.length < 2 ^ 32) (s : Byte) :
    countOf (freqTable bs) s ≠ 0#32 ↔ s ∈ bs := by
  rw [← BitVec.toNat_ne_iff_ne, toNat_countOf_freqTable h, ← List.count_pos_iff]
  simp [Nat.pos_iff_ne_zero]

/-- The table as a list, entry by entry. -/
theorem toList_counts (t : Vector Word 256) :
    t.toList.map BitVec.toNat = ((List.range 256).map (BitVec.ofNat 8)).map fun s : Byte => (countOf t s).toNat := by
  refine List.ext_getElem (by simp) fun i h1 h2 => ?_
  have h1 : i < 256 := by simpa using h1
  simp [countOf, Nat.mod_eq_of_lt h1]

/-! ## The queue -/

theorem mem_observed {order : List Byte} {t : Vector Word 256} {e : QEntry} :
    e ∈ observed order t ↔ e.sym ∈ order ∧ countOf t e.sym ≠ 0#32 ∧ e.count = countOf t e.sym := by
  simp only [observed, List.mem_map, List.mem_filter, bne_iff_ne, ne_eq]
  constructor
  · rintro ⟨s, ⟨h1, h2⟩, rfl⟩; exact ⟨h1, h2, rfl⟩
  · rintro ⟨h1, h2, h3⟩; exact ⟨e.sym, ⟨h1, h2⟩, by rw [← h3]⟩

theorem map_sym_observed (order : List Byte) (t : Vector Word 256) :
    (observed order t).map QEntry.sym = order.filter fun s => countOf t s != 0#32 := by
  simp [observed, Function.comp_def]

/-- The queue is a rearrangement of the observed symbols with their counts. -/
theorem sortQueue_perm (order : List Byte) (t : Vector Word 256) : (sortQueue order t).Perm (observed order t) :=
  List.perm_insertionSort _ _

theorem mem_sortQueue {order : List Byte} {t : Vector Word 256} {e : QEntry} :
    e ∈ sortQueue order t ↔ e.sym ∈ order ∧ countOf t e.sym ≠ 0#32 ∧ e.count = countOf t e.sym := by
  rw [(sortQueue_perm order t).mem_iff, mem_observed]

/-- Counts are non-decreasing along the queue (42_frequency_sort.md R105). -/
theorem sortQueue_sorted (order : List Byte) (t : Vector Word 256) : (sortQueue order t).Pairwise countLe := by
  have : Std.Total countLe := ⟨fun a b => by
    show a.count ≤ b.count ∨ b.count ≤ a.count
    rw [BitVec.le_def, BitVec.le_def]; omega⟩
  have : IsTrans QEntry countLe := ⟨fun a b c (h : a.count ≤ b.count) (h' : b.count ≤ c.count) => by
    show a.count ≤ c.count
    rw [BitVec.le_def] at *; omega⟩
  exact List.pairwise_insertionSort countLe _

/-- Symbols are pairwise distinct (42_frequency_sort.md R105). -/
theorem sortQueue_nodup {order : List Byte} (h : order.Nodup) (t : Vector Word 256) :
    ((sortQueue order t).map QEntry.sym).Nodup := by
  rw [((sortQueue_perm order t).map QEntry.sym).nodup_iff, map_sym_observed]
  exact h.filter _

theorem length_sortQueue_le (order : List Byte) (t : Vector Word 256) : (sortQueue order t).length ≤ order.length := by
  rw [(sortQueue_perm order t).length_eq, ← List.length_map (f := QEntry.sym), map_sym_observed]
  exact List.length_filter_le _ _

/-- A ranking of all symbols contains each of them. -/
theorem mem_of_ranking {order : List Byte} (h : order.Nodup) (hl : order.length = 256) (s : Byte) : s ∈ order := by
  have hc : Fintype.card Byte = 256 := by
    rw [Fintype.card_congr BitVec.equivFin.toEquiv]; simp
  have hf : order.toFinset = Finset.univ := by
    rw [← Finset.card_eq_iff_eq_univ, List.toFinset_card_of_nodup h, hl, hc]
  rw [← List.mem_toFinset, hf]
  exact Finset.mem_univ s

theorem sum_indicator (b : Byte) (l : List Byte) : (l.map fun s => if b = s then 1 else 0).sum = l.count b := by
  induction l with
  | nil => rfl
  | cons a l ih =>
    rw [List.map_cons, List.sum_cons, ih, List.count_cons, Nat.add_comm]
    by_cases h : b = a
    · simp [h]
    · simp [h, Ne.symm h]

/-- The occurrences of all symbols add up to the length (42_frequency_sort.md R102). -/
theorem sum_counts {order : List Byte} (h : order.Nodup) (hl : order.length = 256) (bs : List Byte) :
    (order.map fun s => bs.count s).sum = bs.length := by
  induction bs with
  | nil => simp
  | cons b bs ih =>
    simp only [List.count_cons, List.sum_map_add, ih, List.length_cons, beq_iff_eq, sum_indicator,
      List.count_eq_one_of_mem h (mem_of_ranking h hl b)]

/-! ## Stability -/

/-- Ascending by count and, among equal counts, by the ranking (42_frequency_sort.md R103, R104). -/
def rankedBefore (order : List Byte) (x y : QEntry) : Prop :=
  x.count < y.count ∨ x.count = y.count ∧ order.idxOf x.sym < order.idxOf y.sym

theorem countLe_of_rankedBefore {order : List Byte} {x y : QEntry} (h : rankedBefore order x y) : countLe x y := by
  rcases h with h | ⟨h, -⟩
  · exact BitVec.le_of_lt h
  · rw [countLe, h]; exact BitVec.le_refl _

theorem rankedBefore_of_countLe {order : List Byte} {x y : QEntry} (h : countLe x y)
    (hi : order.idxOf x.sym < order.idxOf y.sym) : rankedBefore order x y := by
  by_cases he : x.count = y.count
  · exact .inr ⟨he, hi⟩
  · left
    have h1 := BitVec.le_def.1 h
    have h2 : x.count.toNat ≠ y.count.toNat := fun hh => he (BitVec.eq_of_toNat_eq hh)
    rw [BitVec.lt_def]; omega

theorem orderedInsert_ranked {order : List Byte} {a : QEntry} {l : List QEntry} (h : l.Pairwise (rankedBefore order))
    (ha : ∀ b ∈ l, order.idxOf a.sym < order.idxOf b.sym) :
    (l.orderedInsert countLe a).Pairwise (rankedBefore order) := by
  induction l with
  | nil => simp
  | cons b l ih =>
    rw [List.pairwise_cons] at h
    simp only [List.orderedInsert]
    split
    · next hab =>
      refine List.pairwise_cons.2 ⟨fun x hx => ?_, List.pairwise_cons.2 h⟩
      refine rankedBefore_of_countLe ?_ (ha x hx)
      rcases List.mem_cons.1 hx with rfl | hx
      · exact hab
      · exact BitVec.le_trans hab (countLe_of_rankedBefore (h.1 x hx))
    · next hab =>
      refine List.pairwise_cons.2 ⟨fun x hx => ?_, ih h.2 fun x hx => ha x (List.mem_cons_of_mem b hx)⟩
      rw [List.mem_orderedInsert] at hx
      rcases hx with rfl | hx
      · exact .inl (BitVec.not_le.1 hab)
      · exact h.1 x hx

/-- The positions in a ranking ascend along it. -/
theorem pairwise_idxOf {order : List Byte} (h : order.Nodup) :
    order.Pairwise fun x y => order.idxOf x < order.idxOf y := by
  rw [List.pairwise_iff_getElem]
  intro i j hi hj hij
  rw [h.idxOf_getElem, h.idxOf_getElem]
  exact hij

/-- The queue is sorted by count and then by the ranking (42_frequency_sort.md R103, R104). -/
theorem sortQueue_ranked {order : List Byte} (h : order.Nodup) (t : Vector Word 256) :
    (sortQueue order t).Pairwise (rankedBefore order) := by
  have ho : (observed order t).Pairwise fun x y => order.idxOf x.sym < order.idxOf y.sym := by
    rw [observed, List.pairwise_map]
    exact (pairwise_idxOf h).filter _
  unfold sortQueue
  generalize observed order t = l at ho
  induction l with
  | nil => simp
  | cons a l ih =>
    rw [List.pairwise_cons] at ho
    exact orderedInsert_ranked (ih ho.2) fun b hb => ho.1 b ((List.mem_insertionSort _).1 hb)

/-- The default ranking lists no symbol twice. -/
theorem ascending_nodup : ((List.range 256).map (BitVec.ofNat 8)).Nodup := by
  refine List.nodup_range.map_on fun x hx y hy h => ?_
  rw [List.mem_range] at hx hy
  have := congrArg BitVec.toNat h
  simp only [BitVec.toNat_ofNat] at this
  omega

/-- The default parameters are legal (00_scope.md R5). -/
theorem defaultParams_wellFormed : paramsWellFormed Config.defaultParams = true := by
  simp only [paramsWellFormed, Bool.and_eq_true, decide_eq_true_eq]
  exact ⟨⟨⟨⟨⟨by decide, by decide⟩, by decide⟩, by decide⟩, ascending_nodup⟩, by simp [Config.defaultParams]⟩

/-- In the default ranking a byte's position is its value. -/
theorem idxOf_ascending (s : Byte) : ((List.range 256).map (BitVec.ofNat 8)).idxOf s = s.toNat := by
  have hn := ascending_nodup
  have hl : s.toNat < ((List.range 256).map (BitVec.ofNat 8)).length := by have := s.isLt; simpa using this
  have := hn.idxOf_getElem s.toNat hl
  rwa [List.getElem_map, List.getElem_range, BitVec.ofNat_toNat, BitVec.setWidth_eq] at this

/-- The queue's counts add up to the length of the text (42_frequency_sort.md R102, R105). -/
theorem sum_sortQueue {order : List Byte} (h : order.Nodup) (hl : order.length = 256) {bs : List Byte}
    (hb : bs.length < 2 ^ 32) : ((sortQueue order (freqTable bs)).map fun e => e.count.toNat).sum = bs.length := by
  rw [((sortQueue_perm _ _).map _).sum_eq, ← sum_counts h hl bs, observed, List.map_map]
  have e : ((fun e : QEntry => e.count.toNat) ∘ fun s => (⟨s, countOf (freqTable bs) s⟩ : QEntry)) = fun s => bs.count s :=
    funext fun s => toNat_countOf_freqTable hb s
  rw [e]
  clear h hl e
  induction order with
  | nil => rfl
  | cons a l ih =>
    rw [List.filter_cons, List.map_cons, List.sum_cons, ← ih]
    split
    · rw [List.map_cons, List.sum_cons]
    · next h0 =>
      have h0 : countOf (freqTable bs) a = 0#32 := by simpa using h0
      have := toNat_countOf_freqTable hb a
      rw [h0] at this
      simp at this; omega

/-- The queue has one entry per distinct byte of the text (42_frequency_sort.md R105). -/
theorem length_sortQueue {order : List Byte} (h : order.Nodup) (hl : order.length = 256) {bs : List Byte}
    (hb : bs.length < 2 ^ 32) : (sortQueue order (freqTable bs)).length = bs.dedup.length := by
  have hp : ((sortQueue order (freqTable bs)).map QEntry.sym).Perm bs.dedup := by
    rw [List.perm_ext_iff_of_nodup (sortQueue_nodup h _) (List.nodup_dedup _)]
    intro s
    rw [List.mem_dedup, ← countOf_freqTable_ne_zero hb, List.mem_map]
    constructor
    · rintro ⟨e, he, rfl⟩; exact (mem_sortQueue.1 he).2.1
    · intro hs; exact ⟨⟨s, countOf (freqTable bs) s⟩, mem_sortQueue.2 ⟨mem_of_ranking h hl s, hs, rfl⟩, rfl⟩
  rw [← hp.length_eq, List.length_map]

end Sys2Proof.Machine
end

