-- ==== Sys2Proof/Laws/Tree.lean ====
section
/-! SUPPORT. What the tree builder builds: the arena represents the abstract tree, the tree's leaves are the queue's
entries, its weights are sums (43_tree_builder.md R120, R124). -/

namespace Sys2Proof.Machine

/-- Every internal weight is the sum of its children's (10_state.md R24). -/
def WeightOk : Tree → Prop
  | .leaf _ _ => True
  | .internal w l r => w = l.weight + r.weight ∧ WeightOk l ∧ WeightOk r

/-- The arena holds the tree at the index, each child at a smaller index than its parent (10_state.md R25). -/
def Represents (ns : List Node) : BitVec 9 → Tree → Prop
  | i, .leaf s w => ns[i.toNat]? = some (.leaf s w)
  | i, .internal w l r => ∃ il ir, ns[i.toNat]? = some (.internal w il ir) ∧ il.toNat < i.toNat ∧ ir.toNat < i.toNat ∧
      Represents ns il l ∧ Represents ns ir r

theorem Represents.append {ns : List Node} {i : BitVec 9} {t : Tree} (h : Represents ns i t) (ms : List Node) :
    Represents (ns ++ ms) i t := by
  have get : ∀ {j : Nat} {n : Node}, ns[j]? = some n → (ns ++ ms)[j]? = some n := by
    intro j n hj
    rw [List.getElem?_append_left (List.getElem?_eq_some_iff.1 hj).1]; exact hj
  induction t generalizing i with
  | leaf s w => exact get h
  | internal w l r ihl ihr =>
    obtain ⟨il, ir, h0, h1, h2, h3, h4⟩ := h
    exact ⟨il, ir, get h0, h1, h2, ihl h3, ihr h4⟩

/-- Reading the tree back from the arena. -/
theorem treeAt_of_represents {ns : List Node} (seed : Nat) {fuel : Nat} {i : BitVec 9} {t : Tree}
    (h : Represents ns i t) (hf : i.toNat < fuel) : treeAt seed ns fuel i = t := by
  induction fuel generalizing i t with
  | zero => omega
  | succ fuel ih =>
    cases t with
    | leaf s w => simp only [treeAt, show ns[i.toNat]? = some (.leaf s w) from h]
    | internal w l r =>
      obtain ⟨il, ir, h0, h1, h2, h3, h4⟩ := h
      simp only [treeAt, h0, ih h3 (by omega), ih h4 (by omega)]

theorem leaves_ne_nil (t : Tree) : leaves t ≠ [] := by
  induction t with
  | leaf s w => simp [leaves]
  | internal w l r ihl _ => simp [leaves, ihl]

/-- The weight of a tree is the sum of its leaves' counts. -/
theorem weight_eq_sum {t : Tree} (h : WeightOk t) : t.weight = ((leaves t).map QEntry.count).sum := by
  induction t with
  | leaf s w => simp [leaves, Tree.weight]
  | internal w l r ihl ihr =>
    obtain ⟨h0, h1, h2⟩ := h
    simp only [Tree.weight, leaves, List.map_append, List.sum_append, ← ihl h1, ← ihr h2, h0]

/-! ## The builder's working values -/

/-- A subtree under construction is sound: its tree stands in the arena at its index and its weights are sums. -/
def SubOk (ns : List Node) (x : Sub) : Prop := Represents ns x.idx x.tree ∧ WeightOk x.tree

theorem SubOk.append {ns : List Node} {x : Sub} (h : SubOk ns x) (ms : List Node) : SubOk (ns ++ ms) x :=
  ⟨h.1.append ms, h.2⟩

/-- The subtrees in hand: the main tree, then the pending ones. -/
def subsOf (w : Builder) : List Sub := w.main.toList ++ w.pend

/-- The working values after the queue entries `done`: the leaves in hand are those entries, every node belongs to
one of the subtrees in hand, at most one is pending. -/
structure BuilderOk (seen : List QEntry) (w : Builder) : Prop where
  subs   : ∀ x ∈ subsOf w, SubOk w.nodes x
  leaves : ((subsOf w).flatMap fun x => leaves x.tree).Perm seen
  count  : w.nodes.length + (subsOf w).length = 2 * seen.length
  pend   : w.pend.length ≤ 1

theorem mkleaf_spec {e : QEntry} {ns ns' : List Node} {x : Sub} (h : mkleaf e ns = (x, ns')) (hn : ns.length < 512) :
    (∃ m, ns' = ns ++ [m]) ∧ SubOk ns' x ∧ leaves x.tree = [e] ∧ x.idx.toNat = ns.length := by
  simp only [mkleaf, allocNode, Prod.mk.injEq] at h
  obtain ⟨rfl, rfl⟩ := h
  have hi : (BitVec.ofNat 9 ns.length).toNat = ns.length := by simp; omega
  exact ⟨⟨_, rfl⟩, ⟨by simp only [Represents, hi]; simp, trivial⟩, rfl, hi⟩

theorem combine_spec {a b x : Sub} {ns ns' : List Node} (h : combine a b ns = (x, ns')) (hn : ns.length < 512)
    (ha : SubOk ns a) (hb : SubOk ns b) (hal : a.idx.toNat < ns.length) (hbl : b.idx.toNat < ns.length) :
    (∃ m, ns' = ns ++ [m]) ∧ SubOk ns' x ∧ leaves x.tree = leaves a.tree ++ leaves b.tree ∧
      x.idx.toNat = ns.length := by
  simp only [combine, allocNode, Prod.mk.injEq] at h
  obtain ⟨rfl, rfl⟩ := h
  have hi : (BitVec.ofNat 9 ns.length).toNat = ns.length := by simp; omega
  refine ⟨⟨_, rfl⟩, ⟨⟨a.idx, b.idx, ?_, ?_, ?_, ha.1.append _, hb.1.append _⟩, rfl, ha.2, hb.2⟩, rfl, hi⟩
  · simp [hi]
  · simpa only [hi] using hal
  · simpa only [hi] using hbl

/-- An index that holds a tree is within the arena. -/
theorem Represents.lt {ns : List Node} {i : BitVec 9} {t : Tree} (h : Represents ns i t) : i.toNat < ns.length := by
  cases t with
  | leaf s w => exact (List.getElem?_eq_some_iff.1 h).1
  | internal w l r => obtain ⟨_, _, h0, -⟩ := h; exact (List.getElem?_eq_some_iff.1 h0).1

theorem candidate_spec {o : PendOrder} {a b x : Sub} {ns ns' : List Node} (h : candidate o a b ns = (x, ns'))
    (hn : ns.length < 512) (ha : SubOk ns a) (hb : SubOk ns b) :
    (∃ m, ns' = ns ++ [m]) ∧ SubOk ns' x ∧ (leaves x.tree).Perm (leaves a.tree ++ leaves b.tree) := by
  have fwd : ∀ {y : Sub} {ms : List Node}, combine a b ns = (y, ms) → _ := fun hc =>
    combine_spec hc hn ha hb ha.1.lt hb.1.lt
  have bwd : ∀ {y : Sub} {ms : List Node}, combine b a ns = (y, ms) → _ := fun hc =>
    combine_spec hc hn hb ha hb.1.lt ha.1.lt
  cases o with
  | olderFirst =>
    obtain ⟨h1, h2, h3, -⟩ := fwd h
    exact ⟨h1, h2, by rw [h3]⟩
  | lighterFirst =>
    simp only [candidate] at h
    split at h
    · obtain ⟨h1, h2, h3, -⟩ := bwd h
      exact ⟨h1, h2, by rw [h3]; exact List.perm_append_comm⟩
    · obtain ⟨h1, h2, h3, -⟩ := fwd h
      exact ⟨h1, h2, by rw [h3]⟩

theorem mergeMain_spec {m : Option Sub} {x r : Sub} {ns ns' : List Node} (h : mergeMain m x ns = (r, ns'))
    (hn : ns.length < 512) (hm : ∀ y ∈ m, SubOk ns y) (hx : SubOk ns x) :
    (∃ ms : List Node, ns' = ns ++ ms ∧ ms.length = m.toList.length) ∧ SubOk ns' r ∧
      (leaves r.tree).Perm ((m.toList.flatMap fun y => leaves y.tree) ++ leaves x.tree) := by
  cases m with
  | none =>
    simp only [mergeMain, Prod.mk.injEq] at h
    obtain ⟨rfl, rfl⟩ := h
    exact ⟨⟨[], by simp⟩, hx, by simp⟩
  | some m =>
    have hm := hm m rfl
    simp only [mergeMain] at h
    split at h
    · obtain ⟨⟨k, h1⟩, h2, h3, -⟩ := combine_spec h hn hx hm hx.1.lt hm.1.lt
      exact ⟨⟨[k], h1, rfl⟩, h2, by rw [h3]; simpa using List.perm_append_comm⟩
    · obtain ⟨⟨k, h1⟩, h2, h3, -⟩ := combine_spec h hn hm hx hm.1.lt hx.1.lt
      exact ⟨⟨[k], h1, rfl⟩, h2, by rw [h3]; simp⟩

/-- One round of the loop keeps the working values sound. -/
theorem pairStep_ok {o : PendOrder} {seen : List QEntry} {w : Builder} (h : BuilderOk seen w) (x y : QEntry)
    (hn : seen.length + 2 ≤ 256) : BuilderOk (seen ++ [x, y]) (pairStep o x y w) := by
  obtain ⟨hsubs, hleaves, hcount, hpend⟩ := h
  unfold pairStep
  rcases h1 : mkleaf x w.nodes with ⟨a, n1⟩
  obtain ⟨⟨k1, e1⟩, s1, l1, i1⟩ := mkleaf_spec h1 (by omega)
  rcases h2 : mkleaf y n1 with ⟨b, n2⟩
  obtain ⟨⟨k2, e2⟩, s2, l2, i2⟩ := mkleaf_spec h2 (by rw [e1]; simp; omega)
  rcases h3 : combine a b n2 with ⟨p, n3⟩
  have s1' : SubOk n2 a := by rw [e2]; exact s1.append _
  obtain ⟨⟨k3, e3⟩, s3, l3, -⟩ := combine_spec h3 (by rw [e2, e1]; simp; omega) s1' s2 s1'.1.lt s2.1.lt
  have e : n3 = w.nodes ++ [k1, k2, k3] := by rw [e3, e2, e1]; simp
  have hlen : n3.length = w.nodes.length + 3 := by rw [e]; simp
  have old : ∀ z ∈ subsOf w, SubOk n3 z := fun z hz => by rw [e]; exact (hsubs z hz).append _
  have lp : leaves p.tree = [x, y] := by rw [l3, l1, l2]; rfl
  simp only [h2, h3]
  cases hp : w.pend with
  | nil =>
    have hs : subsOf w = w.main.toList := by simp [subsOf, hp]
    rw [hs] at hleaves hcount old
    refine ⟨?_, ?_, ?_, by simp⟩
    · intro z hz
      simp only [subsOf, List.mem_append, List.mem_singleton] at hz
      rcases hz with hz | rfl
      · exact old z hz
      · exact s3
    · simpa [subsOf, lp] using hleaves.append_right [x, y]
    · simp only [subsOf, List.length_append, List.length_cons, List.length_nil, hlen]
      omega
  | cons q rest =>
    have hr : rest = [] := by
      rw [hp] at hpend; simp at hpend; exact hpend
    subst hr
    have hs : subsOf w = w.main.toList ++ [q] := by simp [subsOf, hp]
    rw [hs] at hleaves hcount old
    simp only [List.length_append, List.length_singleton] at hcount
    have sq : SubOk n3 q := old q (by simp)
    simp only [candidateStep]
    rcases h4 : candidate o q p n3 with ⟨c, n4⟩
    obtain ⟨⟨k4, e4⟩, s4, l4⟩ := candidate_spec h4 (by omega) sq s3
    have hlen4 : n4.length = w.nodes.length + 4 := by rw [e4]; simp [hlen]
    rw [lp] at l4
    cases hm : w.main with
    | none =>
      simp only [hm, Option.toList_none, List.nil_append, List.length_nil] at hleaves hcount
      refine ⟨?_, ?_, ?_, by simp⟩
      · intro z hz
        simp only [subsOf, Option.toList_some, List.append_nil, List.mem_singleton] at hz
        subst hz; exact s4
      · simp only [subsOf, Option.toList_some, List.append_nil, List.flatMap_singleton]
        exact l4.trans (by simpa using hleaves.append_right [x, y])
      · simp [subsOf, hlen4]; omega
    | some m =>
      simp only [hm, Option.toList_some, List.length_singleton] at hleaves hcount
      have sm : SubOk n4 m := by rw [e4]; exact (old m (by simp [hm])).append _
      have hperm : (leaves m.tree ++ leaves c.tree).Perm (seen ++ [x, y]) := by
        refine (l4.append_left (leaves m.tree)).trans ?_
        rw [← List.append_assoc]
        exact (by simpa using hleaves : (leaves m.tree ++ leaves q.tree).Perm seen).append_right [x, y]
      simp only
      split
      · rcases h5 : combine m c n4 with ⟨r, n5⟩
        obtain ⟨⟨k5, e5⟩, s5, l5, -⟩ := combine_spec h5 (by omega) sm s4 sm.1.lt s4.1.lt
        refine ⟨?_, ?_, ?_, by simp⟩
        · intro z hz
          simp only [subsOf, Option.toList_some, List.append_nil, List.mem_singleton] at hz
          subst hz; exact s5
        · simp only [subsOf, Option.toList_some, List.append_nil, List.flatMap_singleton, l5]
          exact hperm
        · simp [subsOf, e5, hlen4]; omega
      · refine ⟨?_, ?_, ?_, by simp⟩
        · intro z hz
          simp only [subsOf, Option.toList_some, List.cons_append, List.nil_append, List.mem_cons, List.not_mem_nil,
            or_false] at hz
          rcases hz with rfl | rfl
          · exact sm
          · exact s4
        · simpa [subsOf] using hperm
        · simp [subsOf, hlen4]; omega

/-- The loop consumes the queue two entries at a time. -/
theorem pairLoop_ok {o : PendOrder} {seen q rest : List QEntry} {w w' : Builder} (h : BuilderOk seen w)
    (hn : seen.length + q.length ≤ 256) (hl : pairLoop o q w = (w', rest)) :
    ∃ mid, mid ++ rest = q ∧ rest.length ≤ 1 ∧ BuilderOk (seen ++ mid) w' := by
  induction q using List.twoStepInduction generalizing seen w with
  | nil =>
    simp only [pairLoop, Prod.mk.injEq] at hl
    obtain ⟨rfl, rfl⟩ := hl
    exact ⟨[], rfl, by simp, by simpa using h⟩
  | singleton x =>
    simp only [pairLoop, Prod.mk.injEq] at hl
    obtain ⟨rfl, rfl⟩ := hl
    exact ⟨[], rfl, by simp, by simpa using h⟩
  | cons_cons x y q ih _ =>
    simp only [pairLoop] at hl
    simp only [List.length_cons] at hn
    obtain ⟨mid, rfl, hr, hok⟩ := ih (pairStep_ok (o := o) h x y (by omega)) (by simp; omega) hl
    exact ⟨x :: y :: mid, by simp, hr, by simpa using hok⟩

/-- What `TREE` builds from a queue of 1 to 256 entries (43_tree_builder.md R120, R124): a main tree that stands in the
arena, whose leaves are the queue's entries each once, whose weights are sums, of `2n - 1` nodes in all. -/
theorem buildTree_spec (o : PendOrder) {q : List QEntry} (hq : q ≠ []) (hn : q.length ≤ 256) :
    ∃ m, (buildTree o q).main = some m ∧ SubOk (buildTree o q).nodes m ∧ (leaves m.tree).Perm q ∧
      (buildTree o q).nodes.length = 2 * q.length - 1 := by
  have h0 : BuilderOk [] ⟨[], none, []⟩ := ⟨by simp [subsOf], by simp [subsOf], by simp [subsOf], by simp⟩
  rcases hl : pairLoop o q ⟨[], none, []⟩ with ⟨w, rest⟩
  have hb : buildTree o q = mergeLeftover rest (mergePending w) := by simp only [buildTree, hl]
  rw [hb]
  obtain ⟨mid, hmid, hrest, ⟨hsubs, hleaves, hcount, hpend⟩⟩ := pairLoop_ok h0 (by simpa using hn) hl
  simp only [List.nil_append] at hsubs hleaves hcount
  have hqlen : q.length = mid.length + rest.length := by rw [← hmid]; simp
  have hqpos : 0 < q.length := List.length_pos_iff.2 hq
  -- step 4 leaves a single subtree, or none when nothing was paired
  have step4 : BuilderOk mid (mergePending w) ∧ (mergePending w).pend = [] := by
    unfold mergePending
    cases hp : w.pend with
    | nil => exact ⟨⟨hsubs, hleaves, hcount, hpend⟩, hp⟩
    | cons p ps =>
      have hps : ps = [] := by rw [hp] at hpend; simp at hpend; exact hpend
      subst hps
      have hs : subsOf w = w.main.toList ++ [p] := by simp [subsOf, hp]
      rw [hs] at hsubs hleaves hcount
      simp only [List.length_append, List.length_singleton] at hcount
      simp only
      rcases hm : mergeMain w.main p w.nodes with ⟨r, ns⟩
      obtain ⟨⟨ms, e1, e2⟩, s1, l1⟩ := mergeMain_spec hm (by omega)
        (fun y hy => hsubs y (by simp [Option.mem_toList.2 hy])) (hsubs p (by simp))
      refine ⟨⟨?_, ?_, ?_, by simp⟩, trivial⟩
      · intro z hz
        simp only [subsOf, Option.toList_some, List.append_nil, List.mem_singleton] at hz
        subst hz; exact s1
      · simp only [subsOf, Option.toList_some, List.append_nil, List.flatMap_singleton]
        exact l1.trans (by simpa using hleaves)
      · simp [subsOf, e1, e2]; omega
  obtain ⟨⟨hsubs4, hleaves4, hcount4, -⟩, hpend4⟩ := step4
  generalize mergePending w = v at hsubs4 hleaves4 hcount4 hpend4
  have hs4 : subsOf v = v.main.toList := by simp [subsOf, hpend4]
  rw [hs4] at hsubs4 hleaves4 hcount4
  unfold mergeLeftover
  cases rest with
  | nil =>
    simp only [List.append_nil] at hmid
    subst hmid
    show ∃ m, v.main = some m ∧ _
    cases hm : v.main with
    | none =>
      rw [hm] at hcount4 hleaves4
      simp at hleaves4
      exact absurd hleaves4 hq
    | some m =>
      rw [hm] at hsubs4 hleaves4 hcount4
      refine ⟨m, rfl, hsubs4 m (by simp), by simpa using hleaves4, ?_⟩
      simp only [Option.toList_some, List.length_singleton] at hcount4
      show v.nodes.length = _
      omega
  | cons e es =>
    have hes : es = [] := by simp at hrest; exact hrest
    subst hes
    subst hmid
    rcases hk : mkleaf e v.nodes with ⟨l, n1⟩
    simp only [List.length_append, List.length_singleton] at hn hqlen
    have hv : v.nodes.length < 512 := by omega
    obtain ⟨⟨k1, e1⟩, s1, l1, -⟩ := mkleaf_spec hk hv
    rcases hm : mergeMain v.main l n1 with ⟨r, ns⟩
    obtain ⟨⟨ms, e2, e3⟩, s2, l2⟩ := mergeMain_spec hm (by rw [e1]; simp; omega)
      (fun y hy => by rw [e1]; exact (hsubs4 y (Option.mem_toList.2 hy)).append _) s1
    simp only [hk, hm]
    refine ⟨r, rfl, s2, ?_, ?_⟩
    · rw [l1] at l2
      exact l2.trans (hleaves4.append_right [e])
    · simp [e2, e1, e3]; omega

/-- A path from the root to a subtree is shorter than the tree has leaves (43_tree_builder.md R124). -/
theorem length_lt_of_follow {t x : Tree} {p : Bits} (h : follow t p = some x) :
    p.length + 1 ≤ (leaves t).length := by
  induction t generalizing p with
  | leaf s w =>
    cases p with
    | nil => simp [leaves]
    | cons b p => simp [follow] at h
  | internal w l r ihl ihr =>
    have hl := List.length_pos_iff.2 (leaves_ne_nil l)
    have hr := List.length_pos_iff.2 (leaves_ne_nil r)
    cases p with
    | nil => simp only [leaves, List.length_append, List.length_nil]; omega
    | cons b p =>
      simp only [follow] at h
      simp only [leaves, List.length_append, List.length_cons]
      cases b with
      | false => have := ihl h; omega
      | true => have := ihr h; omega

/-- The tree a state holds is the one the builder built. -/
theorem rootTree_of_buildTree {o : PendOrder} {q : List QEntry} (hq : q ≠ []) (hn : q.length ≤ 256) {m : Sub}
    (hm : (buildTree o q).main = some m) {s : State} (h1 : s.nodes = (buildTree o q).nodes)
    (h2 : s.nNodes = BitVec.ofNat 9 s.nodes.length) (h3 : s.root = m.idx) : rootTree s = m.tree := by
  obtain ⟨m', hm', ⟨hr, -⟩, -, hlen⟩ := buildTree_spec o hq hn
  obtain rfl : m' = m := Option.some.inj (hm'.symm.trans hm)
  have hl : s.nNodes.toNat = s.nodes.length := by
    rw [h2, BitVec.toNat_ofNat, h1, hlen]; exact Nat.mod_eq_of_lt (by omega)
  rw [rootTree, hl, List.take_length, h3, h1]
  exact treeAt_of_represents _ hr hr.lt

/-- A round of the loop leaves something in hand. -/
theorem pairStep_live (o : PendOrder) (x y : QEntry) (w : Builder) :
    (pairStep o x y w).main.isSome ∨ (pairStep o x y w).pend ≠ [] := by
  simp only [pairStep]
  split
  · exact .inr (by simp)
  · simp only [candidateStep]
    split
    · exact .inl rfl
    · split
      · exact .inl rfl
      · exact .inl rfl

theorem pairLoop_live {o : PendOrder} {q rest : List QEntry} {w w' : Builder} (h : pairLoop o q w = (w', rest))
    (hw : w.main.isSome ∨ w.pend ≠ [] ∨ q ≠ []) : w'.main.isSome ∨ w'.pend ≠ [] ∨ rest ≠ [] := by
  induction q using List.twoStepInduction generalizing w with
  | nil => cases h; simpa using hw
  | singleton x => cases h; exact .inr (.inr (by simp))
  | cons_cons x y q ih _ =>
    refine ih h ?_
    rcases pairStep_live o x y w with h | h
    · exact .inl h
    · exact .inr (.inl h)

/-- Every nonempty queue, whatever its length, gives a main tree. -/
theorem buildTree_main (o : PendOrder) {q : List QEntry} (hq : q ≠ []) : ∃ m, (buildTree o q).main = some m := by
  rcases hl : pairLoop o q ⟨[], none, []⟩ with ⟨w, rest⟩
  have hlive := pairLoop_live hl (.inr (.inr hq))
  simp only [buildTree, hl]
  cases rest with
  | cons e es => exact ⟨_, rfl⟩
  | nil =>
    simp only [mergeLeftover, mergePending]
    split
    · next hp =>
      simp only [hp, ne_eq, not_true_eq_false, or_false] at hlive
      exact Option.isSome_iff_exists.1 hlive
    · exact ⟨_, rfl⟩

/-- The tree of a merge: the strictly lighter of the two goes first (43_tree_builder.md R114). -/
theorem mergeMain_tree (m x : Sub) (ns : List Node) :
    (mergeMain (some m) x ns).1.tree =
      if x.tree.weight < m.tree.weight then .internal (x.tree.weight + m.tree.weight) x.tree m.tree
      else .internal (m.tree.weight + x.tree.weight) m.tree x.tree := by
  unfold mergeMain; dsimp only; split <;> rfl

/-- With a main tree, the candidate of two pending subtrees is merged when it is strictly heavier, else held back
(43_tree_builder.md R116). -/
theorem candidateStep_olderFirst (a b m : Sub) (ns : List Node) :
    (m.tree.weight < a.tree.weight + b.tree.weight ∧ ∃ r ns',
      r.tree = .internal (m.tree.weight + (a.tree.weight + b.tree.weight)) m.tree
        (.internal (a.tree.weight + b.tree.weight) a.tree b.tree) ∧
      candidateStep .olderFirst a b ns (some m) = ⟨ns', some r, []⟩) ∨
    (¬ m.tree.weight < a.tree.weight + b.tree.weight ∧ ∃ c ns',
      c.tree = .internal (a.tree.weight + b.tree.weight) a.tree b.tree ∧
      candidateStep .olderFirst a b ns (some m) = ⟨ns', some m, [c]⟩) := by
  simp only [candidateStep, candidate]
  by_cases h : m.tree.weight < a.tree.weight + b.tree.weight
  · exact .inl ⟨h, (combine m (combine a b ns).1 (combine a b ns).2).1, _, rfl, if_pos h⟩
  · exact .inr ⟨h, (combine a b ns).1, _, rfl, if_neg h⟩

end Sys2Proof.Machine
end

