-- ==== Sys2Proof/Laws/Codes.lean ====
section
/-! SUPPORT. What the deriver derives: one entry per leaf from left to right, a prefix-free and complete table
(44_code_table.md R132 to R137). -/

namespace Sys2Proof.Machine

@[simp] theorem codeTable_leaf (s : Byte) (w : Word) : codeTable (.leaf s w) = [⟨s, 0#16, []⟩] := rfl

/-- An entry of `walk t p` records the path from the root, below `p`. -/
theorem mem_walk {t : Tree} {p : Bits} {e : CodeEntry} (h : e ∈ walk t p) :
    e.len = BitVec.ofNat 16 e.bits.length ∧ p <+: e.bits ∧ e.bits.length + 1 ≤ p.length + (leaves t).length := by
  induction t generalizing p with
  | leaf s w =>
    simp only [walk, List.mem_singleton] at h
    subst h
    exact ⟨rfl, List.prefix_refl p, by simp [leaves]⟩
  | internal w l r ihl ihr =>
    simp only [walk, List.mem_append] at h
    have hl := List.length_pos_iff.2 (leaves_ne_nil l)
    have hr := List.length_pos_iff.2 (leaves_ne_nil r)
    rcases h with h | h
    · obtain ⟨h1, h2, h3⟩ := ihl h
      refine ⟨h1, (List.prefix_append p [false]).trans h2, ?_⟩
      simp only [List.length_append, List.length_singleton, leaves] at *; omega
    · obtain ⟨h1, h2, h3⟩ := ihr h
      refine ⟨h1, (List.prefix_append p [true]).trans h2, ?_⟩
      simp only [List.length_append, List.length_singleton, leaves] at *; omega

/-- The entries are the leaves from left to right (44_code_table.md R132). -/
theorem map_sym_walk (t : Tree) (p : Bits) : (walk t p).map CodeEntry.sym = (leaves t).map QEntry.sym := by
  induction t generalizing p with
  | leaf s w => rfl
  | internal w l r ihl ihr => simp [walk, leaves, ihl, ihr]

theorem length_walk (t : Tree) (p : Bits) : (walk t p).length = (leaves t).length := by
  rw [← List.length_map (f := CodeEntry.sym), map_sym_walk, List.length_map]

/-- Neither code is a prefix of the other. -/
def Apart (x y : CodeEntry) : Prop := ¬ x.bits <+: y.bits ∧ ¬ y.bits <+: x.bits

theorem not_prefix_of_branch {p x y : Bits} {b : Bool} (hx : p ++ [b] <+: x) (hy : p ++ [!b] <+: y) : ¬ x <+: y := by
  intro h
  obtain ⟨u, hu⟩ := hx.trans h
  obtain ⟨v, hv⟩ := hy
  rw [← hv] at hu
  simp only [List.append_assoc, List.append_cancel_left_eq, List.singleton_append, List.cons.injEq] at hu
  cases b <;> simp at hu

theorem walk_apart (t : Tree) (p : Bits) : (walk t p).Pairwise Apart := by
  induction t generalizing p with
  | leaf s w => simp [walk]
  | internal w l r ihl ihr =>
    simp only [walk]
    refine List.pairwise_append.2 ⟨ihl _, ihr _, fun x hx y hy => ?_⟩
    have h1 := (mem_walk hx).2.1
    have h2 := (mem_walk hy).2.1
    exact ⟨not_prefix_of_branch (b := false) h1 h2, not_prefix_of_branch (b := true) h2 h1⟩

/-- A derived code table is prefix-free (44_code_table.md R135). -/
theorem codeTable_apart (t : Tree) : (codeTable t).Pairwise Apart := walk_apart t []

/-- Every bit string at least as long as all codes starts with one (44_code_table.md R137). -/
theorem walk_complete (t : Tree) (p bits : Bits) (hp : p <+: bits) (hl : ∀ e ∈ walk t p, e.bits.length ≤ bits.length) :
    ∃ e ∈ walk t p, e.bits <+: bits := by
  induction t generalizing p with
  | leaf s w => exact ⟨⟨s, BitVec.ofNat 16 p.length, p⟩, by simp [walk], hp⟩
  | internal w l r ihl ihr =>
    simp only [walk, List.mem_append] at hl ⊢
    obtain ⟨rest, rfl⟩ := hp
    cases rest with
    | nil =>
      obtain ⟨e, he⟩ := List.exists_mem_of_ne_nil (walk l (p ++ [false]))
        (by rw [Ne, ← List.length_eq_zero_iff, length_walk, List.length_eq_zero_iff]; exact leaves_ne_nil l)
      have h1 := (mem_walk he).2.1.length_le
      have h2 := hl e (.inl he)
      simp at h1 h2; omega
    | cons b rest =>
      have hb : p ++ [b] <+: p ++ b :: rest := ⟨rest, by simp⟩
      cases b with
      | false =>
        obtain ⟨e, he, h⟩ := ihl (p ++ [false]) hb fun e he => hl e (.inl he)
        exact ⟨e, .inl he, h⟩
      | true =>
        obtain ⟨e, he, h⟩ := ihr (p ++ [true]) hb fun e he => hl e (.inr he)
        exact ⟨e, .inr he, h⟩

/-- Two entries of a derived table that share a prefix are one and the same. -/
theorem codeTable_eq_of_prefix {t : Tree} {x y : CodeEntry} (hx : x ∈ codeTable t) (hy : y ∈ codeTable t)
    (h : x.bits <+: y.bits) : x = y := by
  obtain ⟨i, hi, rfl⟩ := List.getElem_of_mem hx
  obtain ⟨j, hj, rfl⟩ := List.getElem_of_mem hy
  have hp := List.pairwise_iff_getElem.1 (codeTable_apart t)
  rcases Nat.lt_trichotomy i j with hij | rfl | hij
  · exact absurd h (hp i j hi hj hij).1
  · rfl
  · exact absurd h (hp j i hj hi hij).2

/-- `code_of` finds the entry of a symbol (45_encoder.md R142). -/
theorem codeOf_of_mem {seed : Nat} {ct : List CodeEntry} (hn : (ct.map CodeEntry.sym).Nodup) {e : CodeEntry} (he : e ∈ ct) :
    codeOf seed ct e.sym = e.bits := by
  unfold codeOf
  cases hf : ct.find? fun x => x.sym == e.sym with
  | none =>
    rw [List.find?_eq_none] at hf
    exact absurd (hf e he) (by simp)
  | some x =>
    have h1 := List.mem_of_find?_eq_some hf
    have h2 : x.sym = e.sym := by simpa using List.find?_some hf
    have : x = e := List.inj_on_of_nodup_map hn h1 he h2
    simp [this]

end Sys2Proof.Machine
end

