-- ==== Sys2Proof/Laws/Stream.lean ====
section
/-! SUPPORT. The two sides of the channel seen as bit strings: every writer step appends bits, every reader step takes
bits off (20_memory.md R43, R44, R46, R47). -/

namespace Sys2Proof.Machine

/-! ## Bytes as bit strings -/

/-- The bits of a byte in stream order: bit 7 first (20_memory.md R43). -/
def byteBits (b : Byte) : Bits := (List.range 8).map fun j => b.getLsbD (7 - j)

/-- The bits of a byte sequence in stream order. -/
def bitsOfBytes (bs : List Byte) : Bits := bs.flatMap byteBits

@[simp] theorem length_byteBits (b : Byte) : (byteBits b).length = 8 := by simp [byteBits]

@[simp] theorem getElem_byteBits (b : Byte) (j : Nat) (h : j < (byteBits b).length) :
    (byteBits b)[j] = b.getLsbD (7 - j) := by simp [byteBits]

@[simp] theorem bitsOfBytes_nil : bitsOfBytes [] = [] := rfl

@[simp] theorem bitsOfBytes_cons (b : Byte) (bs : List Byte) : bitsOfBytes (b :: bs) = byteBits b ++ bitsOfBytes bs := rfl

@[simp] theorem bitsOfBytes_append (bs bs' : List Byte) :
    bitsOfBytes (bs ++ bs') = bitsOfBytes bs ++ bitsOfBytes bs' := by simp [bitsOfBytes]

@[simp] theorem length_bitsOfBytes (bs : List Byte) : (bitsOfBytes bs).length = 8 * bs.length := by
  induction bs with
  | nil => rfl
  | cons b bs ih => rw [bitsOfBytes_cons, List.length_append, ih, length_byteBits, List.length_cons]; omega

theorem byteBits_inj {a b : Byte} (h : byteBits a = byteBits b) : a = b := by
  refine BitVec.eq_of_getLsbD_eq fun i hi => ?_
  have h1 : (byteBits a)[7 - i]'(by simp; omega) = (byteBits b)[7 - i]'(by simp; omega) := by simp only [h]
  rw [getElem_byteBits, getElem_byteBits, show 7 - (7 - i) = i by omega] at h1
  exact h1

/-- A byte sequence is known by its bits. -/
theorem bitsOfBytes_inj {as bs : List Byte} (h : bitsOfBytes as = bitsOfBytes bs) : as = bs := by
  induction as generalizing bs with
  | nil =>
    have := congrArg List.length h
    cases bs with
    | nil => rfl
    | cons b bs => simp at this; omega
  | cons a as ih =>
    cases bs with
    | nil =>
      have := congrArg List.length h
      simp at this
    | cons b bs =>
      obtain ⟨h1, h2⟩ := List.append_inj h (by simp)
      rw [byteBits_inj h1, ih h2]

/-- A byte whose low bits are zero: the first `k` bits, then zeros. -/
theorem byteBits_eq_take {a : Byte} {k : Nat} (h : a <<< k = 0#8) :
    byteBits a = (byteBits a).take k ++ List.replicate (8 - k) false := by
  refine List.ext_getElem (by simp; omega) fun j h1 h2 => ?_
  rw [List.getElem_append]
  split
  · simp
  · next hj =>
    simp only [length_byteBits] at h1
    simp only [List.length_take, length_byteBits, not_lt] at hj
    have := congrArg (fun x : Byte => x.getLsbD (7 - j + k)) h
    simp only [BitVec.getLsbD_shiftLeft, show ¬ (7 - j + k < k) by omega, decide_false, Bool.not_false, Bool.and_true,
      show 7 - j + k - k = 7 - j by omega, BitVec.getLsbD_zero, Bool.and_eq_false_imp, decide_eq_true_eq] at this
    rw [getElem_byteBits, List.getElem_replicate]
    exact this (by omega)

/-! ## The writer -/

/-- The bits written so far: those of the emitted bytes, then the buffered ones. -/
def outBits (c : OutChannel) : Bits := bitsOfBytes (outStream c) ++ (byteBits c.acc).take c.cnt.toNat

/-- The stream as a flush leaves it. -/
def flushedStream (c : OutChannel) : List Byte := outStream c ++ padBytes c

theorem OutOk.acc_eq_zero {c : OutChannel} (h : OutOk c) (h0 : c.cnt = 0#4) : c.acc = 0#8 := by
  have := h.2
  simpa [h0] using this

/-- A flush adds only zeros to the bits. -/
theorem bitsOfBytes_flushedStream {c : OutChannel} (h : OutOk c) :
    bitsOfBytes (flushedStream c) = outBits c ++ List.replicate ((8 - c.cnt.toNat) % 8) false := by
  unfold flushedStream padBytes outBits
  split
  · next h0 => simp [h0]
  · next h0 =>
    have hpos : 0 < c.cnt.toNat := by
      rcases Nat.eq_zero_or_pos c.cnt.toNat with hz | hz
      · exact absurd (BitVec.eq_of_toNat_eq (by simpa using hz)) h0
      · exact hz
    rw [Nat.mod_eq_of_lt (by omega), bitsOfBytes_append, bitsOfBytes_cons, bitsOfBytes_nil, List.append_nil,
      List.append_assoc, ← byteBits_eq_take h.2]

theorem length_outBits {c : OutChannel} (h : OutOk c) : (outBits c).length = 8 * (outStream c).length + c.cnt.toNat := by
  have := h.1
  simp [outBits]; omega

theorem appendBit_cnt {c : OutChannel} (h : OutOk c) (b : Bool) : (appendBit b c).cnt.toNat = c.cnt.toNat + 1 := by
  have := h.1
  simp only [appendBit, BitVec.toNat_add, BitVec.toNat_ofNat]; omega

theorem getLsbD_bitByte_shift (b : Bool) {k i : Nat} (hk : k ≤ 7) (hi : i < 8) :
    (bitByte b <<< k).getLsbD i = (b && decide (i = k)) := by
  cases b
  · simp [bitByte]
  · by_cases h : i = k
    · subst h; simp [bitByte, hi]
    · simp [bitByte, hi, h]; omega

/-- A bit goes just below the buffered ones. -/
theorem byteBits_appendBit {c : OutChannel} (h : OutOk c) (b : Bool) :
    byteBits (appendBit b c).acc = (byteBits c.acc).take c.cnt.toNat ++ b :: List.replicate (7 - c.cnt.toNat) false := by
  obtain ⟨h1, h2⟩ := h
  refine List.ext_getElem (by simp; omega) fun j hj hj' => ?_
  simp only [length_byteBits] at hj
  simp only [appendBit, getElem_byteBits, BitVec.getLsbD_or]
  rw [getLsbD_bitByte_shift b (by omega) (by omega), List.getElem_append]
  have hz : c.cnt.toNat ≤ j → c.acc.getLsbD (7 - j) = false := fun hle => by
    have := congrArg (fun x : Bits => x[j]?) (byteBits_eq_take h2)
    rw [List.getElem?_eq_getElem (by simp; omega), getElem_byteBits, List.getElem?_append_right (by simp; omega)] at this
    rw [List.getElem?_replicate_of_lt (by simp; omega)] at this
    simpa using this
  split
  · next hlt =>
    simp only [List.length_take, length_byteBits, lt_inf_iff] at hlt
    simp [show ¬ (7 - j = 7 - c.cnt.toNat) by omega]
  · next hlt =>
    simp only [List.length_take, length_byteBits, lt_inf_iff, not_and_or, not_lt] at hlt
    have hle : c.cnt.toNat ≤ j := by omega
    simp only [hz hle, Bool.false_or, List.length_take, length_byteBits, Nat.min_eq_left (show c.cnt.toNat ≤ 8 by omega)]
    rcases Nat.eq_or_lt_of_le hle with he | hlt'
    · simp [he]
    · rw [List.getElem_cons, dif_neg (by omega)]
      simp [show ¬ (7 - j = 7 - c.cnt.toNat) by omega]

theorem appendBit_ok {c : OutChannel} (h : OutOk c) (b : Bool) :
    (appendBit b c).acc <<< (appendBit b c).cnt.toNat = 0#8 := by
  refine BitVec.eq_of_getLsbD_eq fun i hi => ?_
  rw [appendBit_cnt h, BitVec.getLsbD_shiftLeft]
  simp only [hi, decide_true, Bool.true_and, BitVec.getLsbD_zero, Bool.and_eq_false_imp, Bool.not_eq_true',
    decide_eq_false_iff_not, not_lt]
  intro hle
  have hj : 7 - (7 - (i - (c.cnt.toNat + 1))) = i - (c.cnt.toNat + 1) := by omega
  have h1 := congrArg (fun x : Bits => x[7 - (i - (c.cnt.toNat + 1))]?) (byteBits_appendBit h b)
  have h0 := h.1
  rw [List.getElem?_eq_getElem (by simp; omega), getElem_byteBits, hj,
    List.getElem?_append_right (by simp; omega), List.length_take, length_byteBits,
    Nat.min_eq_left (by omega), show 7 - (i - (c.cnt.toNat + 1)) - c.cnt.toNat =
      (7 - (i - (c.cnt.toNat + 1)) - c.cnt.toNat - 1) + 1 by omega, List.getElem?_cons_succ,
    List.getElem?_replicate_of_lt (by omega)] at h1
  simpa using h1

/-- One `WBIT` without the flush flag appends exactly its bit (20_memory.md R43). -/
theorem putBit_outBits {cap : Nat} (hcap : cap < 2 ^ 64) {op : Word} {b : Bool} {c c' : OutChannel} (h : OutOk c)
    (hp : putBit cap op b false c = .ok c') : outBits c' = outBits c ++ [b] ∧ OutOk c' ∧ c'.opened = c.opened ∧
      (c.len.toNat ≤ cap → c'.len.toNat ≤ cap) := by
  have hb := byteBits_appendBit h b
  have hc := appendBit_cnt h b
  have h0 := h.1
  rcases putBit_eq_ok hp with ⟨⟨hne, -⟩, rfl⟩ | ⟨hx, hlt, rfl⟩
  · have hne' : c.cnt.toNat ≠ 7 := fun hh => hne (BitVec.eq_of_toNat_eq (by rw [hc, hh]; rfl))
    refine ⟨?_, ⟨by omega, appendBit_ok h b⟩, rfl, fun h => h⟩
    unfold outBits
    rw [hb, hc, show outStream (appendBit b c) = outStream c from rfl, List.append_assoc, List.append_cancel_left_eq,
      List.take_append, List.length_take, length_byteBits, Nat.min_eq_left (by omega), Nat.add_sub_cancel_left,
      List.take_take, Nat.min_eq_right (by omega)]
    rfl
  · have h8 : (appendBit b c).cnt = 8#4 := by simpa using hx
    have h7 : c.cnt.toNat = 7 := by
      have := congrArg BitVec.toNat h8
      rw [hc] at this; simpa using this
    have hlen : (c.len + 1#64).toNat = c.len.toNat + 1 := by rw [BitVec.toNat_add]; simp; omega
    have ha : Appended [(appendBit b c).acc] c
        { c with acc := 0#8, cnt := 0#4, cbo := Memory.write c.cbo c.len.toNat (appendBit b c).acc, len := c.len + 1#64 } :=
      (Appended.emit hcap (op := op) (emit_eq_ok.2 ⟨hlt, rfl⟩)).congr rfl rfl rfl rfl
    refine ⟨?_, ⟨by simp, by simp⟩, rfl, fun _ => by simp only [hlen]; omega⟩
    unfold outBits
    rw [ha.outStream]
    simp only [bitsOfBytes_append, bitsOfBytes_cons, bitsOfBytes_nil, List.append_nil, hb, h7]
    simp

/-- A run of bits is appended bit for bit. -/
theorem putBits_outBits {cap : Nat} (hcap : cap < 2 ^ 64) {op : Word} {bits : Bits} {c c' : OutChannel} (h : OutOk c)
    (hp : putBits cap op bits c = .ok c') : outBits c' = outBits c ++ bits ∧ OutOk c' ∧ c'.opened = c.opened ∧
      (c.len.toNat ≤ cap → c'.len.toNat ≤ cap) := by
  induction bits generalizing c with
  | nil =>
    simp only [putBits, Except.ok.injEq] at hp
    subst hp; exact ⟨by simp, h, rfl, fun h => h⟩
  | cons b bits ih =>
    simp only [putBits, bind_eq_ok] at hp
    obtain ⟨d, hd, hp⟩ := hp
    obtain ⟨i1, i2, i3, i4⟩ := putBit_outBits hcap h hd
    obtain ⟨k1, k2, k3, k4⟩ := ih i2 hp
    exact ⟨by rw [k1, i1]; simp, k2, k3.trans i3, fun h => k4 (i4 h)⟩

theorem putBits_append (cap : Nat) (op : Word) (p q : Bits) (c : OutChannel) :
    putBits cap op (p ++ q) c = putBits cap op p c >>= putBits cap op q := by
  induction p generalizing c with
  | nil => rfl
  | cons b p ih =>
    simp only [List.cons_append, putBits]
    cases h : putBit cap op b false c with
    | ok d => simp [ih]
    | error r => rfl

/-- The payload is one run of bits. -/
theorem putPayload_eq (cap : Nat) (code : Byte → Bits) (text : List Byte) (c : OutChannel) :
    putPayload cap code text c = putBits cap encodeOp (text.flatMap code) c := by
  induction text generalizing c with
  | nil => rfl
  | cons b text ih =>
    simp only [putPayload, List.flatMap_cons, putBits_append]
    cases h : putBits cap encodeOp (code b) c with
    | ok d => simp [ih]
    | error r => rfl

/-! ## Packed runs -/

theorem byteBits_byteOfBits (f : Nat → Bool) : byteBits (byteOfBits f) = (List.range 8).map f := by
  have key : ∀ a b c d e f g h : Bool,
      byteBits (0#8 ||| bitByte a <<< 7 ||| bitByte b <<< 6 ||| bitByte c <<< 5 ||| bitByte d <<< 4 ||| bitByte e <<< 3
        ||| bitByte f <<< 2 ||| bitByte g <<< 1 ||| bitByte h <<< 0) = [a, b, c, d, e, f, g, h] := by decide +kernel
  exact key (f 0) (f 1) (f 2) (f 3) (f 4) (f 5) (f 6) (f 7)

theorem flatMap_range_bytes (g : Nat → Bool) (n : Nat) :
    ((List.range n).flatMap fun k => (List.range 8).map fun j => g (8 * k + j)) = (List.range (8 * n)).map g := by
  induction n with
  | zero => rfl
  | succ n ih =>
    rw [List.range_succ (n := n), List.flatMap_append, ih, List.flatMap_singleton, Nat.mul_succ, List.range_add, List.map_append,
      List.map_map]
    rfl

/-- A packed run is the run, then zeros up to the byte boundary (20_memory.md R44). -/
theorem bitsOfBytes_packBits (bits : Bits) :
    bitsOfBytes (packBits bits) = bits ++ List.replicate (8 * ((bits.length + 7) / 8) - bits.length) false := by
  have h : bitsOfBytes (packBits bits) = (List.range (8 * ((bits.length + 7) / 8))).map fun i => bits.getD i false := by
    rw [← flatMap_range_bytes, bitsOfBytes, packBits, List.flatMap_map]
    simp only [byteBits_byteOfBits]
  rw [h]
  refine List.ext_getElem (by simp; omega) fun j h1 h2 => ?_
  rw [List.getElem_append]
  split
  · next hj => simp [hj]
  · next hj => simp [List.getElem?_eq_none (not_lt.1 hj)]

@[simp] theorem length_packBits (bits : Bits) : (packBits bits).length = (bits.length + 7) / 8 := by simp [packBits]

/-- From a byte boundary, a run flushes as its packed bytes (20_memory.md R44). -/
theorem flushedStream_putBits {cap : Nat} (hcap : cap < 2 ^ 64) {op : Word} {bits : Bits} {c c' : OutChannel}
    (h : OutOk c) (h0 : c.cnt = 0#4) (hp : putBits cap op bits c = .ok c') :
    flushedStream c' = outStream c ++ packBits bits := by
  obtain ⟨h1, h2, -, -⟩ := putBits_outBits hcap h hp
  have h3 : outBits c = bitsOfBytes (outStream c) := by simp [outBits, h0]
  have hl := length_outBits h2
  rw [h1, h3, List.length_append, length_bitsOfBytes] at hl
  have h7 := h2.1
  refine bitsOfBytes_inj ?_
  rw [bitsOfBytes_flushedStream h2, bitsOfBytes_append, bitsOfBytes_packBits, h1, h3, List.append_assoc]
  congr 3
  omega

/-! ## The reader -/

/-- The bits still to be delivered: the unread ones, then those of the bytes still available. -/
def inBits (c : InChannel) : Bits := (byteBits c.buf).take c.cnt.toNat ++ bitsOfBytes (restStream c)

theorem length_inBits {c : InChannel} (h : c.cnt.toNat ≤ 8) : (inBits c).length = bitsLeft c := by
  simp [inBits, bitsLeft, restStream]; omega

/-- The stream has a next byte exactly when one is available. -/
theorem restStream_succ {c : InChannel} (h : 1 ≤ available c) :
    restStream c = byteAt .cbi c.cbi c.pos.toNat :: restStream { c with pos := c.pos + 1#64 } := by
  have h1 : (c.pos + 1#64).toNat = c.pos.toNat + 1 := by
    unfold available at h
    rw [BitVec.toNat_add]; simp; omega
  have h2 : available { c with pos := c.pos + 1#64 } = available c - 1 := by
    unfold available; simp only [h1]; omega
  unfold restStream
  rw [h2, h1, show available c = available c - 1 + 1 by omega, bytesAt_succ]
  rfl

theorem pos_add_toNat {n : Nat} {c : InChannel} (h : n ≤ available c) :
    (c.pos + BitVec.ofNat 64 n).toNat = c.pos.toNat + n ∨ n = 0 := by
  unfold available at h
  by_cases h0 : n = 0
  · exact .inr h0
  · left; rw [BitVec.toNat_add, BitVec.toNat_ofNat, Nat.mod_eq_of_lt (by omega), Nat.mod_eq_of_lt (by omega)]

theorem byteBits_shift (b : Byte) : byteBits b = b.getLsbD 7 :: (byteBits (b <<< 1)).take 7 := by
  refine List.ext_getElem (by simp) fun j h1 h2 => ?_
  cases j with
  | zero => simp
  | succ j =>
    simp only [length_byteBits] at h1
    simp only [List.getElem_cons_succ, List.getElem_take, getElem_byteBits, BitVec.getLsbD_shiftLeft]
    rw [show 7 - j - 1 = 7 - (j + 1) by omega]
    simp [show 7 - j < 8 by omega, show ¬ (7 - j = 0) by omega]

/-- One `RBIT` takes off the first bit (20_memory.md R43). -/
theorem getBit_inBits {c c' : InChannel} {b : Bool} (h : InOk c) (hg : getBit c = .ok (b, c')) :
    inBits c = b :: inBits c' ∧ c'.cnt.toNat ≤ 7 ∧ c'.buf <<< c'.cnt.toNat = 0#8 ∧
      (c.pos.toNat ≤ c.len.toNat → c'.pos.toNat ≤ c'.len.toNat) := by
  obtain ⟨h1, h2, -⟩ := h
  rcases getBit_eq_ok hg with ⟨hne, rfl, rfl⟩ | ⟨h0, ha, rfl, rfl⟩
  · have hpos : 0 < c.cnt.toNat := by
      rcases Nat.eq_zero_or_pos c.cnt.toNat with hz | hz
      · exact absurd (BitVec.eq_of_toNat_eq (by simpa using hz)) hne
      · exact hz
    have hc : (c.cnt - 1#4).toNat = c.cnt.toNat - 1 := by
      rw [BitVec.toNat_sub]; simp; omega
    refine ⟨?_, by simp only [hc]; omega, ?_, fun h => h⟩
    · simp only [inBits, hc]
      rw [byteBits_shift, show c.cnt.toNat = c.cnt.toNat - 1 + 1 by omega, List.take_succ_cons, List.cons_append,
        List.take_take, Nat.min_eq_left (by omega)]
      rfl
    · simp only [hc]
      rw [← BitVec.shiftLeft_add, show 1 + (c.cnt.toNat - 1) = c.cnt.toNat by omega]
      exact h2
  · refine ⟨?_, by simp, ?_, fun h => ?_⟩
    · simp only [inBits, h0, restStream_succ ha, bitsOfBytes_cons]
      rw [byteBits_shift (byteAt .cbi c.cbi c.pos.toNat)]
      rfl
    · show (byteAt .cbi c.cbi c.pos.toNat <<< 1) <<< 7 = 0#8
      rw [← BitVec.shiftLeft_add]
      exact BitVec.shiftLeft_eq_zero (by omega)
    · have := (pos_add_toNat (n := 1) ha).resolve_right (by omega)
      have hd : (c.pos + 1#64).toNat = c.pos.toNat + 1 := this
      unfold available at ha
      simp only [hd]; omega

/-- The reader between two of its steps: fewer than 8 bits unread, zeros below them, the position within the stream. -/
def ReaderOk (c : InChannel) : Prop := c.cnt.toNat ≤ 7 ∧ c.buf <<< c.cnt.toNat = 0#8 ∧ c.pos.toNat ≤ c.len.toNat

theorem ReaderOk.inOk {c : InChannel} (h : ReaderOk c) : InOk c := ⟨h.1, h.2.1, fun _ => h.2.2⟩

theorem InOk.readerOk {c : InChannel} (h : InOk c) (ho : c.opened = true) : ReaderOk c := ⟨h.1, h.2.1, h.2.2 ho⟩

theorem getBit_readerOk {c c' : InChannel} {b : Bool} (h : ReaderOk c) (hg : getBit c = .ok (b, c')) : ReaderOk c' := by
  obtain ⟨-, h1, h2, h3⟩ := getBit_inBits h.inOk hg
  exact ⟨h1, h2, h3 h.2.2⟩

/-- With a bit left the next one can be read. -/
theorem getBit_completes {c : InChannel} (h : 1 ≤ bitsLeft c) : ∃ b c', getBit c = .ok (b, c') := by
  cases hg : getBit c with
  | ok x => exact ⟨x.1, x.2, rfl⟩
  | error r =>
    obtain ⟨⟨h0, ha⟩, -⟩ := getBit_eq_error.1 hg
    simp [bitsLeft, h0, ha] at h

/-- Reading a run takes exactly its bits off. -/
theorem getBits_inBits {n : Nat} {c c' : InChannel} {p : Bits} (h : ReaderOk c) (hg : getBits n c = .ok (p, c')) :
    inBits c = p ++ inBits c' ∧ p.length = n ∧ ReaderOk c' := by
  induction n generalizing c p with
  | zero =>
    simp only [getBits, Except.ok.injEq, Prod.mk.injEq] at hg
    obtain ⟨rfl, rfl⟩ := hg
    exact ⟨rfl, rfl, h⟩
  | succ n ih =>
    simp only [getBits, bind_eq_ok, Prod.exists, Except.ok.injEq, Prod.mk.injEq] at hg
    obtain ⟨b, d, hd, bs, e, he, rfl, rfl⟩ := hg
    obtain ⟨h1, h2, h3⟩ := ih (getBit_readerOk h hd) he
    exact ⟨by rw [(getBit_inBits h.inOk hd).1, h1]; rfl, by simp [h2], h3⟩

theorem getBits_completes {n : Nat} {c : InChannel} (h : ReaderOk c) (hn : n ≤ (inBits c).length) :
    ∃ p c', getBits n c = .ok (p, c') := by
  induction n generalizing c with
  | zero => exact ⟨[], c, rfl⟩
  | succ n ih =>
    rw [length_inBits (by have := h.1; omega)] at hn
    obtain ⟨b, d, hd⟩ := getBit_completes (c := c) (by omega)
    obtain ⟨p, e, he⟩ := ih (getBit_readerOk h hd) (by
      have := congrArg List.length (getBit_inBits h.inOk hd).1
      rw [length_inBits (by have := h.1; omega)] at this
      simp at this; omega)
    exact ⟨b :: p, e, by simp only [getBits, hd, ok_bind, he]⟩

/-- A run that the stream does not hold to its end faults there. -/
theorem getBits_short {n : Nat} {c : InChannel} (h : ReaderOk c) (hn : (inBits c).length < n) :
    getBits n c = .error ⟨.truncated, c.len.setWidth 32⟩ := by
  induction n generalizing c with
  | zero => omega
  | succ n ih =>
    cases hd : getBit c with
    | error r =>
      obtain ⟨⟨-, ha⟩, rfl⟩ := getBit_eq_error.1 hd
      have := h.2.2
      have : c.pos = c.len := BitVec.eq_of_toNat_eq (by unfold available at ha; omega)
      simp only [getBits, hd, error_bind, this]
    | ok x =>
      have hi := congrArg List.length (getBit_inBits h.inOk (c' := x.2) (b := x.1) hd).1
      have := ih (getBit_readerOk (c' := x.2) (b := x.1) h hd) (by simp at hi; omega)
      rw [(getBit_sameStream (c' := x.2) (b := x.1) hd).2.1] at this
      simp only [getBits, hd, ok_bind, this, error_bind]

/-- A run whose bits stand next is read as it stands. -/
theorem getBits_of_inBits {c : InChannel} {p rest : Bits} (h : ReaderOk c) (hb : inBits c = p ++ rest) :
    ∃ c', getBits p.length c = .ok (p, c') ∧ inBits c' = rest ∧ ReaderOk c' := by
  obtain ⟨q, c', hg⟩ := getBits_completes (n := p.length) h (by simp [hb])
  obtain ⟨h1, h2, h3⟩ := getBits_inBits h hg
  rw [hb] at h1
  obtain ⟨h4, h5⟩ := List.append_inj h1 h2.symm
  subst h4
  exact ⟨c', hg, h5.symm, h3⟩

theorem length_restStream (c : InChannel) : (restStream c).length = available c := by simp [restStream]

/-- A fixed-width read takes its bytes off the stream and drops the unread bits (20_memory.md R46). -/
theorem get_restStream {n : Nat} {c c' : InChannel} {v : Word} (hp : c.pos.toNat ≤ c.len.toNat)
    (hg : get n c = .ok (v, c')) :
    ∃ bs, restStream c = bs ++ restStream c' ∧ bs.length = n ∧ v = BitVec.ofNat 32 (leValue bs) ∧ c'.cnt = 0#4 ∧
      ReaderOk c' := by
  obtain ⟨h1, rfl, rfl⟩ := get_eq_ok.1 hg
  have hpos : (c.pos + BitVec.ofNat 64 n).toNat = c.pos.toNat + n := by
    rcases pos_add_toNat h1 with h | rfl
    · exact h
    · simp
  have ha : available { c with buf := 0#8, cnt := 0#4, pos := c.pos + BitVec.ofNat 64 n } = available c - n := by
    unfold available; simp only [hpos]; omega
  refine ⟨bytesAt .cbi c.cbi c.pos.toNat n, ?_, by simp, rfl, rfl, by simp, by simp, ?_⟩
  · unfold restStream
    rw [ha, hpos, ← bytesAt_add, Nat.add_sub_cancel' h1]
  · unfold available at h1
    simp only [hpos]; omega

/-- Bytes that stand next are read as they stand. -/
theorem get_of_restStream {c : InChannel} {bs rest : List Byte} (hp : c.pos.toNat ≤ c.len.toNat)
    (hr : restStream c = bs ++ rest) :
    ∃ c', get bs.length c = .ok (BitVec.ofNat 32 (leValue bs), c') ∧ restStream c' = rest ∧ c'.cnt = 0#4 ∧ ReaderOk c' := by
  have hl := congrArg List.length hr
  rw [length_restStream, List.length_append] at hl
  cases hg : get bs.length c with
  | error r => have := (get_eq_error.1 hg).1; omega
  | ok x =>
    obtain ⟨qs, h1, h2, h3, h4, h5⟩ := get_restStream hp (c' := x.2) (v := x.1) hg
    rw [hr] at h1
    obtain ⟨h6, h7⟩ := List.append_inj h1 h2.symm
    subst h6
    exact ⟨x.2, by rw [← h3], h7.symm, h4, h5⟩

/-- A packed run is read back, and what stands after it is the next byte (20_memory.md R47). -/
theorem getBits_packBits {c : InChannel} {p : Bits} {rest : List Byte} (h : ReaderOk c) (h0 : c.cnt = 0#4)
    (hr : restStream c = packBits p ++ rest) :
    ∃ c', getBits p.length c = .ok (p, c') ∧ restStream c' = rest ∧ ReaderOk c' := by
  have hb : inBits c = p ++ (List.replicate (8 * ((p.length + 7) / 8) - p.length) false ++ bitsOfBytes rest) := by
    simp [inBits, h0, hr, bitsOfBytes_packBits]
  obtain ⟨c', hg, hi, hok⟩ := getBits_of_inBits h hb
  refine ⟨c', hg, ?_, hok⟩
  have hl := congrArg List.length hi
  have h7 := hok.1
  have hcnt : (byteBits c'.buf |>.take c'.cnt.toNat).length = c'.cnt.toNat := by simp; omega
  rw [inBits, List.length_append, List.length_append, hcnt, length_bitsOfBytes, length_bitsOfBytes,
    List.length_replicate] at hl
  rw [inBits] at hi
  exact bitsOfBytes_inj (List.append_inj hi (by rw [hcnt, List.length_replicate]; omega)).2

/-! ## Fixed-width integers (20_memory.md R41) -/

theorem leValue_bytesLe_aux (v : Word) (n k : Nat) :
    leValue ((List.range' k n).map (byteOf v)) = v.toNat / 2 ^ (8 * k) % 2 ^ (8 * n) := by
  induction n generalizing k with
  | zero => simp [leValue, Nat.mod_one]
  | succ n ih =>
    rw [List.range'_succ, List.map_cons, leValue, ih (k + 1)]
    have h1 : (byteOf v k).toNat = v.toNat / 2 ^ (8 * k) % 2 ^ 8 := by
      simp [byteOf, Nat.shiftRight_eq_div_pow]
    rw [h1, show 8 * (k + 1) = 8 * k + 8 by ring, Nat.pow_add, ← Nat.div_div_eq_div_mul,
      show 8 * (n + 1) = 8 + 8 * n by ring, Nat.pow_add, Nat.mod_mul]

/-- Reading is the inverse of writing. -/
theorem leValue_bytesLe {v : Word} {n : Nat} (h : v.toNat < 2 ^ (8 * n)) : leValue (bytesLe v n) = v.toNat := by
  rw [bytesLe, List.range_eq_range', leValue_bytesLe_aux]
  simp [Nat.mod_eq_of_lt h]

/-- A value that fits comes back from its bytes. -/
theorem get_bytesLe {c : InChannel} {v : Word} {n : Nat} {rest : List Byte} (hv : v.toNat < 2 ^ (8 * n))
    (hp : c.pos.toNat ≤ c.len.toNat) (hr : restStream c = bytesLe v n ++ rest) :
    ∃ c', get n c = .ok (v, c') ∧ restStream c' = rest ∧ c'.cnt = 0#4 ∧ ReaderOk c' := by
  obtain ⟨c', h1, h2⟩ := get_of_restStream hp hr
  rw [length_bytesLe, leValue_bytesLe hv, BitVec.ofNat_toNat, BitVec.setWidth_eq] at h1
  exact ⟨c', h1, h2⟩

end Sys2Proof.Machine
end

