-- ==== Sys2Proof/Laws/Container.lean ====
section
/-! SUPPORT. The encoder's channel steps write the container's bytes (30_encoding.md R70 to R73), and the decoder's
steps read them back (46_decoder.md R151 to R157). -/

namespace Sys2Proof.Machine

/-! ## Writing -/

/-- What a fixed-width write leaves: the partial byte, padded, then the value's bytes. -/
theorem put_outStream {cap : Nat} (hcap : cap < 2 ^ 64) {op v : Word} {n : Nat} (hn : 0 < n) {c c' : OutChannel}
    (h : OutOk c) (hp : put cap op v n c = .ok c') :
    outStream c' = flushedStream c ++ bytesLe v n ∧ c'.cnt = 0#4 ∧ OutOk c' ∧ c'.opened = c.opened ∧
      c'.len.toNat ≤ cap := by
  obtain ⟨-, h2, h3, h4, h5, h6⟩ := put_eq_ok hcap hp
  refine ⟨by rw [h2.outStream, flushedStream, List.append_assoc], h3, ⟨by simp [h3], ?_⟩, h5, h6 hn⟩
  rw [h3, h4]
  split
  · next h0 => simp [h.acc_eq_zero h0]
  · simp

@[simp] theorem length_outStream (c : OutChannel) : (outStream c).length = c.len.toNat := by simp [outStream]

theorem flushedStream_of_cnt {c : OutChannel} (h : c.cnt = 0#4) : flushedStream c = outStream c := by
  simp [flushedStream, padBytes, h]

/-- One entry: the fixed-width fields, then a run of code bits. -/
theorem putEntry_spec {cap : Nat} (hcap : cap < 2 ^ 64) {e : CodeEntry} {c c' : OutChannel} (h : OutOk c)
    (hp : putEntry cap e c = .ok c') :
    ∃ d, outStream d = flushedStream c ++ entryHead e ∧ d.cnt = 0#4 ∧ OutOk d ∧ d.opened = c.opened ∧
      d.len.toNat ≤ cap ∧ putBits cap encodeOp e.bits d = .ok c' := by
  simp only [putEntry, bind_eq_ok] at hp
  obtain ⟨d1, h1, d2, h2, h3⟩ := hp
  obtain ⟨a1, a2, a3, a4, -⟩ := put_outStream hcap (by omega) h h1
  obtain ⟨b1, b2, b3, b4, b5⟩ := put_outStream hcap (by omega) a3 h2
  refine ⟨d2, ?_, b2, b3, b4.trans a4, b5, h3⟩
  rw [b1, flushedStream_of_cnt a2, a1, entryHead, List.append_assoc]

/-- The table and the payload, flushed, are `tableBytes` (30_encoding.md R72, R73). -/
theorem putTable_putBits {cap : Nat} (hcap : cap < 2 ^ 64) {es : List CodeEntry} {bits : Bits} {c d c' : OutChannel}
    (h : OutOk c) (h0 : es ≠ [] ∨ c.cnt = 0#4) (hl : c.len.toNat ≤ cap)
    (hp : putTable cap es c = .ok d) (hq : putBits cap encodeOp bits d = .ok c') :
    flushedStream c' = flushedStream c ++ tableBytes es bits ∧ OutOk c' ∧ c'.opened = c.opened ∧ c'.len.toNat ≤ cap := by
  induction es generalizing c with
  | nil =>
    simp only [putTable, Except.ok.injEq] at hp
    subst hp
    have h0 := h0.resolve_left (fun hh => hh rfl)
    obtain ⟨-, h2, h3, h4⟩ := putBits_outBits hcap h hq
    exact ⟨by rw [flushedStream_putBits hcap h h0 hq, flushedStream_of_cnt h0]; rfl, h2, h3, h4 hl⟩
  | cons e es ih =>
    simp only [putTable, bind_eq_ok] at hp
    obtain ⟨c1, hc1, hp⟩ := hp
    obtain ⟨d1, e1, e2, e3, e4, e5, e6⟩ := putEntry_spec hcap h hc1
    obtain ⟨k1, k2, k3, k4⟩ := putBits_outBits hcap e3 e6
    cases es with
    | nil =>
      simp only [putTable, Except.ok.injEq] at hp
      subst hp
      have hb : putBits cap encodeOp (e.bits ++ bits) d1 = .ok c' := by rw [putBits_append, e6]; exact hq
      obtain ⟨-, m2, m3, m4⟩ := putBits_outBits hcap e3 hb
      refine ⟨?_, m2, m3.trans e4, m4 e5⟩
      rw [flushedStream_putBits hcap e3 e2 hb, e1, tableBytes, List.append_assoc]
    | cons e' es =>
      obtain ⟨i1, i2, i3, i4⟩ := ih k2 (.inl (by simp)) (k4 e5) hp
      refine ⟨?_, i2, i3.trans (k3.trans e4), i4⟩
      rw [i1, flushedStream_putBits hcap e3 e2 e6, e1]
      simp only [tableBytes, List.append_assoc]

/-- What the encoder leaves on the channel (45_encoder.md R141). -/
theorem putContainer_spec {cap : Nat} (hcap : cap < 2 ^ 64) {seed : Nat} {ct : List CodeEntry} {ctLen : BitVec 9}
    {srcLen : Word} {text : List Byte} {c c' : OutChannel} (h : OutOk c)
    (hp : putContainer cap seed ct ctLen srcLen text c = .ok c') :
    outStream c' = flushedStream c ++ (bytesLe srcLen 4 ++ bytesLe (ctLen.setWidth 32) 2 ++
      tableBytes ct (text.flatMap (codeOf seed ct))) ∧ c'.acc = 0#8 ∧ c'.cnt = 0#4 ∧ c'.opened = c.opened ∧
      c'.len.toNat ≤ cap := by
  simp only [putContainer, bind_eq_ok] at hp
  obtain ⟨d1, h1, d2, h2, d3, h3, d4, h4, h5⟩ := hp
  obtain ⟨a1, a2, a3, a4, -⟩ := put_outStream hcap (by omega) h h1
  obtain ⟨b1, b2, b3, b4, b5⟩ := put_outStream hcap (by omega) a3 h2
  rw [putPayload_eq] at h4
  obtain ⟨e1, e2, e3, e4⟩ := putTable_putBits hcap b3 (.inr b2) b5 h3 h4
  obtain ⟨f1, f2, f3, f4, f5⟩ := flush_eq_ok hcap h5
  refine ⟨?_, ?_, f2, f4.trans (e3.trans (b4.trans a4)), ?_⟩
  · rw [f1.outStream, show outStream d4 ++ padBytes d4 = flushedStream d4 from rfl, e1, flushedStream_of_cnt b2, b1,
      flushedStream_of_cnt a2, a1]
    simp only [List.append_assoc]
  · rw [f3]; split
    · next h0 => exact e2.acc_eq_zero h0
    · rfl
  · rcases f5 with ⟨-, rfl⟩ | f5
    · exact e4
    · exact f5

/-- A run of bits finds room when its last whole byte does. -/
theorem putBits_completes {cap : Nat} (hcap : cap < 2 ^ 64) {op : Word} {bits : Bits} {c : OutChannel} (h : OutOk c)
    (hr : (outBits c).length + bits.length < 8 * (cap + 1)) : ∃ c', putBits cap op bits c = .ok c' := by
  induction bits generalizing c with
  | nil => exact ⟨c, rfl⟩
  | cons b bits ih =>
    have hl := length_outBits h
    cases hb : putBit cap op b false c with
    | error r =>
      obtain ⟨h8, hc, -⟩ := putBit_eq_error.1 hb
      have h8 : (appendBit b c).cnt = 8#4 := by simpa using h8
      have := congrArg BitVec.toNat h8
      rw [appendBit_cnt h] at this
      rw [length_outStream] at hl
      simp at this hr; omega
    | ok d =>
      obtain ⟨k1, k2, -, -⟩ := putBit_outBits hcap h hb
      obtain ⟨c', hc'⟩ := ih k2 (by rw [k1]; simp at hr ⊢; omega)
      exact ⟨c', by simp only [putBits, hb, ok_bind, hc']⟩

@[simp] theorem length_entryHead (e : CodeEntry) : (entryHead e).length = 3 := by simp [entryHead]

theorem length_flushedStream (c : OutChannel) : (flushedStream c).length = c.len.toNat + (padBytes c).length := by
  simp [flushedStream]

theorem length_outBits_le {c : OutChannel} (h : OutOk c) : (outBits c).length ≤ 8 * (flushedStream c).length := by
  have := congrArg List.length (bitsOfBytes_flushedStream h)
  simp at this; omega

theorem putEntry_completes {cap : Nat} (hcap : cap < 2 ^ 64) {e : CodeEntry} {c : OutChannel} (h : OutOk c)
    (hr : (flushedStream c).length + 3 + (e.bits.length + 7) / 8 ≤ cap) : ∃ c', putEntry cap e c = .ok c' := by
  rw [length_flushedStream] at hr
  obtain ⟨d1, h1⟩ := put_completes hcap (op := encodeOp) (v := e.sym.setWidth 32) (n := 1) (by omega) (c := c)
    (by have := e.sym.isLt; simp; omega) (by omega)
  obtain ⟨a1, a2, a3, -, -⟩ := put_outStream hcap (by omega) h h1
  have l1 := congrArg List.length a1
  simp only [length_outStream, List.length_append, length_flushedStream, length_bytesLe] at l1
  obtain ⟨d2, h2⟩ := put_completes hcap (op := encodeOp) (v := e.len.setWidth 32) (n := 2) (by omega) (c := d1)
    (by have := e.len.isLt; simp; omega) (by simp [padBytes, a2]; omega)
  obtain ⟨b1, b2, b3, -, -⟩ := put_outStream hcap (by omega) a3 h2
  have l2 := congrArg List.length b1
  simp only [length_outStream, List.length_append, flushedStream_of_cnt a2, length_bytesLe] at l2
  obtain ⟨d3, h3⟩ := putBits_completes hcap (op := encodeOp) (bits := e.bits) b3
    (by rw [length_outBits b3, length_outStream, b2]; simp; omega)
  exact ⟨d3, by simp only [putEntry, h1, h2, h3, ok_bind]⟩

theorem putTable_putBits_completes {cap : Nat} (hcap : cap < 2 ^ 64) {es : List CodeEntry} {bits : Bits} {c : OutChannel}
    (h : OutOk c) (h0 : es ≠ [] ∨ c.cnt = 0#4) (hr : (flushedStream c).length + (tableBytes es bits).length ≤ cap) :
    ∃ d c', putTable cap es c = .ok d ∧ putBits cap encodeOp bits d = .ok c' := by
  induction es generalizing c with
  | nil =>
    have h0 := h0.resolve_left (fun hh => hh rfl)
    simp only [tableBytes, length_packBits, flushedStream_of_cnt h0] at hr
    obtain ⟨c', hc'⟩ := putBits_completes hcap (op := encodeOp) (bits := bits) h
      (by rw [length_outBits h, h0]; simp at hr ⊢; omega)
    exact ⟨c, c', rfl, hc'⟩
  | cons e es ih =>
    have hlow : (flushedStream c).length + 3 + (e.bits.length + 7) / 8 ≤ cap := by
      cases es with
      | nil => simp only [tableBytes, List.length_append, length_entryHead, length_packBits] at hr; omega
      | cons e' es => simp only [tableBytes, List.length_append, length_entryHead, length_packBits] at hr; omega
    obtain ⟨c1, hc1⟩ := putEntry_completes hcap h hlow
    obtain ⟨d1, e1, e2, e3, -, -, e6⟩ := putEntry_spec hcap h hc1
    obtain ⟨-, k2, -, -⟩ := putBits_outBits hcap e3 e6
    have l1 := congrArg List.length e1
    simp only [length_outStream, List.length_append, length_entryHead] at l1
    cases es with
    | nil =>
      simp only [tableBytes, List.length_append, length_entryHead, length_packBits] at hr
      obtain ⟨c', hc'⟩ := putBits_completes hcap (op := encodeOp) (bits := e.bits ++ bits) e3
        (by rw [length_outBits e3, length_outStream, e2]; simp at hr ⊢; omega)
      rw [putBits_append, e6] at hc'
      exact ⟨c1, c', by simp only [putTable, hc1, ok_bind], hc'⟩
    | cons e' es =>
      have l2 := congrArg List.length (flushedStream_putBits hcap e3 e2 e6)
      simp only [List.length_append, length_outStream, length_packBits] at l2
      simp only [tableBytes, List.length_append, length_entryHead, length_packBits] at hr
      obtain ⟨d, c', hd, hc'⟩ := ih k2 (.inl (by simp)) (by omega)
      exact ⟨d, c', by rw [putTable, hc1]; exact hd, hc'⟩

/-- The encoder finishes when the container finds room. -/
theorem putContainer_completes {cap : Nat} (hcap : cap < 2 ^ 64) {seed : Nat} {ct : List CodeEntry} {ctLen : BitVec 9}
    {srcLen : Word} {text : List Byte} {c : OutChannel} (h : OutOk c)
    (hr : (flushedStream c).length + 6 + (tableBytes ct (text.flatMap (codeOf seed ct))).length ≤ cap) :
    ∃ c', putContainer cap seed ct ctLen srcLen text c = .ok c' := by
  rw [length_flushedStream] at hr
  obtain ⟨d1, h1⟩ := put_completes hcap (op := encodeOp) (v := srcLen) (n := 4) (by omega) (c := c)
    (by have := srcLen.isLt; omega) (by omega)
  obtain ⟨a1, a2, a3, -, -⟩ := put_outStream hcap (by omega) h h1
  have l1 := congrArg List.length a1
  simp only [length_outStream, List.length_append, length_flushedStream, length_bytesLe] at l1
  obtain ⟨d2, h2⟩ := put_completes hcap (op := encodeOp) (v := ctLen.setWidth 32) (n := 2) (by omega) (c := d1)
    (by have := ctLen.isLt; simp; omega) (by simp [padBytes, a2]; omega)
  obtain ⟨b1, b2, b3, -, b5⟩ := put_outStream hcap (by omega) a3 h2
  have l2 := congrArg List.length b1
  simp only [length_outStream, List.length_append, flushedStream_of_cnt a2, length_bytesLe] at l2
  obtain ⟨d3, d4, h3, h4⟩ := putTable_putBits_completes hcap (bits := text.flatMap (codeOf seed ct)) (es := ct) b3
    (.inr b2) (by rw [flushedStream_of_cnt b2, length_outStream]; omega)
  obtain ⟨e1, -, -, -⟩ := putTable_putBits hcap b3 (.inr b2) b5 h3 h4
  have l3 := congrArg List.length e1
  simp only [length_flushedStream, List.length_append] at l3
  have p2 : (padBytes d2).length = 0 := by simp [padBytes, b2]
  cases hf : flush cap encodeOp d4 with
  | ok c' => exact ⟨c', by simp only [putContainer, h1, h2, h3, putPayload_eq, h4, hf, ok_bind]⟩
  | error r =>
    obtain ⟨⟨hne, hcp⟩, -⟩ := flush_eq_error.1 hf
    rw [padBytes, if_neg hne, List.length_singleton] at l3
    omega

/-! ## Reading -/

theorem lookupCode_append (m m' : List MapEntry) (p : Bits) :
    lookupCode (m ++ m') p = (lookupCode m p).or (lookupCode m' p) := by
  simp only [lookupCode, List.find?_append]
  cases m.find? (fun e => e.bits == p) <;> simp

theorem lookupCode_eq_none {m : List MapEntry} {p : Bits} : lookupCode m p = none ↔ ∀ e ∈ m, e.bits ≠ p := by
  simp [lookupCode]

/-- In a map whose codes are pairwise distinct an entry is found by its code. -/
theorem lookupCode_of_mem {m : List MapEntry} (h : (m.map MapEntry.bits).Nodup) {e : MapEntry} (he : e ∈ m) :
    lookupCode m e.bits = some e.sym := by
  unfold lookupCode
  cases hf : m.find? fun x => x.bits == e.bits with
  | none =>
    rw [List.find?_eq_none] at hf
    exact absurd (hf e he) (by simp)
  | some x =>
    have h2 : x.bits = e.bits := by simpa using List.find?_some hf
    have : x = e := List.inj_on_of_nodup_map h (List.mem_of_find?_eq_some hf) he h2
    simp [this]

/-- The map the decoder builds from an encoder's table. -/
def mapOf (ct : List CodeEntry) : List MapEntry := ct.map fun e => ⟨e.bits, e.sym⟩

/-- The entry's fixed-width fields are read back, then the length is checked (46_decoder.md R151, R153). -/
theorem getEntry_of_head {dcodeMax : Nat} {e : CodeEntry} {c : InChannel} {rest : List Byte}
    (hp : c.pos.toNat ≤ c.len.toNat) (hr : restStream c = entryHead e ++ rest) :
    ∃ d, restStream d = rest ∧ d.cnt = 0#4 ∧ ReaderOk d ∧ SameStream c d ∧
      getEntry dcodeMax c =
        if dcodeMax < e.len.toNat then .error ⟨.capacity, decodeOp⟩
        else getBits e.len.toNat d >>= fun x => .ok (⟨x.1, e.sym⟩, x.2) := by
  rw [entryHead, List.append_assoc] at hr
  obtain ⟨d1, h1, r1, -, k1⟩ := get_bytesLe (by have := e.sym.isLt; simp; omega) hp hr
  obtain ⟨d2, h2, r2, c2, k2⟩ := get_bytesLe (by have := e.len.isLt; simp; omega) k1.2.2 r1
  have hl : (BitVec.setWidth 32 e.len).toNat = e.len.toNat := by have := e.len.isLt; simp; omega
  refine ⟨d2, r2, c2, k2, (get_sameStream h1).trans (get_sameStream h2), ?_⟩
  simp only [getEntry, h1, h2, ok_bind, hl]
  split
  · rfl
  · cases getBits e.len.toNat d2 with
    | ok x => simp
    | error r => rfl

/-- An entry whose length is that of its code bits is read up to those. -/
theorem getEntry_of_stream {dcodeMax : Nat} {e : CodeEntry} {c : InChannel} {rest : List Byte}
    (hlen : e.len = BitVec.ofNat 16 e.bits.length) (hb : e.bits.length < 2 ^ 16) (hd : e.bits.length ≤ dcodeMax)
    (hp : c.pos.toNat ≤ c.len.toNat) (hr : restStream c = entryHead e ++ rest) :
    ∃ d, restStream d = rest ∧ d.cnt = 0#4 ∧ ReaderOk d ∧
      getEntry dcodeMax c = (getBits e.bits.length d >>= fun x => .ok (⟨x.1, e.sym⟩, x.2)) := by
  obtain ⟨d, h1, h2, h3, -, h4⟩ := getEntry_of_head (dcodeMax := dcodeMax) hp hr
  have hl : e.len.toNat = e.bits.length := by rw [hlen]; simp; omega
  exact ⟨d, h1, h2, h3, by rw [h4, hl, if_neg (not_lt.2 hd)]⟩

/-- The decoder rebuilds an encoder's table and stands before the payload, which the padding of the last byte follows
(46_decoder.md R153). -/
theorem getTable_of_stream {dcodeMax : Nat} {es : List CodeEntry} {bits : Bits} {trail : List Byte} (hne : es ≠ [])
    (hlen : ∀ e ∈ es, e.len = BitVec.ofNat 16 e.bits.length ∧ e.bits.length < 2 ^ 16 ∧ e.bits.length ≤ dcodeMax)
    {m : List MapEntry} {i : Nat} {c : InChannel} (hnd : ((m ++ mapOf es).map MapEntry.bits).Nodup)
    (hp : c.pos.toNat ≤ c.len.toNat) (hr : restStream c = tableBytes es bits ++ trail) :
    ∃ c' k, getTable dcodeMax es.length i m c = .ok (m ++ mapOf es, c') ∧ ReaderOk c' ∧ k < 8 ∧
      (∀ e ∈ es.getLast?, (e.bits.length + bits.length + k) % 8 = 0) ∧
      inBits c' = bits ++ (List.replicate k false ++ bitsOfBytes trail) := by
  induction es generalizing m i c with
  | nil => exact absurd rfl hne
  | cons e es ih =>
    obtain ⟨he1, he2, he3⟩ := hlen e (by simp)
    have hnew : (lookupCode m e.bits).isSome = false := by
      rw [← Bool.not_eq_true, Option.not_isSome_iff_eq_none, lookupCode_eq_none]
      intro x hx hxe
      rw [List.map_append, List.nodup_append] at hnd
      exact hnd.2.2 _ (List.mem_map_of_mem hx) _ (List.mem_map.2 ⟨⟨e.bits, e.sym⟩, by simp [mapOf], rfl⟩) hxe
    cases es with
    | nil =>
      rw [tableBytes, List.append_assoc] at hr
      obtain ⟨d, r1, c1, k1, g1⟩ := getEntry_of_stream he1 he2 he3 hp hr
      have hb : inBits d = e.bits ++ (bits ++ (List.replicate (8 * (((e.bits ++ bits).length + 7) / 8) -
          (e.bits ++ bits).length) false ++ bitsOfBytes trail)) := by
        simp only [inBits, c1, r1, bitsOfBytes_append, bitsOfBytes_packBits, List.append_assoc]
        rfl
      obtain ⟨d', g2, i2, k2⟩ := getBits_of_inBits k1 hb
      refine ⟨d', _, ?_, k2, by omega, ?_, i2⟩
      · simp only [List.length_singleton, getTable, g1, g2, ok_bind, hnew]
        rfl
      · intro x hx
        simp only [List.getLast?_singleton, Option.mem_some_iff] at hx
        subst hx
        rw [List.length_append]; omega
    | cons e' es =>
      rw [tableBytes, List.append_assoc, List.append_assoc] at hr
      obtain ⟨d, r1, c1, k1, g1⟩ := getEntry_of_stream he1 he2 he3 hp hr
      obtain ⟨d', g2, r2, k2⟩ := getBits_packBits k1 c1 r1
      have hm : m ++ mapOf (e :: e' :: es) = (m ++ [⟨e.bits, e.sym⟩]) ++ mapOf (e' :: es) := by simp [mapOf]
      obtain ⟨c', k, h1, h2, h3, h4⟩ := ih (by simp) (fun x hx => hlen x (by simp only [List.mem_cons] at hx ⊢; tauto))
        (m := m ++ [⟨e.bits, e.sym⟩]) (i := i + 1) (by rw [← hm]; exact hnd) k2.2.2 r2
      refine ⟨c', k, ?_, h2, h3, by simpa using h4⟩
      rw [List.length_cons, getTable, g1, g2]
      simp only [ok_bind, hnew, Bool.false_eq_true, if_false, hm]
      exact h1

/-! ## The payload -/

/-- Reading one bit leaves one less. -/
theorem getBit_bitsLeft {c c' : InChannel} {b : Bool} (h : getBit c = .ok (b, c')) : bitsLeft c' + 1 = bitsLeft c := by
  rcases getBit_eq_ok h with ⟨hne, -, rfl⟩ | ⟨h0, ha, -, rfl⟩
  · have hpos : 0 < c.cnt.toNat := by
      rcases Nat.eq_zero_or_pos c.cnt.toNat with hz | hz
      · exact absurd (BitVec.eq_of_toNat_eq (by simpa using hz)) hne
      · exact hz
    have hc : (c.cnt - 1#4).toNat = c.cnt.toNat - 1 := by
      have := c.cnt.isLt
      rw [BitVec.toNat_sub]; simp; omega
    simp only [bitsLeft, available, hc]; omega
  · have hd : (c.pos + 1#64).toNat = c.pos.toNat + 1 := (pos_add_toNat (n := 1) ha).resolve_right (by omega)
    unfold available at ha
    simp only [bitsLeft, available, h0, hd]; simp; omega

/-- The payload loop satisfies the spec's own equation: fuel plays no part (46_decoder.md R156; log 19). -/
theorem matchCode_eq (m : List MapEntry) (cand : Bits) (c : InChannel) :
    matchCode m (bitsLeft c) cand c =
      match lookupCode m cand with
      | some s => .ok (s, c)
      | none => getBit c >>= fun x => matchCode m (bitsLeft x.2) (cand ++ [x.1]) x.2 := by
  cases hl : lookupCode m cand with
  | some s => cases hb : bitsLeft c <;> simp only [matchCode, hl]
  | none =>
    cases hg : getBit c with
    | error r =>
      obtain ⟨⟨h0, ha⟩, rfl⟩ := getBit_eq_error.1 hg
      have hb : bitsLeft c = 0 := by simp [bitsLeft, h0, ha]
      simp only [hb, matchCode, hl]; rfl
    | ok x =>
      have hb := getBit_bitsLeft (c := c) (c' := x.2) (b := x.1) hg
      rw [← hb]
      simp only [matchCode, hl, hg, ok_bind]

theorem matchCode_sameStream {m : List MapEntry} {fuel : Nat} {cand : Bits} {c c' : InChannel} {b : Byte}
    (h : matchCode m fuel cand c = .ok (b, c')) : SameStream c c' := by
  induction fuel generalizing cand c with
  | zero =>
    unfold matchCode at h
    split at h
    · cases h; exact .refl _
    · cases h
  | succ n ih =>
    unfold matchCode at h
    split at h
    · cases h; exact .refl _
    · simp only [bind_eq_ok, Prod.exists] at h
      obtain ⟨e, c1, h1, h⟩ := h
      exact (getBit_sameStream h1).trans (ih h)

/-- An entry of which no other entry's code is a prefix: its bits lead to it, since the first match wins
(46_decoder.md R156, R162). -/
def Reachable (m : List MapEntry) (e : MapEntry) : Prop := e ∈ m ∧ ∀ x ∈ m, x.bits <+: e.bits → x = e

theorem Reachable.lookup {m : List MapEntry} {e : MapEntry} (h : Reachable m e) : lookupCode m e.bits = some e.sym := by
  unfold lookupCode
  cases hf : m.find? fun x => x.bits == e.bits with
  | none =>
    rw [List.find?_eq_none] at hf
    exact absurd (hf e h.1) (by simp)
  | some x =>
    have h2 : x.bits = e.bits := by simpa using List.find?_some hf
    have : x = e := h.2 x (List.mem_of_find?_eq_some hf) (by rw [h2])
    simp [this]

/-- From a prefix of a code, the rest of the code leads to its symbol (46_decoder.md R156). -/
theorem matchCode_of_inBits {m : List MapEntry} {e : MapEntry} (h : Reachable m e) {cand p more : Bits}
    (hc : cand ++ p = e.bits) {c : InChannel} (hk : ReaderOk c) (hb : inBits c = p ++ more) :
    ∃ c', matchCode m (bitsLeft c) cand c = .ok (e.sym, c') ∧ inBits c' = more ∧ ReaderOk c' := by
  induction p generalizing cand c with
  | nil =>
    rw [List.append_nil] at hc
    subst hc
    exact ⟨c, by rw [matchCode_eq, h.lookup], by simpa using hb, hk⟩
  | cons b p ih =>
    have hnone : lookupCode m cand = none := by
      rw [lookupCode_eq_none]
      rintro x hx rfl
      have := h.2 x hx ⟨b :: p, hc⟩
      subst this
      simp at hc
    have hlen : 1 ≤ bitsLeft c := by
      rw [← length_inBits (by have := hk.1; omega), hb]; simp
    obtain ⟨b', d, hd⟩ := getBit_completes hlen
    have h1 := (getBit_inBits hk.inOk hd).1
    rw [hb, List.cons_append, List.cons.injEq] at h1
    obtain ⟨rfl, h1⟩ := h1
    obtain ⟨c', g1, g2, g3⟩ := ih (cand := cand ++ [b]) (by simpa using hc) (getBit_readerOk hk hd) h1.symm
    refine ⟨c', ?_, g2, g3⟩
    rw [matchCode_eq, hnone, hd]
    exact g1

/-- A bit string of which no code is a prefix matches nothing: the loop reads to the end of the stream and faults there
(46_decoder.md R158, R163). -/
theorem matchCode_stuck {m : List MapEntry} {cand : Bits} {c : InChannel} (h : ReaderOk c)
    (hn : ∀ e ∈ m, cand <+: e.bits → ¬ e.bits <+: cand ++ inBits c) :
    matchCode m (bitsLeft c) cand c = .error ⟨.truncated, c.len.setWidth 32⟩ := by
  have hnone : lookupCode m cand = none := by
    rw [lookupCode_eq_none]
    rintro x hx rfl
    exact hn x hx (List.prefix_refl _) (List.prefix_append _ _)
  rw [matchCode_eq, hnone]
  cases hg : getBit c with
  | error r =>
    obtain ⟨⟨-, ha⟩, rfl⟩ := getBit_eq_error.1 hg
    have := h.2.2
    have : c.pos = c.len := BitVec.eq_of_toNat_eq (by unfold available at ha; omega)
    rw [this]; rfl
  | ok x =>
    have hb := getBit_bitsLeft (c := c) (c' := x.2) (b := x.1) hg
    have hi := (getBit_inBits h.inOk (c' := x.2) (b := x.1) hg).1
    rw [← (getBit_sameStream (c' := x.2) (b := x.1) hg).2.1]
    exact matchCode_stuck (getBit_readerOk (c' := x.2) (b := x.1) h hg) fun e he hp hq =>
      hn e he ((List.prefix_append _ _).trans hp) (by rw [hi]; simpa using hq)
termination_by bitsLeft c
decreasing_by omega

/-- The payload decodes to the symbols whose codes it concatenates, and the loop goes on behind them (46_decoder.md
R157). -/
theorem getPayload_of_inBits {m : List MapEntry} {code : Byte → Bits} {text : List Byte}
    (ht : ∀ s ∈ text, ∃ e, Reachable m e ∧ e.sym = s ∧ e.bits = code s) {more : Bits} {k : Nat} {dst : Memory}
    {c : InChannel} (hk : ReaderOk c) (hb : inBits c = text.flatMap code ++ more) :
    ∃ dst' c', (∀ n, getPayload m (text.length + n) k dst c = getPayload m n (k + text.length) dst' c') ∧
      inBits c' = more ∧ ReaderOk c' ∧ SameStream c c' ∧
      ∀ a, byteAt .dst dst' a =
        if k ≤ a ∧ a < k + text.length then text.getD (a - k) 0#8 else byteAt .dst dst a := by
  induction text generalizing k dst c with
  | nil =>
    refine ⟨dst, c, fun n => by simp, by simpa using hb, hk, .refl _, fun a => ?_⟩
    rw [if_neg (by simp)]
  | cons s text ih =>
    obtain ⟨e, he, rfl, hcode⟩ := ht s (by simp)
    rw [List.flatMap_cons, List.append_assoc, ← hcode] at hb
    obtain ⟨d, g1, g2, g3⟩ := matchCode_of_inBits he (cand := []) (p := e.bits) rfl hk hb
    obtain ⟨dst', c', h1, h2, h3, h5, h4⟩ := ih (fun x hx => ht x (by simp [hx])) (k := k + 1)
      (dst := Memory.write dst k e.sym) g3 g2
    refine ⟨dst', c', fun n => ?_, h2, h3, (matchCode_sameStream g1).trans h5, fun a => ?_⟩
    · rw [List.length_cons, show text.length + 1 + n = text.length + n + 1 by omega, getPayload, getSymbol, g1, ok_bind,
        show k + (text.length + 1) = k + 1 + text.length by omega]
      exact h1 n
    · rw [h4, byteAt_write, List.length_cons]
      by_cases h0 : a = k
      · subst h0; rw [if_neg (by omega), if_pos rfl, if_pos (by omega)]; simp
      · rw [if_neg h0]
        by_cases hh : k + 1 ≤ a ∧ a < k + 1 + text.length
        · rw [if_pos hh, if_pos (by omega), show a - k = a - (k + 1) + 1 by omega, List.getD_cons_succ]
        · rw [if_neg hh, if_neg (by omega)]

/-- With less than a byte of padding before whole bytes, the reader stands in front of those bytes. -/
theorem restStream_of_inBits {c : InChannel} (h : ReaderOk c) {k : Nat} (hk : k < 8) {trail : List Byte}
    (hb : inBits c = List.replicate k false ++ bitsOfBytes trail) : restStream c = trail := by
  have h7 := h.1
  have hcnt : ((byteBits c.buf).take c.cnt.toNat).length = c.cnt.toNat := by simp; omega
  have hl := congrArg List.length hb
  rw [inBits, List.length_append, hcnt, List.length_append, length_bitsOfBytes, length_bitsOfBytes,
    List.length_replicate] at hl
  rw [inBits] at hb
  exact bitsOfBytes_inj (List.append_inj hb (by rw [hcnt, List.length_replicate]; omega)).2

/-! ## The decoder leaves the stream and the open flag alone -/

theorem getEntry_sameStream {d : Nat} {c c' : InChannel} {e : MapEntry} (h : getEntry d c = .ok (e, c')) : SameStream c c' := by
  simp only [getEntry, bind_eq_ok, Prod.exists] at h
  obtain ⟨v, c1, h1, l, c2, h2, h⟩ := h
  split at h
  · cases h
  · simp only [bind_eq_ok, Prod.exists, Except.ok.injEq, Prod.mk.injEq] at h
    obtain ⟨p, c3, h3, -, rfl⟩ := h
    exact ((get_sameStream h1).trans (get_sameStream h2)).trans (getBits_sameStream h3)

theorem getTable_sameStream {d n i : Nat} {m m' : List MapEntry} {c c' : InChannel} (h : getTable d n i m c = .ok (m', c')) : SameStream c c' := by
  induction n generalizing i m c with
  | zero => cases h; exact .refl _
  | succ n ih =>
    simp only [getTable, bind_eq_ok, Prod.exists] at h
    obtain ⟨e, c1, h1, h⟩ := h
    split at h
    · cases h
    · exact (getEntry_sameStream h1).trans (ih h)

theorem getPayload_sameStream {m : List MapEntry} {n k : Nat} {d d' : Memory} {c c' : InChannel}
    (h : getPayload m n k d c = .ok (d', c')) : SameStream c c' := by
  induction n generalizing k d c with
  | zero => cases h; exact .refl _
  | succ n ih =>
    simp only [getPayload, bind_eq_ok, Prod.exists] at h
    obtain ⟨e, c1, h1, h⟩ := h
    exact (matchCode_sameStream h1).trans (ih h)

end Sys2Proof.Machine
end

