-- ==== Sys2Proof/Laws/Step.lean ====
section
/-! SUPPORT. What a step is for each event, and what dispatch is for each word (47_system.md R170, R172). -/

namespace Sys2Proof.Machine

theorem step_nil {s : State} (h : s.pending = []) : step s = .next s := by simp only [step, h]

theorem step_cons {s : State} {e : Event} {rest : List Event} (h : s.pending = e :: rest) :
    step s = perform e (afterEvent rest s) := by simp only [step, h]

theorem toNat_setWidth_word (c : Word) : (c.setWidth 64).toNat = c.toNat := by
  have := c.isLt
  rw [BitVec.toNat_setWidth]; exact Nat.mod_eq_of_lt (by omega)

@[simp] theorem setWidth_setWidth_word (c : Word) : (c.setWidth 64).setWidth 32 = c := by
  refine BitVec.eq_of_toNat_eq ?_
  rw [BitVec.toNat_setWidth, toNat_setWidth_word]
  exact Nat.mod_eq_of_lt c.isLt

/-- A write of a 32-bit register with a value that fits is offered. -/
theorem offered_writeReg {p : Params} {i : Nat} (hi : i = 0 ∨ i = 1 ∨ i = 5) (c : Word) :
    HostAction.offered p (.writeReg i (c.setWidth 64)) = true := by
  have h := c.isLt
  rw [HostAction.offered, toNat_setWidth_word]
  rcases hi with rfl | rfl | rfl <;> simp [h]

theorem perform_writeReg {i : Nat} (hi : i = 0 ∨ i = 1 ∨ i = 5) (c : Word) (s : State) :
    perform (.host (.writeReg i (c.setWidth 64))) s = writeReg i (c.setWidth 64) s := by
  simp only [perform, hostAction, offered_writeReg hi, if_true]

/-- The host's write of a command word is its dispatch. -/
theorem step_cmdWrite {s : State} {c : Word} {rest : List Event} (h : s.pending = cmdWrite c :: rest) :
    step s = dispatch c (afterEvent rest s) := by
  rw [step_cons h, cmdWrite, perform_writeReg (.inl rfl), writeReg, setWidth_setWidth_word]

theorem dispatch_of_decode {s : State} {c : Word} {i : Instr} (he : s.err = none) (hd : decode c = .ok i) :
    dispatch c s = exec i s := by simp [dispatch, he, hd]

theorem dispatch_latched {s : State} {c : Word} {e : Err} (he : s.err = some e) :
    dispatch c s = if c = sresetWord then exec .sreset s else .next s := by simp [dispatch, he]

theorem dispatch_illegal {s : State} {c : Word} {r : Reject} (he : s.err = none) (hd : decode c = .error r) :
    dispatch c s = .next { s with err := some .illegal, errInfo := c } := by simp [dispatch, he, hd, takeFault]

/-- Encoding and decoding, one command at a time. -/
@[simp] theorem decode_encode (i : Instr) : decode (encode i) = .ok i := by
  cases i
  case wbit f => cases f <;> rfl
  all_goals rfl

theorem dispatch_encode {s : State} (he : s.err = none) (i : Instr) : dispatch (encode i) s = exec i s :=
  dispatch_of_decode he (decode_encode i)

/-- Once a fault is latched the rest of a command sequence does nothing, unless it contains `SRESET`. -/
theorem runCommands_latched {s : State} {e : Err} (he : s.err = some e) {is : List Instr} (h : Instr.sreset ∉ is) :
    runCommands is s = .next s := by
  induction is with
  | nil => rfl
  | cons i is ih =>
    have hi : encode i ≠ sresetWord := by
      intro hh
      have h1 : decode (encode i) = decode sresetWord := by rw [hh]
      rw [decode_encode, show decode sresetWord = .ok .sreset from rfl, Except.ok.injEq] at h1
      exact h (by simp [h1])
    rw [runCommands, dispatch_latched he, if_neg hi]
    exact ih fun hh => h (by simp [hh])

theorem runCommands_cons {s t : State} (he : s.err = none) {i : Instr} (h : exec i s = .next t) (is : List Instr) :
    runCommands (i :: is) s = runCommands is t := by
  rw [runCommands, dispatch_encode he, h]

/-! ## How a command ends -/

/-- A command whose pseudocode stops at a `raise` faults with it. -/
theorem faultsWith_of_error {i : Instr} {s : State} {x : Except Raise State} {code : Err} {info : Word}
    (he : exec i s = finish i s x) (hx : x = .error ⟨code, info⟩) : FaultsWith i code info s := by
  refine ⟨takeFault (writesOf i) ⟨code, info⟩ s, by rw [he, hx]; rfl, rfl, rfl, fun e h => takeFault_agree h _ s,
    takeFault_sameModelFields _ _ s⟩

/-- After a command either its pseudocode completed, or it stopped at a `raise` that is now latched. -/
theorem finish_cases {i : Instr} {s t : State} {x : Except Raise State} (h : finish i s x = .next t) :
    x = .ok t ∨ ∃ r, x = .error r ∧ t = takeFault (writesOf i) r s := by
  cases x with
  | ok u => rw [finish_ok, Host.Outcome.next.injEq] at h; exact .inl (by rw [h])
  | error r => rw [finish_error, Host.Outcome.next.injEq] at h; exact .inr ⟨r, rfl, h.symm⟩

/-- A command that leaves no fault completed its pseudocode. -/
theorem finish_ok_of_err {i : Instr} {s t : State} {x : Except Raise State} (h : finish i s x = .next t)
    (ht : t.err = none) : x = .ok t := by
  rcases finish_cases h with hx | ⟨r, -, rfl⟩
  · exact hx
  · simp at ht

theorem succeeded_eq_some {o : Host.Outcome State Fault Refusal} {t : State} :
    succeeded o = some t ↔ o = .next t ∧ t.err = none := by
  cases o with
  | next u =>
    simp only [succeeded, Host.Outcome.next.injEq]
    split
    · next h => simp only [Option.some.injEq]; exact ⟨fun hh => ⟨hh, hh ▸ h⟩, fun hh => hh.1⟩
    · next h =>
      simp only [reduceCtorEq, false_iff, not_and]
      rintro rfl; exact h
  | fault f => simp [succeeded]
  | refused r => simp [succeeded]

end Sys2Proof.Machine
end

