-- ==== Sys2Proof/Laws/Commands.lean ====
section
/-! SUPPORT. One pair of inversion lemmas per command: what its pseudocode leaves when it completes, and why it stops
when it stops. -/

namespace Sys2Proof.Machine

theorem ok_eq {α : Type} {a t : α} : (Except.ok a : Except Raise α) = .ok t ↔ t = a :=
  ⟨fun h => by injection h with h; exact h.symm, fun h => by rw [h]⟩

theorem error_eq {α : Type} {q r : Raise} : (Except.error q : Except Raise α) = .error r ↔ r = q :=
  ⟨fun h => by injection h with h; exact h.symm, fun h => by rw [h]⟩

/-! ## Writer -/

theorem wopenBody_ok {s t : State} : wopenBody s = .ok t ↔
    s.out.opened = false ∧ t = { s with out := ⟨0#8, 0#4, true, s.out.cbo, 0#64⟩ } := by
  unfold wopenBody; split <;> simp_all [ok_eq, -Except.ok.injEq, -Except.error.injEq]

theorem wopenBody_error {s : State} {r : Raise} : wopenBody s = .error r ↔
    s.out.opened = true ∧ r = ⟨.seq, 0x10#32⟩ := by
  unfold wopenBody; split <;> simp_all [error_eq, -Except.ok.injEq, -Except.error.injEq]

theorem putBody_ok {op : Word} {n : Nat} {s t : State} : putBody op n s = .ok t ↔
    s.out.opened = true ∧ ∃ c, put s.params.cboCap op s.wdata n s.out = .ok c ∧ t = { s with out := c } := by
  unfold putBody operand; split
  · next h => simp [h, bind_eq_ok, ok_eq, -Except.ok.injEq, -Except.error.injEq]
  · next h => simp [h]

theorem putBody_error {op : Word} {n : Nat} {s : State} {r : Raise} : putBody op n s = .error r ↔
    (s.out.opened = false ∧ r = ⟨.closed, op⟩) ∨
      (s.out.opened = true ∧ put s.params.cboCap op s.wdata n s.out = .error r) := by
  unfold putBody operand; split
  · next h => simp [h, bind_eq_error]
  · next h => simp [h, error_eq, -Except.ok.injEq, -Except.error.injEq]

theorem wbitBody_ok {f : Bool} {s t : State} : wbitBody f s = .ok t ↔
    s.out.opened = true ∧ s.wdata.toNat ≤ 1 ∧
      ∃ c, putBit s.params.cboCap 0x14#32 (s.wdata.getLsbD 0) f s.out = .ok c ∧ t = { s with out := c } := by
  unfold wbitBody operand; split
  · next h =>
    split
    · next h1 => simp; omega
    · next h1 => simp [h, bind_eq_ok, not_lt.1 h1, ok_eq, -Except.ok.injEq, -Except.error.injEq]
  · next h => simp [h]

theorem wbitBody_error {f : Bool} {s : State} {r : Raise} : wbitBody f s = .error r ↔
    (s.out.opened = false ∧ r = ⟨.closed, 0x14#32⟩) ∨
      (s.out.opened = true ∧ 1 < s.wdata.toNat ∧ r = ⟨.bitValue, s.wdata⟩) ∨
      (s.out.opened = true ∧ s.wdata.toNat ≤ 1 ∧
        putBit s.params.cboCap 0x14#32 (s.wdata.getLsbD 0) f s.out = .error r) := by
  unfold wbitBody operand; split
  · next h =>
    split
    · next h1 => simp [h, h1, not_le.2 h1, error_eq, -Except.ok.injEq, -Except.error.injEq]
    · next h1 => simp [h, h1, not_lt.1 h1, bind_eq_error]
  · next h => simp [h, error_eq, -Except.ok.injEq, -Except.error.injEq]

theorem wcloseBody_ok {s t : State} : wcloseBody s = .ok t ↔
    s.out.opened = true ∧
      ∃ c, flush s.params.cboCap 0x15#32 s.out = .ok c ∧ t = { s with out := { c with opened := false } } := by
  unfold wcloseBody; split
  · next h => simp [h, bind_eq_ok, ok_eq, -Except.ok.injEq, -Except.error.injEq]
  · next h => simp [h]

theorem wcloseBody_error {s : State} {r : Raise} : wcloseBody s = .error r ↔
    (s.out.opened = false ∧ r = ⟨.closed, 0x15#32⟩) ∨
      (s.out.opened = true ∧ flush s.params.cboCap 0x15#32 s.out = .error r) := by
  unfold wcloseBody; split
  · next h => simp [h, bind_eq_error]
  · next h => simp [h, error_eq, -Except.ok.injEq, -Except.error.injEq]

/-! ## Reader -/

theorem ropenBody_ok {s t : State} : ropenBody s = .ok t ↔
    s.inp.opened = false ∧ s.inp.len.toNat ≤ s.params.cbiCap ∧
      t = { s with inp := ⟨0#8, 0#4, 0#64, true, s.inp.cbi, s.inp.len⟩ } := by
  unfold ropenBody; split
  · next h => simp [h]
  · next h =>
    split
    · next h1 => simp; omega
    · next h1 => simp [h, not_lt.1 h1, ok_eq, -Except.ok.injEq, -Except.error.injEq]

theorem ropenBody_error {s : State} {r : Raise} : ropenBody s = .error r ↔
    (s.inp.opened = true ∧ r = ⟨.seq, 0x20#32⟩) ∨
      (s.inp.opened = false ∧ s.params.cbiCap < s.inp.len.toNat ∧ r = ⟨.capacity, 0x20#32⟩) := by
  unfold ropenBody; split
  · next h => simp [h, error_eq, -Except.ok.injEq, -Except.error.injEq]
  · next h =>
    split
    · next h1 => simp [h, h1, error_eq, -Except.ok.injEq, -Except.error.injEq]
    · next h1 => simp [h, h1]

theorem getBody_ok {op : Word} {n : Nat} {s t : State} : getBody op n s = .ok t ↔
    s.inp.opened = true ∧ ∃ v c, get n s.inp = .ok (v, c) ∧ t = { s with rdata := v, inp := c } := by
  unfold getBody; split
  · next h => simp [h, bind_eq_ok, ok_eq, -Except.ok.injEq, -Except.error.injEq]
  · next h => simp [h]

theorem getBody_error {op : Word} {n : Nat} {s : State} {r : Raise} : getBody op n s = .error r ↔
    (s.inp.opened = false ∧ r = ⟨.closed, op⟩) ∨ (s.inp.opened = true ∧ get n s.inp = .error r) := by
  unfold getBody; split
  · next h => simp [h, bind_eq_error]
  · next h => simp [h, error_eq, -Except.ok.injEq, -Except.error.injEq]

theorem rbitBody_ok {s t : State} : rbitBody s = .ok t ↔
    s.inp.opened = true ∧ ∃ b c, getBit s.inp = .ok (b, c) ∧ t = { s with rdata := bitWord b, inp := c } := by
  unfold rbitBody; split
  · next h => simp [h, bind_eq_ok, ok_eq, -Except.ok.injEq, -Except.error.injEq]
  · next h => simp [h]

theorem rbitBody_error {s : State} {r : Raise} : rbitBody s = .error r ↔
    (s.inp.opened = false ∧ r = ⟨.closed, 0x24#32⟩) ∨ (s.inp.opened = true ∧ getBit s.inp = .error r) := by
  unfold rbitBody; split
  · next h => simp [h, bind_eq_error]
  · next h => simp [h, error_eq, -Except.ok.injEq, -Except.error.injEq]

theorem rcloseBody_ok {s t : State} : rcloseBody s = .ok t ↔
    s.inp.opened = true ∧ t = { s with inp := { s.inp with buf := 0#8, cnt := 0#4, opened := false } } := by
  unfold rcloseBody; split <;> simp_all [ok_eq, -Except.ok.injEq, -Except.error.injEq, discard]

theorem rcloseBody_error {s : State} {r : Raise} : rcloseBody s = .error r ↔
    s.inp.opened = false ∧ r = ⟨.closed, 0x25#32⟩ := by
  unfold rcloseBody; split <;> simp_all [error_eq, -Except.ok.injEq, -Except.error.injEq]

/-! ## Stages -/

theorem freqBody_ok {s t : State} : freqBody s = .ok t ↔
    s.srcLen.toNat ≤ s.params.srcCap ∧ s.srcLen ≠ 0#32 ∧
      t = { s with
        freq := freqTable (srcBytes s), freqV := true, qV := false, treeV := false, ctV := false, flagCleared := true } := by
  unfold freqBody; split
  · next h => simp; omega
  · next h =>
    split
    · next h1 => simp [h1]
    · next h1 => simp [h1, not_lt.1 h, ok_eq, -Except.ok.injEq, -Except.error.injEq]

theorem freqBody_error {s : State} {r : Raise} : freqBody s = .error r ↔
    (s.params.srcCap < s.srcLen.toNat ∧ r = ⟨.capacity, 0x30#32⟩) ∨ (s.srcLen = 0#32 ∧ r = ⟨.emptyInput, 0#32⟩) := by
  unfold freqBody; split
  · next h =>
    have : s.srcLen ≠ 0#32 := by rintro hh; simp [hh] at h
    simp [h, this, error_eq, -Except.ok.injEq, -Except.error.injEq]
  · next h =>
    split
    · next h1 => simp [h1, error_eq, -Except.ok.injEq, -Except.error.injEq]
    · next h1 => simp [h1, h]

theorem sortBody_ok {s t : State} : sortBody s = .ok t ↔
    s.freqV = true ∧ t = { s with
      q := sortQueue s.params.tieOrder s.freq, qLen := BitVec.ofNat 9 (sortQueue s.params.tieOrder s.freq).length,
      qV := true, treeV := false, ctV := false, flagCleared := true } := by
  unfold sortBody; split <;> simp_all [ok_eq, -Except.ok.injEq, -Except.error.injEq]

theorem sortBody_error {s : State} {r : Raise} : sortBody s = .error r ↔
    s.freqV = false ∧ r = ⟨.seq, 0x31#32⟩ := by
  unfold sortBody; split <;> simp_all [error_eq, -Except.ok.injEq, -Except.error.injEq]

theorem treeBody_ok {s t : State} : treeBody s = .ok t ↔
    s.qV = true ∧ t = { s with
      nodes := (buildTree s.params.pendOrder (liveQueue s)).nodes,
      nNodes := BitVec.ofNat 9 (buildTree s.params.pendOrder (liveQueue s)).nodes.length,
      root := (rootOf s.fresh (buildTree s.params.pendOrder (liveQueue s))).1,
      rootW := (rootOf s.fresh (buildTree s.params.pendOrder (liveQueue s))).2, treeV := true, ctV := false,
      flagCleared := true } := by
  unfold treeBody; split <;> simp_all [ok_eq, -Except.ok.injEq, -Except.error.injEq]

theorem treeBody_error {s : State} {r : Raise} : treeBody s = .error r ↔
    s.qV = false ∧ r = ⟨.seq, 0x32#32⟩ := by
  unfold treeBody; split <;> simp_all [error_eq, -Except.ok.injEq, -Except.error.injEq]

theorem codesBody_ok {s t : State} : codesBody s = .ok t ↔
    s.treeV = true ∧ t = { s with
      ct := codeTable (rootTree s), ctLen := BitVec.ofNat 9 (codeTable (rootTree s)).length, ctV := true } := by
  unfold codesBody; split <;> simp_all [ok_eq, -Except.ok.injEq, -Except.error.injEq]

theorem codesBody_error {s : State} {r : Raise} : codesBody s = .error r ↔
    s.treeV = false ∧ r = ⟨.seq, 0x33#32⟩ := by
  unfold codesBody; split <;> simp_all [error_eq, -Except.ok.injEq, -Except.error.injEq]

/-! ## Containers -/

theorem encodeBody_ok {s t : State} : encodeBody s = .ok t ↔
    s.ctV = true ∧ s.out.opened = true ∧
      ∃ c, putContainer s.params.cboCap s.fresh (liveCodes s) s.ctLen s.srcLen (srcBytes s) s.out = .ok c ∧
        t = { s with total := s.srcLen, unique := s.ctLen.setWidth 16, out := { c with opened := false } } := by
  unfold encodeBody; split
  · next h =>
    split
    · next h1 => simp [h, h1, bind_eq_ok, ok_eq, -Except.ok.injEq, -Except.error.injEq]
    · next h1 => simp [h1]
  · next h => simp [h]

theorem encodeBody_error {s : State} {r : Raise} : encodeBody s = .error r ↔
    (s.ctV = false ∧ r = ⟨.seq, 0x34#32⟩) ∨
      (s.ctV = true ∧ s.out.opened = false ∧ r = ⟨.closed, 0x34#32⟩) ∨
      (s.ctV = true ∧ s.out.opened = true ∧
        putContainer s.params.cboCap s.fresh (liveCodes s) s.ctLen s.srcLen (srcBytes s) s.out = .error r) := by
  unfold encodeBody encodeOp; split
  · next h =>
    split
    · next h1 => simp [h, h1, bind_eq_error]
    · next h1 => simp [h, h1, error_eq, -Except.ok.injEq, -Except.error.injEq]
  · next h => simp [h, error_eq, -Except.ok.injEq, -Except.error.injEq]

/-- `COMPRESS` completes as a chain of its six commands. -/
theorem compressBody_ok {s t : State} : compressBody s = .ok t ↔
    ∃ a b c d e, freqBody s = .ok a ∧ sortBody a = .ok b ∧ treeBody b = .ok c ∧ codesBody c = .ok d ∧
      wopenBody d = .ok e ∧ encodeBody e = .ok t := by
  simp only [compressBody, bind_eq_ok]
  constructor
  · rintro ⟨a, h1, b, h2, c, h3, d, h4, e, h5, h6⟩; exact ⟨a, b, c, d, e, h1, h2, h3, h4, h5, h6⟩
  · rintro ⟨a, b, c, d, e, h1, h2, h3, h4, h5, h6⟩; exact ⟨a, h1, b, h2, c, h3, d, h4, e, h5, h6⟩

/-- `DECODE` completes as: header, table, payload. -/
theorem decodeBody_ok {s t : State} : decodeBody s = .ok t ↔
    s.inp.opened = true ∧ 6 ≤ available s.inp ∧ ∃ total c1 unique c2 m c3 dst c4,
      get 4 (discard s.inp) = .ok (total, c1) ∧ get 2 c1 = .ok (unique, c2) ∧
      unique.toNat ≤ s.params.dmapCap ∧ total.toNat ≤ s.params.dstCap ∧
      getTable s.params.dcodeMax unique.toNat 0 [] c2 = .ok (m, c3) ∧
      getPayload m total.toNat 0 s.dst c3 = .ok (dst, c4) ∧
      t = { s with
        inp := c4, total := total, unique := unique.setWidth 16, dmap := m, dmapLen := BitVec.ofNat 16 m.length,
        dst := dst, emitted := total, dstLen := total, dstV := true, flagCleared := true } := by
  unfold decodeBody headerBytes
  constructor
  · intro h
    split at h
    · next ho =>
      simp only [available_discard] at h
      split at h
      · cases h
      · next ha =>
        simp only [bind_eq_ok, Prod.exists] at h
        obtain ⟨total, c1, h1, unique, c2, h2, h⟩ := h
        split at h
        · cases h
        · next hc =>
          simp only [bind_eq_ok, Prod.exists, Except.ok.injEq] at h
          obtain ⟨m, c3, h3, dst, c4, h4, rfl⟩ := h
          rw [not_or, not_lt, not_lt] at hc
          exact ⟨ho, by omega, total, c1, unique, c2, m, c3, dst, c4, h1, h2, hc.1, hc.2, h3, h4, rfl⟩
    · cases h
  · rintro ⟨ho, ha, total, c1, unique, c2, m, c3, dst, c4, h1, h2, hu, ht, h3, h4, rfl⟩
    rw [if_pos ho]
    simp only [available_discard, if_neg (not_lt.2 ha), h1, h2, ok_bind, if_neg (not_or.2 ⟨not_lt.2 hu, not_lt.2 ht⟩),
      h3, h4]

/-- Why `DECODE` stops, in the order of its checks. -/
theorem decodeBody_error {s : State} {r : Raise} (h : decodeBody s = .error r) :
    (s.inp.opened = false ∧ r = ⟨.closed, 0x35#32⟩) ∨
      (s.inp.opened = true ∧ available s.inp < 6 ∧ r = ⟨.noHeader, BitVec.ofNat 32 (available s.inp)⟩) ∨
      (s.inp.opened = true ∧ 6 ≤ available s.inp ∧ ∃ total c1 unique c2,
        get 4 (discard s.inp) = .ok (total, c1) ∧ get 2 c1 = .ok (unique, c2) ∧
          ((s.params.dmapCap < unique.toNat ∨ s.params.dstCap < total.toNat) ∧ r = ⟨.capacity, 0x35#32⟩ ∨
            getTable s.params.dcodeMax unique.toNat 0 [] c2 = .error r ∨
            ∃ m c3, getTable s.params.dcodeMax unique.toNat 0 [] c2 = .ok (m, c3) ∧
              getPayload m total.toNat 0 s.dst c3 = .error r)) := by
  unfold decodeBody headerBytes decodeOp at h
  split at h
  · next ho =>
    simp only [available_discard] at h
    split at h
    · next ha => cases h; exact .inr (.inl ⟨ho, ha, rfl⟩)
    · next ha =>
      refine .inr (.inr ⟨ho, by omega, ?_⟩)
      have g1 : ∃ x, get 4 (discard s.inp) = .ok x := by
        cases hg : get 4 (discard s.inp) with
        | ok x => exact ⟨x, rfl⟩
        | error q => have := (get_eq_error.1 hg).1; simp at this; omega
      obtain ⟨⟨total, c1⟩, g1⟩ := g1
      have g2 : ∃ x, get 2 c1 = .ok x := by
        cases hg : get 2 c1 with
        | ok x => exact ⟨x, rfl⟩
        | error q =>
          have := (get_eq_error.1 hg).1
          obtain ⟨k1, -, rfl⟩ := get_eq_ok.1 g1
          have hp := (pos_add_toNat k1).resolve_right (by omega)
          have hp : (s.inp.pos + BitVec.ofNat 64 4).toNat = s.inp.pos.toNat + 4 := hp
          simp only [available, discard] at this ha
          rw [hp] at this
          omega
      obtain ⟨⟨unique, c2⟩, g2⟩ := g2
      refine ⟨total, c1, unique, c2, g1, g2, ?_⟩
      simp only [g1, g2, ok_bind] at h
      split at h
      · next hc => cases h; exact .inl ⟨hc, rfl⟩
      · simp only [bind_eq_error, Prod.exists, reduceCtorEq, and_false, exists_false, or_false] at h
        exact .inr h
  · next ho => cases h; exact .inl ⟨by simpa using ho, rfl⟩

/-- What `DECODE` leaves alone. -/
theorem decodeBody_frame {s t : State} (h : decodeBody s = .ok t) : t = { s with
      dst := t.dst, dstLen := t.dstLen, dstV := t.dstV, dmap := t.dmap, dmapLen := t.dmapLen, emitted := t.emitted,
      total := t.total, unique := t.unique, flagCleared := t.flagCleared,
      inp := { s.inp with buf := t.inp.buf, cnt := t.inp.cnt, pos := t.inp.pos } } := by
  obtain ⟨-, -, total, c1, unique, c2, m, c3, dst, c4, h1, h2, -, -, h3, h4, rfl⟩ := decodeBody_ok.1 h
  have := ((get_sameStream h1).trans (get_sameStream h2)).trans ((getTable_sameStream h3).trans (getPayload_sameStream h4))
  obtain ⟨k1, k2, k3⟩ := this
  have k1 : c4.cbi = s.inp.cbi := k1
  have k2 : c4.len = s.inp.len := k2
  have k3 : c4.opened = s.inp.opened := k3
  simp only [← k1, ← k2, ← k3]

/-- `DECOMPRESS` completes as a chain of its three commands. -/
theorem decompressBody_ok {s t : State} : decompressBody s = .ok t ↔
    ∃ a b, ropenBody s = .ok a ∧ decodeBody a = .ok b ∧ rcloseBody b = .ok t := by
  simp only [decompressBody, bind_eq_ok]
  constructor
  · rintro ⟨a, h1, b, h2, h3⟩; exact ⟨a, b, h1, h2, h3⟩
  · rintro ⟨a, b, h1, h2, h3⟩; exact ⟨a, h1, b, h2, h3⟩

end Sys2Proof.Machine
end

