-- ==== Sys2Proof/Laws/Raises.lean ====
section
/-! SUPPORT. Which faults the channel steps, the encoder and the decoder can raise (60_exceptions.md R181). -/

namespace Sys2Proof.Machine

theorem emitAll_error {cap : Nat} {op : Word} {bs : List Byte} {c : OutChannel} {r : Raise}
    (h : emitAll cap op bs c = .error r) : r = ⟨.capacity, op⟩ := by
  induction bs generalizing c with
  | nil => cases h
  | cons b bs ih =>
    simp only [emitAll, bind_eq_error, emit_eq_error] at h
    rcases h with ⟨-, h⟩ | ⟨d, -, h⟩
    · exact h
    · exact ih h

/-- `put` raises for a value that does not fit, else only for want of room. -/
theorem put_error {cap : Nat} {op v : Word} {n : Nat} {c : OutChannel} {r : Raise} (h : put cap op v n c = .error r) :
    2 ^ (8 * n) ≤ v.toNat ∧ r = ⟨.range, v⟩ ∨ v.toNat < 2 ^ (8 * n) ∧ r = ⟨.capacity, op⟩ := by
  unfold put at h
  split at h
  · next hf =>
    simp only [fitsBytes, decide_eq_true_eq] at hf
    simp only [bind_eq_error, flush_eq_error] at h
    rcases h with ⟨-, h⟩ | ⟨d, -, h⟩
    · exact .inr ⟨hf, h⟩
    · exact .inr ⟨hf, emitAll_error h⟩
  · next hf =>
    simp only [fitsBytes, decide_eq_true_eq, not_lt] at hf
    exact .inl ⟨hf, error_eq.1 h⟩

theorem putBits_error {cap : Nat} {op : Word} {bits : Bits} {c : OutChannel} {r : Raise}
    (h : putBits cap op bits c = .error r) : r = ⟨.capacity, op⟩ := by
  induction bits generalizing c with
  | nil => cases h
  | cons b bs ih =>
    simp only [putBits, bind_eq_error, putBit_eq_error] at h
    rcases h with ⟨-, -, h⟩ | ⟨d, -, h⟩
    · exact h
    · exact ih h

theorem putEntry_error {cap : Nat} {e : CodeEntry} {c : OutChannel} {r : Raise} (h : putEntry cap e c = .error r) :
    r = ⟨.capacity, encodeOp⟩ := by
  have h1 : (e.sym.setWidth 32).toNat < 2 ^ (8 * 1) := by have := e.sym.isLt; simp; omega
  have h2 : (e.len.setWidth 32).toNat < 2 ^ (8 * 2) := by have := e.len.isLt; simp; omega
  simp only [putEntry, bind_eq_error] at h
  rcases h with h | ⟨d, -, h | ⟨d', -, h⟩⟩
  · rcases put_error h with ⟨h, -⟩ | ⟨-, h⟩
    · omega
    · exact h
  · rcases put_error h with ⟨h, -⟩ | ⟨-, h⟩
    · omega
    · exact h
  · exact putBits_error h

theorem putTable_error {cap : Nat} {es : List CodeEntry} {c : OutChannel} {r : Raise} (h : putTable cap es c = .error r) :
    r = ⟨.capacity, encodeOp⟩ := by
  induction es generalizing c with
  | nil => cases h
  | cons e es ih =>
    simp only [putTable, bind_eq_error] at h
    rcases h with h | ⟨d, -, h⟩
    · exact putEntry_error h
    · exact ih h

/-- The encoder's channel steps raise only for want of room (45_encoder.md R141). -/
theorem putContainer_error {cap : Nat} {seed : Nat} {ct : List CodeEntry} {ctLen : BitVec 9} {srcLen : Word}
    {text : List Byte} {c : OutChannel} {r : Raise} (h : putContainer cap seed ct ctLen srcLen text c = .error r) :
    r = ⟨.capacity, encodeOp⟩ := by
  have h1 : srcLen.toNat < 2 ^ (8 * 4) := by have := srcLen.isLt; omega
  have h2 : (ctLen.setWidth 32).toNat < 2 ^ (8 * 2) := by have := ctLen.isLt; simp; omega
  simp only [putContainer, bind_eq_error, putPayload_eq, flush_eq_error] at h
  rcases h with h | ⟨d, -, h | ⟨d', -, h | ⟨d3, -, h | ⟨d4, -, h⟩⟩⟩⟩
  · rcases put_error h with ⟨h, -⟩ | ⟨-, h⟩
    · omega
    · exact h
  · rcases put_error h with ⟨h, -⟩ | ⟨-, h⟩
    · omega
    · exact h
  · exact putTable_error h
  · exact putBits_error h
  · exact h.2

theorem getBits_error {n : Nat} {c : InChannel} {r : Raise} (h : getBits n c = .error r) : r.code = .truncated := by
  induction n generalizing c with
  | zero => cases h
  | succ n ih =>
    simp only [getBits, bind_eq_error, getBit_eq_error, Prod.exists, reduceCtorEq, and_false, exists_false, or_false] at h
    rcases h with ⟨-, rfl⟩ | ⟨_, _, -, h⟩
    · rfl
    · exact ih h

theorem getEntry_error {d : Nat} {c : InChannel} {r : Raise} (h : getEntry d c = .error r) :
    r.code = .truncated ∨ r = ⟨.capacity, decodeOp⟩ := by
  simp only [getEntry, bind_eq_error, get_eq_error, Prod.exists] at h
  rcases h with ⟨-, rfl⟩ | ⟨_, _, -, ⟨-, rfl⟩ | ⟨_, _, -, h⟩⟩
  · exact .inl rfl
  · exact .inl rfl
  · split at h
    · cases h; exact .inr rfl
    · simp only [bind_eq_error, reduceCtorEq, and_false, exists_false, or_false] at h
      exact .inl (getBits_error h)

theorem getTable_error {d n i : Nat} {m : List MapEntry} {c : InChannel} {r : Raise} (h : getTable d n i m c = .error r) :
    r.code = .truncated ∨ r.code = .capacity ∨ r.code = .dupCode := by
  induction n generalizing i m c with
  | zero => cases h
  | succ n ih =>
    simp only [getTable, bind_eq_error, Prod.exists] at h
    rcases h with h | ⟨_, _, -, h⟩
    · rcases getEntry_error h with h | rfl
      · exact .inl h
      · exact .inr (.inl rfl)
    · split at h
      · cases h; exact .inr (.inr rfl)
      · exact ih h

theorem matchCode_error {m : List MapEntry} {f : Nat} {cand : Bits} {c : InChannel} {r : Raise}
    (h : matchCode m f cand c = .error r) : r.code = .truncated := by
  induction f generalizing cand c with
  | zero =>
    unfold matchCode at h
    split at h
    · cases h
    · cases h; rfl
  | succ f ih =>
    unfold matchCode at h
    split at h
    · cases h
    · simp only [bind_eq_error, getBit_eq_error, Prod.exists] at h
      rcases h with ⟨-, rfl⟩ | ⟨_, _, -, h⟩
      · rfl
      · exact ih h

theorem getPayload_error {m : List MapEntry} {n k : Nat} {d : Memory} {c : InChannel} {r : Raise}
    (h : getPayload m n k d c = .error r) : r.code = .truncated := by
  induction n generalizing k d c with
  | zero => cases h
  | succ n ih =>
    simp only [getPayload, bind_eq_error, Prod.exists] at h
    rcases h with h | ⟨_, _, -, h⟩
    · exact matchCode_error h
    · exact ih h

/-- The fault codes of `DECODE` (46_decoder.md R151). -/
theorem decodeBody_code {s : State} {r : Raise} (h : decodeBody s = .error r) :
    r.code ∈ [Err.closed, .noHeader, .capacity, .truncated, .dupCode] ∧ (s.inp.opened = true → r.code ≠ .closed) := by
  rcases decodeBody_error h with ⟨h, rfl⟩ | ⟨h, -, rfl⟩ | ⟨-, -, _, _, _, _, -, -, ⟨-, rfl⟩ | h | ⟨_, _, -, h⟩⟩
  · simp; assumption
  · simp
  · simp
  · rcases getTable_error h with h | h | h <;> simp [h]
  · simp [getPayload_error h]

end Sys2Proof.Machine
end

