-- ==== Sys2Proof/Laws/Sequences.lean ====
section
/-! SUPPORT. Sequences of channel commands as sequences of channel steps, on both sides (40_channel_writer.md R79,
41_channel_reader.md R78). -/

namespace Sys2Proof.Machine

/-! ## The writer -/

/-- One writer command on the channel alone. -/
def putOp (cap : Nat) : ChanOp → OutChannel → Except Raise OutChannel
  | .ubyte v, c => put cap 0x11#32 (v.setWidth 32) 1 c
  | .ushort v, c => put cap 0x12#32 (v.setWidth 32) 2 c
  | .uint v, c => put cap 0x13#32 v 4 c
  | .bit b, c => putBit cap 0x14#32 b false c

/-- A sequence of them. -/
def putOps (cap : Nat) : List ChanOp → OutChannel → Except Raise OutChannel
  | [], c => .ok c
  | o :: os, c => putOp cap o c >>= putOps cap os

theorem putOp_opened {cap : Nat} {o : ChanOp} {c d : OutChannel} (h : putOp cap o c = .ok d) : d.opened = c.opened := by
  cases o <;> first | exact put_opened h | exact putBit_opened h

/-- An open writer's command succeeds exactly when its channel step does. -/
theorem succeeded_writeInstr {s t : State} {o : ChanOp} (he : s.err = none) (ho : s.out.opened = true) :
    succeeded (exec o.writeInstr { s with wdata := o.value }) = some t ↔
      ∃ c, putOp s.params.cboCap o s.out = .ok c ∧ t = { s with wdata := o.value, out := c } := by
  rw [succeeded_eq_some]
  have hput : ∀ (op : Word) (n : Nat) (i : Instr), o.writeInstr = i →
      exec i { s with wdata := o.value } = finish i { s with wdata := o.value } (putBody op n { s with wdata := o.value }) →
      putOp s.params.cboCap o s.out = put s.params.cboCap op o.value n s.out →
      ((exec o.writeInstr { s with wdata := o.value } = .next t ∧ t.err = none) ↔
        ∃ c, putOp s.params.cboCap o s.out = .ok c ∧ t = { s with wdata := o.value, out := c }) := by
    intro op n i hi hx hp
    rw [hi, hx, hp]
    constructor
    · rintro ⟨h, ht⟩
      obtain ⟨-, c, hc, rfl⟩ := putBody_ok.1 (finish_ok_of_err h ht)
      exact ⟨c, hc, rfl⟩
    · rintro ⟨c, hc, rfl⟩
      have hw : putBody op n { s with wdata := o.value } = .ok { s with wdata := o.value, out := c } :=
        putBody_ok.2 ⟨ho, c, hc, rfl⟩
      rw [hw]
      exact ⟨rfl, he⟩
  cases o with
  | ubyte v => exact hput 0x11#32 1 .wubyte rfl rfl rfl
  | ushort v => exact hput 0x12#32 2 .wushort rfl rfl rfl
  | uint v => exact hput 0x13#32 4 .wuint rfl rfl rfl
  | bit b =>
    have hb : (bitWord b).getLsbD 0 = b ∧ (bitWord b).toNat ≤ 1 := by cases b <;> decide
    constructor
    · rintro ⟨h, ht⟩
      obtain ⟨-, -, c, hc, rfl⟩ := wbitBody_ok.1 (finish_ok_of_err h ht)
      simp only [ChanOp.value, hb.1] at hc
      exact ⟨c, hc, rfl⟩
    · rintro ⟨c, hc, rfl⟩
      have hw : wbitBody false { s with wdata := bitWord b } = .ok { s with wdata := bitWord b, out := c } :=
        wbitBody_ok.2 ⟨ho, hb.2, c, by rw [hb.1]; exact hc, rfl⟩
      refine ⟨?_, he⟩
      show finish (.wbit false) _ (wbitBody false { s with wdata := bitWord b }) = _
      rw [hw]; rfl

theorem runWriter_cons (i : Instr) (v : Word) (cmds : List (Instr × Word)) (s : State) :
    runWriter ((i, v) :: cmds) s = (succeeded (exec i { s with wdata := v })).bind (runWriter cmds) := by
  simp only [runWriter]
  cases succeeded (exec i { s with wdata := v }) <;> rfl

theorem runWrites_nil (s : State) : runWrites [] s = some s := rfl

theorem runWrites_cons (o : ChanOp) (os : List ChanOp) (s : State) :
    runWrites (o :: os) s = (succeeded (exec o.writeInstr { s with wdata := o.value })).bind (runWrites os) :=
  runWriter_cons _ _ _ s

/-- A successful sequence of writer commands is a successful sequence of channel steps. -/
theorem runWrites_eq_some {os : List ChanOp} {s t : State} (he : s.err = none) (ho : s.out.opened = true) :
    runWrites os s = some t ↔
      ∃ c w, putOps s.params.cboCap os s.out = .ok c ∧ t = { s with wdata := w, out := c } ∧ (os = [] → w = s.wdata) ∧
        ∀ o ∈ os.getLast?, w = o.value := by
  induction os generalizing s with
  | nil =>
    simp only [runWrites_nil, putOps, Option.some.injEq, Except.ok.injEq]
    constructor
    · rintro rfl; exact ⟨s.out, s.wdata, rfl, rfl, fun _ => rfl, by simp⟩
    · rintro ⟨c, w, rfl, rfl, h, -⟩; rw [h trivial]
  | cons o os ih =>
    have hlast : ∀ {w : Word} {v : Word}, (os = [] → w = v) → (∀ x ∈ os.getLast?, w = x.value) → v = o.value →
        ∀ x ∈ (o :: os).getLast?, w = x.value := by
      intro w v h1 h2 hv x hx
      cases os with
      | nil => simp at hx; rw [h1 rfl, hv, hx]
      | cons o' os => exact h2 x (by simpa using hx)
    rw [runWrites_cons]
    cases hs : succeeded (exec o.writeInstr { s with wdata := o.value }) with
    | none =>
      simp only [Option.bind_none, reduceCtorEq, false_iff, putOps, bind_eq_ok]
      rintro ⟨c, w, ⟨d, hd, -⟩, -⟩
      rw [(succeeded_writeInstr he ho).2 ⟨d, hd, rfl⟩] at hs
      cases hs
    | some u =>
      obtain ⟨d, hd, rfl⟩ := (succeeded_writeInstr he ho).1 hs
      have hdo : d.opened = true := (putOp_opened hd).trans ho
      simp only [Option.bind_some, ih (s := { s with wdata := o.value, out := d }) he hdo, putOps, hd, ok_bind]
      constructor
      · rintro ⟨c, w, h1, rfl, h3, h4⟩
        exact ⟨c, w, h1, rfl, by simp, hlast h3 h4 rfl⟩
      · rintro ⟨c, w, h1, rfl, -, h4⟩
        refine ⟨c, w, h1, rfl, ?_, ?_⟩
        · rintro rfl; exact h4 o (by simp)
        · intro x hx
          cases os with
          | nil => simp at hx
          | cons o' os => exact h4 x (by simpa using hx)

/-- What one writer command appends. -/
theorem putOp_spec {cap : Nat} (hcap : cap < 2 ^ 64) {o : ChanOp} {c d : OutChannel} (h : OutOk c)
    (hp : putOp cap o c = .ok d) :
    OutOk d ∧ outBits c <+: outBits d ∧
      match o with
      | .ubyte v => outStream d = flushedStream c ++ bytesLe (v.setWidth 32) 1 ∧ d.cnt = 0#4
      | .ushort v => outStream d = flushedStream c ++ bytesLe (v.setWidth 32) 2 ∧ d.cnt = 0#4
      | .uint v => outStream d = flushedStream c ++ bytesLe v 4 ∧ d.cnt = 0#4
      | .bit b => outBits d = outBits c ++ [b] := by
  have hput : ∀ {op v : Word} {n : Nat}, 0 < n → put cap op v n c = .ok d →
      OutOk d ∧ outBits c <+: outBits d ∧ outStream d = flushedStream c ++ bytesLe v n ∧ d.cnt = 0#4 := by
    intro op v n hn hp
    obtain ⟨h1, h2, h3, -⟩ := put_outStream hcap hn h hp
    refine ⟨h3, ?_, h1, h2⟩
    rw [show outBits d = bitsOfBytes (outStream d) by simp [outBits, h2], h1, bitsOfBytes_append,
      bitsOfBytes_flushedStream h, List.append_assoc]
    exact List.prefix_append _ _
  cases o with
  | ubyte v => exact hput (by decide) hp
  | ushort v => exact hput (by decide) hp
  | uint v => exact hput (by decide) hp
  | bit b =>
    obtain ⟨h1, h2, -⟩ := putBit_outBits hcap h hp
    exact ⟨h2, by rw [h1]; exact List.prefix_append _ _, h1⟩

theorem putOps_outBits {cap : Nat} (hcap : cap < 2 ^ 64) {os : List ChanOp} {c d : OutChannel} (h : OutOk c)
    (hp : putOps cap os c = .ok d) : OutOk d ∧ outBits c <+: outBits d := by
  induction os generalizing c with
  | nil => simp only [putOps, Except.ok.injEq] at hp; subst hp; exact ⟨h, List.prefix_refl _⟩
  | cons o os ih =>
    simp only [putOps, bind_eq_ok] at hp
    obtain ⟨e, he, hp⟩ := hp
    obtain ⟨h1, h2, -⟩ := putOp_spec hcap h he
    obtain ⟨h3, h4⟩ := ih h1 hp
    exact ⟨h3, h2.trans h4⟩

theorem outBits_prefix_flushedStream {c : OutChannel} (h : OutOk c) : outBits c <+: bitsOfBytes (flushedStream c) := by
  rw [bitsOfBytes_flushedStream h]; exact List.prefix_append _ _

/-- Two writers that hold the same and have emitted the same bytes, whatever else stands in their memories. -/
def SameOutput (c c' : OutChannel) : Prop :=
  c.acc = c'.acc ∧ c.cnt = c'.cnt ∧ c.len = c'.len ∧ c.opened = c'.opened ∧ outStream c = outStream c'

theorem SameOutput.padBytes {c c' : OutChannel} (h : SameOutput c c') : padBytes c = padBytes c' := by
  simp [Machine.padBytes, h.1, h.2.1]

theorem SameOutput.put {cap : Nat} (hcap : cap < 2 ^ 64) {op v : Word} {n : Nat} (hn : 0 < n) {c c' d : OutChannel}
    (h : SameOutput c c') (hp : put cap op v n c = .ok d) : ∃ d', put cap op v n c' = .ok d' ∧ SameOutput d d' := by
  have hpad := h.padBytes
  obtain ⟨h1, h2, h3, h4, h5⟩ := h
  cases hp' : Machine.put cap op v n c' with
  | error r =>
    have := (put_eq_error hcap hn).1 hp'
    rw [← h3, ← hpad] at this
    rw [(put_eq_error hcap hn).2 this] at hp
    cases hp
  | ok d' =>
    obtain ⟨-, k1, k2, k3, k4, -⟩ := put_eq_ok hcap hp
    obtain ⟨-, k1', k2', k3', k4', -⟩ := put_eq_ok hcap hp'
    exact ⟨d', rfl, by rw [k3, k3', h1, h2], by rw [k2, k2'], BitVec.eq_of_toNat_eq (by rw [k1.1, k1'.1, h3, hpad]),
      by rw [k4, k4', h4], by rw [k1.outStream, k1'.outStream, h5, hpad]⟩

theorem SameOutput.flush {cap : Nat} (hcap : cap < 2 ^ 64) {op : Word} {c c' d : OutChannel} (h : SameOutput c c')
    (hp : flush cap op c = .ok d) : ∃ d', flush cap op c' = .ok d' ∧ SameOutput d d' := by
  have hpad := h.padBytes
  obtain ⟨h1, h2, h3, h4, h5⟩ := h
  cases hp' : Machine.flush cap op c' with
  | error r =>
    have := flush_eq_error.1 hp'
    rw [← h3, ← h2] at this
    rw [flush_eq_error.2 this] at hp
    cases hp
  | ok d' =>
    obtain ⟨k1, k2, k3, k4, -⟩ := flush_eq_ok hcap hp
    obtain ⟨k1', k2', k3', k4', -⟩ := flush_eq_ok hcap hp'
    exact ⟨d', rfl, by rw [k3, k3', h1, h2], by rw [k2, k2'], BitVec.eq_of_toNat_eq (by rw [k1.1, k1'.1, h3, hpad]),
      by rw [k4, k4', h4], by rw [k1.outStream, k1'.outStream, h5, hpad]⟩

theorem SameOutput.putBit {cap : Nat} (hcap : cap < 2 ^ 64) {op : Word} {b f : Bool} {c c' d : OutChannel}
    (h : SameOutput c c') (hp : putBit cap op b f c = .ok d) : ∃ d', putBit cap op b f c' = .ok d' ∧ SameOutput d d' := by
  obtain ⟨h1, h2, h3, h4, h5⟩ := h
  have ha : (appendBit b c).acc = (appendBit b c').acc := by simp [appendBit, h1, h2]
  have hc : (appendBit b c).cnt = (appendBit b c').cnt := by simp [appendBit, h2]
  cases hp' : Machine.putBit cap op b f c' with
  | error r =>
    have := putBit_eq_error.1 hp'
    rw [← h3, ← hc] at this
    rw [putBit_eq_error.2 this] at hp
    cases hp
  | ok d' =>
    refine ⟨d', rfl, ?_⟩
    rcases putBit_eq_ok hp with ⟨k1, rfl⟩ | ⟨k1, k2, rfl⟩ <;> rcases putBit_eq_ok hp' with ⟨k1', rfl⟩ | ⟨k1', k2', rfl⟩
    · exact ⟨ha, hc, h3, h4, h5⟩
    · rw [hc] at k1; exact absurd k1' (by simpa [not_or] using k1)
    · rw [hc] at k1; exact absurd k1 (by simpa [not_or] using k1')
    · refine ⟨rfl, rfl, by simp only [h3], h4, ?_⟩
      have e : ∀ {x : OutChannel} {a : Byte}, x.len.toNat < cap →
          outStream { x with acc := 0#8, cnt := 0#4, cbo := Memory.write x.cbo x.len.toNat a, len := x.len + 1#64 } =
            outStream x ++ [a] := by
        intro x a hx
        exact ((Appended.emit hcap (op := 0#32) (emit_eq_ok.2 ⟨hx, rfl⟩)).congr rfl rfl rfl rfl : Appended [a] x _).outStream
      rw [e k2, e k2', h5, ha]

/-- A writer command that succeeds on one of two such writers succeeds on the other, and leaves two such writers. -/
theorem SameOutput.command {i : Instr} (hi : i ∈ [Instr.wubyte, .wushort, .wuint, .wbit false, .wbit true, .wclose])
    {s s' t : State} {v : Word} (hcap : s.params.cboCap < 2 ^ 64) (hpar : s.params.cboCap = s'.params.cboCap)
    (he' : s'.err = none) (h : SameOutput s.out s'.out) (hx : succeeded (exec i { s with wdata := v }) = some t) :
    ∃ d d', t = { s with wdata := v, out := d } ∧ SameOutput d d' ∧
      succeeded (exec i { s' with wdata := v }) = some { s' with wdata := v, out := d' } := by
  obtain ⟨hx, ht⟩ := succeeded_eq_some.1 hx
  have ho := h.2.2.2.1
  have done : ∀ {body : State → Except Raise State} {d' : OutChannel}, (∀ r, exec i r = finish i r (body r)) →
      body { s' with wdata := v } = .ok { s' with wdata := v, out := d' } →
      succeeded (exec i { s' with wdata := v }) = some { s' with wdata := v, out := d' } := by
    intro body d' h1 h2
    exact succeeded_eq_some.2 ⟨by rw [h1, h2]; rfl, he'⟩
  have hput : ∀ {op : Word} {n : Nat}, 0 < n → (∀ r, exec i r = finish i r (putBody op n r)) →
      ∃ d d', t = { s with wdata := v, out := d } ∧ SameOutput d d' ∧
        succeeded (exec i { s' with wdata := v }) = some { s' with wdata := v, out := d' } := by
    intro op n hn h1
    rw [h1] at hx
    obtain ⟨k1, d, k2, rfl⟩ := putBody_ok.1 (finish_ok_of_err hx ht)
    obtain ⟨d', k3, k4⟩ := h.put hcap hn k2
    exact ⟨d, d', rfl, k4, done h1 (putBody_ok.2 ⟨ho ▸ k1, d', hpar ▸ k3, rfl⟩)⟩
  have hbit : ∀ {f : Bool}, (∀ r, exec i r = finish i r (wbitBody f r)) →
      ∃ d d', t = { s with wdata := v, out := d } ∧ SameOutput d d' ∧
        succeeded (exec i { s' with wdata := v }) = some { s' with wdata := v, out := d' } := by
    intro f h1
    rw [h1] at hx
    obtain ⟨k1, k0, d, k2, rfl⟩ := wbitBody_ok.1 (finish_ok_of_err hx ht)
    obtain ⟨d', k3, k4⟩ := h.putBit hcap k2
    exact ⟨d, d', rfl, k4, done h1 (wbitBody_ok.2 ⟨ho ▸ k1, k0, d', hpar ▸ k3, rfl⟩)⟩
  simp only [List.mem_cons, List.not_mem_nil, or_false] at hi
  rcases hi with rfl | rfl | rfl | rfl | rfl | rfl
  · exact hput (n := 1) (by decide) fun _ => rfl
  · exact hput (n := 2) (by decide) fun _ => rfl
  · exact hput (n := 4) (by decide) fun _ => rfl
  · exact hbit fun _ => rfl
  · exact hbit fun _ => rfl
  · obtain ⟨k1, d, k2, rfl⟩ := wcloseBody_ok.1 (finish_ok_of_err hx ht)
    obtain ⟨d', k3, l1, l2, l3, -, l5⟩ := h.flush hcap k2
    exact ⟨_, { d' with opened := false }, rfl, ⟨l1, l2, l3, rfl, l5⟩,
      done (fun _ => rfl) (wcloseBody_ok.2 ⟨ho ▸ k1, d', hpar ▸ k3, rfl⟩)⟩

/-! ## The reader -/

/-- One reader command on the channel alone, with what it delivers. -/
def getOp : ChanOp → InChannel → Except Raise (Word × InChannel)
  | .ubyte _, c => get 1 c
  | .ushort _, c => get 2 c
  | .uint _, c => get 4 c
  | .bit _, c => getBit c >>= fun x => .ok (bitWord x.1, x.2)

/-- A successful reader command of an open reader. -/
theorem succeeded_readInstr {s : State} {o : ChanOp} {v : Word} {c : InChannel} (he : s.err = none)
    (ho : s.inp.opened = true) (hg : getOp o s.inp = .ok (v, c)) :
    succeeded (exec o.readInstr s) = some { s with rdata := v, inp := c } := by
  rw [succeeded_eq_some]
  refine ⟨?_, he⟩
  have hget : ∀ (op : Word) (n : Nat) (i : Instr), exec i s = finish i s (getBody op n s) → get n s.inp = .ok (v, c) →
      exec i s = .next { s with rdata := v, inp := c } := by
    intro op n i hx hg
    rw [hx, getBody_ok.2 ⟨ho, v, c, hg, rfl⟩]; rfl
  cases o with
  | ubyte w => exact hget 0x21#32 1 .rubyte rfl hg
  | ushort w => exact hget 0x22#32 2 .rushort rfl hg
  | uint w => exact hget 0x23#32 4 .ruint rfl hg
  | bit b =>
    simp only [getOp, bind_eq_ok, Prod.exists, Except.ok.injEq, Prod.mk.injEq] at hg
    obtain ⟨x, d, hd, rfl, rfl⟩ := hg
    show finish .rbit s (rbitBody s) = _
    rw [rbitBody_ok.2 ⟨ho, x, d, hd, rfl⟩]; rfl

theorem bitsOfBytes_prefix {as bs : List Byte} (h : bitsOfBytes as <+: bitsOfBytes bs) : as <+: bs := by
  induction as generalizing bs with
  | nil => exact List.nil_prefix
  | cons a as ih =>
    cases bs with
    | nil => have := h.length_le; simp at this
    | cons b bs =>
      obtain ⟨r, hr⟩ := h
      rw [bitsOfBytes_cons, bitsOfBytes_cons, List.append_assoc] at hr
      obtain ⟨h1, h2⟩ := List.append_inj hr (by simp)
      rw [byteBits_inj h1]
      exact (List.prefix_append_right_inj [b]).2 (ih ⟨r, h2⟩)

/-- A reader that has taken exactly the bits a writer had put stands in step with it: what it returns next is what the
writer put next (41_channel_reader.md R78 (c), 20_memory.md R47). -/
theorem runReads_of_putOps {cap : Nat} (hcap : cap < 2 ^ 64) {os : List ChanOp} {c d : OutChannel} {s : State}
    (hc : OutOk c) (hp : putOps cap os c = .ok d) (he : s.err = none) (ho : s.inp.opened = true) (hr : ReaderOk s.inp)
    (hb : bitsOfBytes (flushedStream d) = outBits c ++ inBits s.inp) :
    ∃ u, runReads os s = some (os.map ChanOp.value, u) := by
  induction os generalizing c s with
  | nil => exact ⟨s, rfl⟩
  | cons o os ih =>
    simp only [putOps, bind_eq_ok] at hp
    obtain ⟨e, hput, hp⟩ := hp
    obtain ⟨he1, -, hspec⟩ := putOp_spec hcap hc hput
    obtain ⟨hd, hpre⟩ := putOps_outBits hcap he1 hp
    have hpre := hpre.trans (outBits_prefix_flushedStream hd)
    have next : ∀ {c' : InChannel}, getOp o s.inp = .ok (o.value, c') → ReaderOk c' → SameStream s.inp c' →
        bitsOfBytes (flushedStream d) = outBits e ++ inBits c' →
        ∃ u, runReads (o :: os) s = some ((o :: os).map ChanOp.value, u) := by
      intro c' hg hk hss hbits
      obtain ⟨u, hu⟩ := ih (s := { s with rdata := o.value, inp := c' }) he1 hp he (hss.2.2.trans ho) hk hbits
      exact ⟨u, by simp only [runReads, succeeded_readInstr he ho hg, hu, Option.map_some, List.map_cons]⟩
    have hput' : ∀ {v : Word} {n : Nat}, v.toNat < 2 ^ (8 * n) → (∀ x, getOp o x = get n x) → o.value = v →
        outStream e = flushedStream c ++ bytesLe v n ∧ e.cnt = 0#4 →
        ∃ u, runReads (o :: os) s = some ((o :: os).map ChanOp.value, u) := by
      rintro v n hv hgo rfl ⟨h1, h2⟩
      have heb : outBits e = bitsOfBytes (outStream e) := by simp [outBits, h2]
      rw [heb] at hpre
      obtain ⟨rest, hrest⟩ := bitsOfBytes_prefix hpre
      have hin : inBits s.inp = List.replicate ((8 - c.cnt.toNat) % 8) false ++ bitsOfBytes (bytesLe o.value n ++ rest) := by
        rw [← hrest, h1, bitsOfBytes_append, bitsOfBytes_append, bitsOfBytes_flushedStream hc, List.append_assoc,
          List.append_assoc, List.append_cancel_left_eq] at hb
        rw [← hb, bitsOfBytes_append]
      have hrs : restStream s.inp = bytesLe o.value n ++ rest := by
        have h7 := hr.1
        have hl := congrArg List.length hin
        have hcnt : (byteBits s.inp.buf |>.take s.inp.cnt.toNat).length = s.inp.cnt.toNat := by simp; omega
        rw [inBits, List.length_append, hcnt, List.length_append, length_bitsOfBytes, length_bitsOfBytes,
          List.length_replicate] at hl
        rw [inBits] at hin
        exact bitsOfBytes_inj (List.append_inj hin (by rw [hcnt, List.length_replicate]; omega)).2
      obtain ⟨c', hg, hr', hc0, hk⟩ := get_bytesLe hv hr.2.2 hrs
      refine next (by rw [hgo]; exact hg) hk (get_sameStream hg) ?_
      rw [heb, ← hrest, bitsOfBytes_append, show inBits c' = bitsOfBytes rest by simp [inBits, hc0, hr']]
    cases o with
    | ubyte v => exact hput' (v := v.setWidth 32) (n := 1) (by have := v.isLt; simp; omega) (fun _ => rfl) rfl hspec
    | ushort v => exact hput' (v := v.setWidth 32) (n := 2) (by have := v.isLt; simp; omega) (fun _ => rfl) rfl hspec
    | uint v => exact hput' (v := v) (n := 4) (by have := v.isLt; omega) (fun _ => rfl) rfl hspec
    | bit b =>
      have hspec : outBits e = outBits c ++ [b] := hspec
      rw [hb, hspec] at hpre
      obtain ⟨rest, hrest⟩ := (List.prefix_append_right_inj _).1 hpre
      have hlen : 1 ≤ bitsLeft s.inp := by
        rw [← length_inBits (by have := hr.1; omega), ← hrest]; simp
      obtain ⟨b', c', hg⟩ := getBit_completes hlen
      have h1 := (getBit_inBits hr.inOk hg).1
      rw [← hrest, List.singleton_append, List.cons.injEq] at h1
      obtain ⟨rfl, h1⟩ := h1
      refine next (by simp only [getOp, hg, ok_bind]; rfl) (getBit_readerOk hr hg) (getBit_sameStream hg) ?_
      rw [hb, hspec, ← hrest, ← h1, List.append_assoc]

end Sys2Proof.Machine
end

