-- ==== Sys2Proof/Laws/Pipeline.lean ====
section
/-! SUPPORT. The pipeline from a text to its code table as a whole (42_frequency_sort.md to 44_code_table.md). -/

namespace Sys2Proof.Machine

/-- The queue of a nonempty text has 1 to 256 entries (42_frequency_sort.md R105). -/
theorem sortQueue_size {p : Params} (hp : paramsWellFormed p = true) {bs : List Byte} (hb : bs.length < 2 ^ 32)
    (hne : bs ≠ []) : sortQueue p.tieOrder (freqTable bs) ≠ [] ∧ (sortQueue p.tieOrder (freqTable bs)).length ≤ 256 := by
  obtain ⟨hn, hl, -⟩ := params_bounds hp
  refine ⟨fun h => ?_, hl ▸ length_sortQueue_le _ _⟩
  have := sum_sortQueue hn hl hb
  rw [h] at this
  exact hne (List.length_eq_zero_iff.1 this.symm)

/-- An entry's bits, below the path it started from, lead to its leaf (44_code_table.md R131). -/
theorem follow_of_mem_walk {t : Tree} {p : Bits} {e : CodeEntry} (h : e ∈ walk t p) :
    ∃ q w, e.bits = p ++ q ∧ follow t q = some (.leaf e.sym w) := by
  induction t generalizing p with
  | leaf s w =>
    simp only [walk, List.mem_singleton] at h
    subst h
    exact ⟨[], w, by simp, rfl⟩
  | internal w l r ihl ihr =>
    simp only [walk, List.mem_append] at h
    rcases h with h | h
    · obtain ⟨q, v, h1, h2⟩ := ihl h
      exact ⟨false :: q, v, by simpa using h1, by simpa [follow] using h2⟩
    · obtain ⟨q, v, h1, h2⟩ := ihr h
      exact ⟨true :: q, v, by simpa using h1, by simpa [follow] using h2⟩

/-- An entry of a derived table: its length field, its path, and how long it can be (44_code_table.md R131, R134). -/
theorem mem_codeTable {t : Tree} {e : CodeEntry} (h : e ∈ codeTable t) :
    e.len = BitVec.ofNat 16 e.bits.length ∧ e.bits.length + 1 ≤ (leaves t).length ∧
      ∃ w, follow t e.bits = some (.leaf e.sym w) := by
  obtain ⟨h1, -, h2⟩ := mem_walk h
  obtain ⟨q, w, h3, h4⟩ := follow_of_mem_walk h
  rw [List.nil_append] at h3
  exact ⟨h1, by simpa using h2, w, h3 ▸ h4⟩

/-- What the pipeline derives from a text (42_frequency_sort.md R103, 43_tree_builder.md R120, 44_code_table.md R132
to R135, 45_encoder.md R142). -/
theorem codesOf_spec {p : Params} (hp : paramsWellFormed p = true) {bs : List Byte} (hb : bs.length < 2 ^ 32)
    (hne : bs ≠ []) : ∃ m, (buildTree p.pendOrder (sortQueue p.tieOrder (freqTable bs))).main = some m ∧
      codesOf p bs = codeTable m.tree ∧ (codesOf p bs).length = (sortQueue p.tieOrder (freqTable bs)).length ∧
      (codesOf p bs).length ≤ 256 ∧ codesOf p bs ≠ [] ∧ ((codesOf p bs).map CodeEntry.sym).Nodup ∧
      (∀ b ∈ bs, ∃ e ∈ codesOf p bs, e.sym = b) ∧
      (∀ e ∈ codesOf p bs, e.len = BitVec.ofNat 16 e.bits.length ∧ e.bits.length ≤ 255) := by
  obtain ⟨hn, hl, -⟩ := params_bounds hp
  obtain ⟨hq, hq'⟩ := sortQueue_size hp hb hne
  obtain ⟨m, hm, -, hperm, -⟩ := buildTree_spec p.pendOrder hq hq'
  have hc : codesOf p bs = codeTable m.tree := by simp only [codesOf, hm]
  have hsym : ((codesOf p bs).map CodeEntry.sym).Perm ((sortQueue p.tieOrder (freqTable bs)).map QEntry.sym) := by
    rw [hc, codeTable, map_sym_walk]; exact hperm.map _
  have hlen : (codesOf p bs).length = (sortQueue p.tieOrder (freqTable bs)).length := by
    simpa using hsym.length_eq
  refine ⟨m, hm, hc, hlen, hlen ▸ hq', ?_, hsym.nodup_iff.2 (sortQueue_nodup hn _), fun b hbm => ?_, fun e he => ?_⟩
  · rintro h
    rw [h] at hlen
    exact hq (List.length_eq_zero_iff.1 hlen.symm)
  · have : b ∈ (codesOf p bs).map CodeEntry.sym := by
      rw [hsym.mem_iff, List.mem_map]
      exact ⟨⟨b, countOf (freqTable bs) b⟩, mem_sortQueue.2 ⟨mem_of_ranking hn hl b, (countOf_freqTable_ne_zero hb b).2 hbm, rfl⟩, rfl⟩
    exact List.mem_map.1 this
  · rw [hc] at he
    obtain ⟨h1, h2, -⟩ := mem_codeTable he
    rw [hperm.length_eq] at h2
    exact ⟨h1, by omega⟩

end Sys2Proof.Machine
end

