-- ==== Sys2Proof/Laws/Growth.lean ====
section
/-! SUPPORT. What every channel step of the writer does to `CBO` (20_memory.md R40, 40_channel_writer.md R81): it
appends, keeps the memory's form and stays within the capacity. -/

namespace Sys2Proof.Machine

/-- `c'` comes from `c` by appending to the stream. -/
structure Grows (cap : Nat) (c c' : OutChannel) : Prop where
  appends : ∃ bs, Appended bs c c'
  wf      : Memory.wf c.cbo → Memory.wf c'.cbo
  within  : Memory.within cap c.cbo → Memory.within cap c'.cbo
  fits    : c.len.toNat ≤ cap → c'.len.toNat ≤ cap

theorem Grows.refl (cap : Nat) (c : OutChannel) : Grows cap c c := ⟨⟨[], Appended.nil c⟩, id, id, id⟩

theorem Grows.trans {cap : Nat} {c d e : OutChannel} (h : Grows cap c d) (h' : Grows cap d e) : Grows cap c e := by
  obtain ⟨⟨bs, h1⟩, h2, h3, h4⟩ := h
  obtain ⟨⟨bs', h1'⟩, h2', h3', h4'⟩ := h'
  exact ⟨⟨bs ++ bs', h1.append h1'⟩, h2' ∘ h2, h3' ∘ h3, h4' ∘ h4⟩

/-- The stream alone matters, not the accumulator or the open flag. -/
theorem Grows.congr {cap : Nat} {c c' d d' : OutChannel} (h : Grows cap c c') (h1 : d.cbo = c.cbo) (h2 : d.len = c.len)
    (h3 : d'.cbo = c'.cbo) (h4 : d'.len = c'.len) : Grows cap d d' := by
  obtain ⟨⟨bs, g1⟩, g2, g3, g4⟩ := h
  exact ⟨⟨bs, g1.congr h1 h2 h3 h4⟩, by rw [h1, h3]; exact g2, by rw [h1, h3]; exact g3, by rw [h2, h4]; exact g4⟩

theorem Grows.emit {cap : Nat} (hcap : cap < 2 ^ 64) {op : Word} {b : Byte} {c c' : OutChannel}
    (h : emit cap op b c = .ok c') : Grows cap c c' := by
  have ha := Appended.emit hcap h
  obtain ⟨hlt, rfl⟩ := emit_eq_ok.1 h
  refine ⟨⟨_, ha⟩, fun hw => Memory.wf_write hw _ _, fun hw => Memory.within_write hw hlt _, fun _ => ?_⟩
  have := ha.1
  simp only [List.length_singleton] at this
  show (c.len + 1#64).toNat ≤ cap
  omega

theorem Grows.emitAcc {cap : Nat} (hcap : cap < 2 ^ 64) {op : Word} {c c' : OutChannel}
    (h : emitAcc cap op c = .ok c') : Grows cap c c' := by
  simp only [Machine.emitAcc, bind_eq_ok, Except.ok.injEq] at h
  obtain ⟨d, hd, rfl⟩ := h
  exact (Grows.emit hcap hd).congr rfl rfl rfl rfl

theorem Grows.flush {cap : Nat} (hcap : cap < 2 ^ 64) {op : Word} {c c' : OutChannel}
    (h : flush cap op c = .ok c') : Grows cap c c' := by
  unfold Machine.flush at h
  split at h
  · cases h; exact .refl cap _
  · exact .emitAcc hcap h

theorem Grows.emitAll {cap : Nat} (hcap : cap < 2 ^ 64) {op : Word} {bs : List Byte} {c c' : OutChannel}
    (h : emitAll cap op bs c = .ok c') : Grows cap c c' := by
  induction bs generalizing c with
  | nil => cases h; exact .refl cap _
  | cons b bs ih =>
    simp only [Machine.emitAll, bind_eq_ok] at h
    obtain ⟨d, hd, h⟩ := h
    exact (Grows.emit hcap hd).trans (ih h)

theorem Grows.put {cap : Nat} (hcap : cap < 2 ^ 64) {op v : Word} {n : Nat} {c c' : OutChannel}
    (h : put cap op v n c = .ok c') : Grows cap c c' := by
  unfold Machine.put at h
  split at h
  · simp only [bind_eq_ok] at h
    obtain ⟨d, hd, h⟩ := h
    exact (Grows.flush hcap hd).trans (.emitAll hcap h)
  · cases h

theorem Grows.putBit {cap : Nat} (hcap : cap < 2 ^ 64) {op : Word} {b f : Bool} {c c' : OutChannel}
    (h : putBit cap op b f c = .ok c') : Grows cap c c' := by
  unfold Machine.putBit at h
  split at h
  · exact (Grows.emitAcc hcap h).congr rfl rfl rfl rfl
  · cases h; exact (Grows.refl cap c).congr rfl rfl rfl rfl

theorem Grows.putBits {cap : Nat} (hcap : cap < 2 ^ 64) {op : Word} {bits : Bits} {c c' : OutChannel}
    (h : putBits cap op bits c = .ok c') : Grows cap c c' := by
  induction bits generalizing c with
  | nil => cases h; exact .refl cap _
  | cons b bs ih =>
    simp only [Machine.putBits, bind_eq_ok] at h
    obtain ⟨d, hd, h⟩ := h
    exact (Grows.putBit hcap hd).trans (ih h)

theorem Grows.putTable {cap : Nat} (hcap : cap < 2 ^ 64) {es : List CodeEntry} {c c' : OutChannel}
    (h : putTable cap es c = .ok c') : Grows cap c c' := by
  induction es generalizing c with
  | nil => cases h; exact .refl cap _
  | cons e es ih =>
    simp only [Machine.putTable, putEntry, bind_eq_ok] at h
    obtain ⟨d, ⟨d1, h1, d2, h2, h3⟩, h⟩ := h
    exact ((Grows.put hcap h1).trans ((Grows.put hcap h2).trans (.putBits hcap h3))).trans (ih h)

/-- The whole encoder (45_encoder.md R141). -/
theorem Grows.putContainer {cap : Nat} (hcap : cap < 2 ^ 64) {seed : Nat} {ct : List CodeEntry} {ctLen : BitVec 9}
    {srcLen : Word} {text : List Byte} {c c' : OutChannel} (h : putContainer cap seed ct ctLen srcLen text c = .ok c') :
    Grows cap c c' := by
  simp only [Machine.putContainer, bind_eq_ok, putPayload_eq] at h
  obtain ⟨d1, h1, d2, h2, d3, h3, d4, h4, h5⟩ := h
  exact (Grows.put hcap h1).trans ((Grows.put hcap h2).trans ((Grows.putTable hcap h3).trans
    ((Grows.putBits hcap h4).trans (.flush hcap h5))))

/-- Two ways of saying what was appended agree. -/
theorem Appended.of_outStream {cap : Nat} {bs : List Byte} {c c' : OutChannel} (h : Grows cap c c')
    (hs : Machine.outStream c' = Machine.outStream c ++ bs) : Appended bs c c' := by
  obtain ⟨bs', h⟩ := h.appends
  have := h.outStream
  rw [hs, List.append_cancel_left_eq] at this
  rwa [this]

/-- The codes of a text's bytes, when each byte has its entry in a table without repeated symbols (45_encoder.md
R142). -/
theorem flatMap_codeOf {seed : Nat} {ct : List CodeEntry} (hn : (ct.map CodeEntry.sym).Nodup) {code : Byte → Bits}
    {text : List Byte} (h : ∀ b ∈ text, ∃ e ∈ ct, e.sym = b ∧ e.bits = code b) :
    text.flatMap (codeOf seed ct) = text.flatMap code := by
  refine List.flatMap_congr fun b hb => ?_
  obtain ⟨e, he, rfl, hc⟩ := h b hb
  rw [codeOf_of_mem hn he, hc]

/-- The encoder on the state's own table: it finds no room, or it appends the container (45_encoder.md R141). -/
theorem putContainer_live {s : State} {code : Byte → Bits} (hp : paramsWellFormed s.params = true) (ho : OutOk s.out)
    (hct : s.ctLen.toNat = s.ct.length) (hnd : (s.ct.map CodeEntry.sym).Nodup)
    (hcov : ∀ b ∈ srcBytes s, ∃ e ∈ s.ct, e.sym = b ∧ e.bits = code b) :
    let container := containerBytes s.srcLen s.ct ((srcBytes s).flatMap code)
    (s.params.cboCap < s.out.len.toNat + (padBytes s.out).length + container.length →
      putContainer s.params.cboCap s.fresh (liveCodes s) s.ctLen s.srcLen (srcBytes s) s.out = .error ⟨.capacity, 0x34#32⟩) ∧
    (s.out.len.toNat + (padBytes s.out).length + container.length ≤ s.params.cboCap →
      ∃ c, putContainer s.params.cboCap s.fresh (liveCodes s) s.ctLen s.srcLen (srcBytes s) s.out = .ok c ∧
        Appended (padBytes s.out ++ container) s.out c ∧ c.acc = 0#8 ∧ c.cnt = 0#4) := by
  intro container
  obtain ⟨-, -, -, hcap, -⟩ := params_bounds hp
  have hl : liveCodes s = s.ct := by rw [liveCodes, hct, List.take_length]
  have hcl : s.ct.length < 512 := hct ▸ s.ctLen.isLt
  have hcw : s.ctLen.setWidth 32 = BitVec.ofNat 32 s.ct.length := by
    apply BitVec.eq_of_toNat_eq; simp [hct]
  have hfm := flatMap_codeOf (seed := s.fresh) hnd hcov
  have hcont : bytesLe s.srcLen 4 ++ bytesLe (s.ctLen.setWidth 32) 2 ++ tableBytes s.ct ((srcBytes s).flatMap (codeOf s.fresh s.ct)) = container := by
    rw [hfm, hcw]; rfl
  have hclen : container.length = 6 + (tableBytes s.ct ((srcBytes s).flatMap (codeOf s.fresh s.ct))).length := by
    rw [← hcont]; simp; omega
  have hspec : ∀ c, putContainer s.params.cboCap s.fresh (liveCodes s) s.ctLen s.srcLen (srcBytes s) s.out = .ok c →
      Appended (padBytes s.out ++ container) s.out c ∧ c.acc = 0#8 ∧ c.cnt = 0#4 ∧ c.len.toNat ≤ s.params.cboCap := by
    intro c hc
    obtain ⟨h1, h2, h3, -, h5⟩ := putContainer_spec hcap ho hc
    rw [hl, hcont, flushedStream, List.append_assoc] at h1
    exact ⟨Appended.of_outStream (Grows.putContainer hcap hc) h1, h2, h3, h5⟩
  refine ⟨fun hr => ?_, fun hr => ?_⟩
  · cases hc : putContainer s.params.cboCap s.fresh (liveCodes s) s.ctLen s.srcLen (srcBytes s) s.out with
    | error r => rw [putContainer_error hc]; rfl
    | ok c =>
      obtain ⟨⟨h1, -⟩, -, -, h2⟩ := hspec c hc
      simp only [List.length_append] at h1
      omega
  · obtain ⟨c, hc⟩ := putContainer_completes hcap ho (seed := s.fresh) (ct := liveCodes s) (ctLen := s.ctLen) (srcLen := s.srcLen) (text := srcBytes s) (by rw [hl, length_flushedStream]; omega)
    obtain ⟨h1, h2, h3, -⟩ := hspec c hc
    exact ⟨c, hc, h1, h2, h3⟩

/-- On a legal source the four stages complete one after the other, and the table is the text's (45_encoder.md R144). -/
theorem stages_complete {s : State} (hp : paramsWellFormed s.params = true) (h0 : s.srcLen ≠ 0#32) (hs : s.srcLen.toNat ≤ s.params.srcCap) :
  ∃ a b c d, freqBody s = .ok a ∧ sortBody a = .ok b ∧ treeBody b = .ok c ∧ codesBody c = .ok d ∧
   d.ct = codesOf s.params (srcBytes s) ∧ d.ctLen.toNat = d.ct.length ∧
   (d.freqV = true ∧ d.qV = true ∧ d.treeV = true ∧ d.ctV = true) ∧
   d = { s with freq := d.freq, freqV := true, q := d.q, qLen := d.qLen, qV := true, nodes := d.nodes, nNodes := d.nNodes, root := d.root, rootW := d.rootW, treeV := true, ct := d.ct, ctLen := d.ctLen, ctV := true, flagCleared := true } := by
  have hne : srcBytes s ≠ [] := by
    intro hh; have := congrArg List.length hh; simp at this; exact h0 (BitVec.eq_of_toNat_eq (by simpa using this))
  have hb := length_srcBytes_lt s
  obtain ⟨hq, hq'⟩ := sortQueue_size hp hb hne
  obtain ⟨m, hm, hcm, hlen, hle, -⟩ := codesOf_spec hp hb hne
  have f1 := freqBody_ok.2 ⟨hs, h0, rfl⟩
  refine ⟨_, _, _, _, f1, sortBody_ok.2 ⟨rfl, rfl⟩, treeBody_ok.2 ⟨rfl, rfl⟩, codesBody_ok.2 ⟨rfl, rfl⟩, ?_⟩
  simp only
  generalize hqd : sortQueue s.params.tieOrder (freqTable (srcBytes s)) = q at *
  have hql : (BitVec.ofNat 9 q.length).toNat = q.length := by simp; omega
  have hlq : ∀ x : State, x.q = q → x.qLen = BitVec.ofNat 9 q.length → liveQueue x = q := by
    rintro x rfl hx; rw [liveQueue, hx, hql, List.take_length]
  rw [hlq _ rfl rfl]
  rw [rootTree_of_buildTree hq hq' hm rfl rfl (by simp only [rootOf, hm]), ← hcm]
  refine ⟨rfl, by simp; omega, by simp, trivial⟩


/-- `COMPRESS` with the writer closed: it finds no room, or it writes the text's container (45_encoder.md R144, R145). -/
theorem compressBody_container {s : State} (hp : paramsWellFormed s.params = true) (h0 : s.srcLen ≠ 0#32) (hs : s.srcLen.toNat ≤ s.params.srcCap) (h : s.out.opened = false) :
  (s.params.cboCap < (containerOf s.params (srcBytes s)).length → compressBody s = .error ⟨.capacity, 0x34#32⟩) ∧
  ((containerOf s.params (srcBytes s)).length ≤ s.params.cboCap → ∃ t, compressBody s = .ok t ∧ t.err = s.err ∧
      outStream t.out = containerOf s.params (srcBytes s) ∧
      (∀ a, t.out.len.toNat ≤ a → byteAt .cbo t.out.cbo a = byteAt .cbo s.out.cbo a) ∧
      (t.freqV = true ∧ t.qV = true ∧ t.treeV = true ∧ t.ctV = true) ∧
      (t.out.opened = false ∧ t.out.acc = 0#8 ∧ t.out.cnt = 0#4) ∧
      t.total = s.srcLen ∧ t.unique.toNat = (codesOf s.params (srcBytes s)).length) := by
  have hne : srcBytes s ≠ [] := by
    intro hh; have := congrArg List.length hh; simp at this; exact h0 (BitVec.eq_of_toNat_eq (by simpa using this))
  have hb := length_srcBytes_lt s
  obtain ⟨m, hm, hcm, hlen, hle, -, hnd, hcov, -⟩ := codesOf_spec hp hb hne
  obtain ⟨a, b, c, d, h1, h2, h3, h4, k1, k2, k3, hd⟩ := stages_complete hp h0 hs
  have ho : d.out = s.out := by rw [hd]
  have ho' : d.out.opened = false := by rw [ho]; exact h
  have hsrc : srcBytes d = srcBytes s := by rw [hd]; rfl
  have hpar : d.params = s.params := by rw [hd]
  have hsl : d.srcLen = s.srcLen := by rw [hd]
  have hderr : d.err = s.err := by rw [hd]
  clear hd
  have hcode : ∀ x ∈ srcBytes s, ∃ e ∈ codesOf s.params (srcBytes s), e.sym = x ∧ e.bits = codeOf 0 (codesOf s.params (srcBytes s)) x := by
    intro x hx
    obtain ⟨e, he, rfl⟩ := hcov x hx
    exact ⟨e, he, rfl, (codeOf_of_mem hnd he).symm⟩
  have core := putContainer_live (s := { d with out := ⟨0#8, 0#4, true, d.out.cbo, 0#64⟩ }) (code := codeOf 0 (codesOf s.params (srcBytes s)))
    (by rw [← hpar] at hp; exact hp) ⟨by simp, by simp⟩ k2 (by show (d.ct.map _).Nodup; rw [k1]; exact hnd)
    (by show ∀ x ∈ srcBytes d, ∃ e ∈ d.ct, _; rw [hsrc, k1]; exact hcode)
  have hcont : containerBytes d.srcLen d.ct ((srcBytes d).flatMap (codeOf 0 (codesOf s.params (srcBytes s)))) = containerOf s.params (srcBytes s) := by
    rw [containerOf, hsrc, k1, hsl, length_srcBytes]; simp
  have hsrc' : srcBytes { d with out := ⟨0#8, 0#4, true, d.out.cbo, 0#64⟩ } = srcBytes d := rfl
  simp only [hsrc', hcont, padBytes, if_true, List.length_nil] at core
  obtain ⟨ce, ck⟩ := core
  refine ⟨fun hr => ?_, fun hr => ?_⟩
  · simp only [compressBody, h1, h2, h3, h4, ok_bind, wopenBody_ok.2 ⟨ho', rfl⟩]
    exact encodeBody_error.2 (.inr (.inr ⟨k3.2.2.2, rfl, ce (by simp [hpar]; omega)⟩))
  · obtain ⟨o, g1, g2, g3, g4⟩ := ck (by simp [hpar]; omega)
    refine ⟨_, compressBody_ok.2 ⟨a, b, c, d, _, h1, h2, h3, h4, wopenBody_ok.2 ⟨ho', rfl⟩, encodeBody_ok.2 ⟨k3.2.2.2, rfl, o, g1, rfl⟩⟩, hderr, ?_, ?_, k3, ⟨rfl, g3, g4⟩, hsl, ?_⟩
    · have := g2.outStream
      simp only [List.nil_append] at this
      exact this
    · intro x hx
      have h5 := g2.2 x
      have h6 := g2.1
      simp only [List.nil_append] at h5 h6
      have hx : o.len.toNat ≤ x := hx
      rw [show byteAt .cbo o.cbo x = _ from h5, if_neg (by rw [h6] at hx; omega), ho]
    · show (d.ctLen.setWidth 16).toNat = _
      rw [BitVec.toNat_setWidth, k2, k1]; omega

end Sys2Proof.Machine
end

