-- ==== Sys2Proof/Laws/Decoding.lean ====
section
/-! SUPPORT. The decoder as a whole: what it reads from a container, and where it stops without one (46_decoder.md). -/

namespace Sys2Proof.Machine

/-- In a table without prefixes every entry is reached by its code (44_code_table.md R135). -/
theorem eq_of_prefix {ct : List CodeEntry} (h : ct.Pairwise Apart) :
    ∀ e ∈ ct, ∀ x ∈ ct, x.bits <+: e.bits → x = e := by
  intro y hy x hx hp
  obtain ⟨i, hi, rfl⟩ := List.getElem_of_mem hx
  obtain ⟨j, hj, rfl⟩ := List.getElem_of_mem hy
  rw [List.pairwise_iff_getElem] at h
  rcases Nat.lt_trichotomy i j with hij | rfl | hij
  · exact absurd hp (h i j hi hj hij).1
  · rfl
  · exact absurd hp (h j i hj hi hij).2

/-- The map's entry of a table entry that is reached by its code is reached too. -/
theorem Reachable.of_table {ct : List CodeEntry} {e : CodeEntry} (he : e ∈ ct) (h : ∀ x ∈ ct, x.bits <+: e.bits → x = e) :
    Reachable (mapOf ct) ⟨e.bits, e.sym⟩ := by
  refine ⟨List.mem_map_of_mem he, fun x hx hp => ?_⟩
  obtain ⟨y, hy, rfl⟩ := List.mem_map.1 hx
  rw [h y hy hp]

/-- Its codes are pairwise distinct. -/
theorem nodup_of_pairwise {ct : List CodeEntry} (h : ct.Pairwise Apart) : (ct.map CodeEntry.bits).Nodup := by
  rw [List.Nodup, List.pairwise_map]
  refine h.imp fun {x y} hxy heq => hxy.1 ?_
  have : x.bits = y.bits := heq
  rw [this]

/-- How much is left, from what is left. -/
theorem available_eq {c : InChannel} {bs : List Byte} (h : restStream c = bs) : available c = bs.length := by
  rw [← length_restStream, h]

/-- The header is read back (30_encoding.md R70). -/
theorem get_header {c : InChannel} {total unique : Word} {rest : List Byte} (hp : c.pos.toNat ≤ c.len.toNat)
    (hu : unique.toNat < 2 ^ 16) (hr : restStream c = bytesLe total 4 ++ bytesLe unique 2 ++ rest) :
    6 ≤ available c ∧ ∃ c1 c2, get 4 (discard c) = .ok (total, c1) ∧ get 2 c1 = .ok (unique, c2) ∧
      restStream c2 = rest ∧ c2.cnt = 0#4 ∧ ReaderOk c2 := by
  have ha := available_eq hr
  rw [List.append_assoc] at hr
  obtain ⟨c1, h1, r1, -, k1⟩ := get_bytesLe (c := discard c) (n := 4) (by have := total.isLt; omega) hp hr
  obtain ⟨c2, h2, r2, z2, k2⟩ := get_bytesLe (n := 2) (by omega) k1.2.2 r1
  exact ⟨by rw [ha]; simp; omega, c1, c2, h1, h2, r2, z2, k2⟩

/-- Once the header is read and fits, `DECODE` is the table loop and then the payload loop (46_decoder.md R151). -/
theorem decodeBody_of_header {s : State} {total unique : Word} {rest : List Byte} (ho : s.inp.opened = true)
    (hp : s.inp.pos.toNat ≤ s.inp.len.toNat) (hu : unique.toNat < 2 ^ 16) (hm : unique.toNat ≤ s.params.dmapCap)
    (hd : total.toNat ≤ s.params.dstCap) (hr : restStream s.inp = bytesLe total 4 ++ bytesLe unique 2 ++ rest) :
    ∃ c, restStream c = rest ∧ c.cnt = 0#4 ∧ ReaderOk c ∧ SameStream s.inp c ∧
      decodeBody s = getTable s.params.dcodeMax unique.toNat 0 [] c >>= fun x =>
        getPayload x.1 total.toNat 0 s.dst x.2 >>= fun y =>
          .ok { s with
            inp := y.2, total := total, unique := unique.setWidth 16, dmap := x.1, dmapLen := BitVec.ofNat 16 x.1.length,
            dst := y.1, emitted := total, dstLen := total, dstV := true, flagCleared := true } := by
  obtain ⟨h6, c1, c2, g1, g2, r2, z2, k2⟩ := get_header hp hu hr
  have h6 : ¬ available s.inp < headerBytes := by simpa [headerBytes] using h6
  have hcap : ¬ (s.params.dmapCap < unique.toNat ∨ s.params.dstCap < total.toNat) := by omega
  have hss : SameStream s.inp c2 := (get_sameStream g1).trans (get_sameStream g2)
  refine ⟨c2, r2, z2, k2, hss, ?_⟩
  simp only [decodeBody, ho, if_true, available_discard, h6, if_false, g1, g2, ok_bind, hcap]

/-- An entry's fields as the decoder reads them. -/
def EntryOk (dcodeMax : Nat) (e : CodeEntry) : Prop := e.len.toNat = e.bits.length ∧ e.bits.length ≤ dcodeMax

theorem EntryOk.fields {d : Nat} {e : CodeEntry} (h : EntryOk d e) :
    e.len = BitVec.ofNat 16 e.bits.length ∧ e.bits.length < 2 ^ 16 ∧ e.bits.length ≤ d := by
  have h1 := e.len.isLt
  have h2 := h.1
  exact ⟨BitVec.eq_of_toNat_eq (by simp; omega), by omega, h.2⟩

/-- Once the table is read `DECODE` is the payload loop, standing before the payload's bits (46_decoder.md R153). -/
theorem decodeBody_of_table {s : State} {total : Word} {ct : List CodeEntry} {bits : Bits} {trail : List Byte}
    (ho : s.inp.opened = true) (hp : s.inp.pos.toNat ≤ s.inp.len.toNat) (hd : total.toNat ≤ s.params.dstCap) (hne : ct ≠ [])
    (hm : ct.length ≤ s.params.dmapCap) (hl : ct.length < 2 ^ 16) (he : ∀ e ∈ ct, EntryOk s.params.dcodeMax e)
    (hnd : (ct.map CodeEntry.bits).Nodup) (hr : restStream s.inp = containerBytes total ct bits ++ trail) :
    ∃ c k, ReaderOk c ∧ SameStream s.inp c ∧ k < 8 ∧ (∀ e ∈ ct.getLast?, (e.bits.length + bits.length + k) % 8 = 0) ∧
      inBits c = bits ++ (List.replicate k false ++ bitsOfBytes trail) ∧
      decodeBody s = getPayload (mapOf ct) total.toNat 0 s.dst c >>= fun y =>
        .ok { s with
          inp := y.2, total := total, unique := BitVec.ofNat 16 ct.length, dmap := mapOf ct,
          dmapLen := BitVec.ofNat 16 ct.length, dst := y.1, emitted := total, dstLen := total, dstV := true,
          flagCleared := true } := by
  have hu : (BitVec.ofNat 32 ct.length).toNat = ct.length := by simp; omega
  rw [containerBytes, List.append_assoc] at hr
  obtain ⟨c, r, -, k0, hss, h⟩ := decodeBody_of_header ho hp (by rw [hu]; exact hl) (by rw [hu]; exact hm) hd hr
  obtain ⟨c', k, g, k', hk, hpad, b⟩ := getTable_of_stream (m := []) (i := 0) hne (fun e h => (he e h).fields)
    (by simpa [mapOf, Function.comp_def] using hnd) k0.2.2 r
  refine ⟨c', k, k', hss.trans (getTable_sameStream g), hk, hpad, b, ?_⟩
  have e1 : (BitVec.ofNat 32 ct.length).setWidth 16 = BitVec.ofNat 16 ct.length := by
    apply BitVec.eq_of_toNat_eq; simp
  have e2 : (mapOf ct).length = ct.length := by simp [mapOf]
  rw [h, hu, g]
  simp only [ok_bind, List.nil_append, e1, e2]

/-- The decoder on a container made with a table of distinct codes, the text's codes reached (46_decoder.md R151, R153,
R156, R157, R159, R162). -/
theorem decodeBody_container {s : State} {total : Word} {ct : List CodeEntry} {text : List Byte} {code : Byte → Bits}
    {trail : List Byte} (ho : s.inp.opened = true) (hp : s.inp.pos.toNat ≤ s.inp.len.toNat)
    (ht : total.toNat = text.length) (hd : total.toNat ≤ s.params.dstCap) (hne : ct ≠ [])
    (hm : ct.length ≤ s.params.dmapCap) (hl : ct.length < 2 ^ 16)
    (he : ∀ e ∈ ct, EntryOk s.params.dcodeMax e) (hnd : (ct.map CodeEntry.bits).Nodup)
    (hc : ∀ b ∈ text, ∃ e ∈ ct, e.sym = b ∧ e.bits = code b ∧ ∀ x ∈ ct, x.bits <+: e.bits → x = e)
    (hr : restStream s.inp = containerBytes total ct (text.flatMap code) ++ trail) :
    ∃ dst c, decodeBody s = .ok { s with
        inp := c, total := total, unique := BitVec.ofNat 16 ct.length, dmap := mapOf ct,
        dmapLen := BitVec.ofNat 16 ct.length, dst := dst, emitted := total, dstLen := total, dstV := true,
        flagCleared := true } ∧
      (∀ a, byteAt .dst dst a = if a < text.length then text.getD a 0#8 else byteAt .dst s.dst a) ∧
      c.opened = true ∧ restStream c = trail ∧
      c.pos.toNat = s.inp.pos.toNat + (containerBytes total ct (text.flatMap code)).length := by
  obtain ⟨c, k, k1, hss, hk, -, b, h⟩ := decodeBody_of_table ho hp hd hne hm hl he hnd hr
  obtain ⟨dst, c', g, b', k', hss', hdst⟩ := getPayload_of_inBits (m := mapOf ct) (code := code) (text := text)
    (fun x hx => by obtain ⟨e, he, h1, h2, h3⟩ := hc x hx; exact ⟨_, .of_table he h3, h1, h2⟩) (k := 0) (dst := s.dst) k1 b
  have hrest := restStream_of_inBits k' hk b'
  obtain ⟨-, s2, s3⟩ := hss.trans hss'
  have g := g 0
  rw [Nat.add_zero, ← ht] at g
  refine ⟨dst, c', ?_, fun a => by simpa using hdst a, s3.trans ho, hrest, ?_⟩
  · rw [h, g]; simp only [getPayload, ok_bind]
  · have hav := available_eq hr
    have ha := available_eq hrest
    have hp' := k'.2.2
    rw [List.length_append] at hav
    rw [available] at hav ha
    rw [s2] at ha hp'
    omega

/-- The payload loop faults at the end of the stream when no code is a prefix of the bits behind the symbols read so far
(46_decoder.md R158, R163). -/
theorem getPayload_stuck {m : List MapEntry} {code : Byte → Bits} {text : List Byte}
    (ht : ∀ s ∈ text, ∃ e, Reachable m e ∧ e.sym = s ∧ e.bits = code s) {rest : Bits} {n k : Nat} {dst : Memory}
    {c : InChannel} (hn : text.length < n) (hk : ReaderOk c) (hb : inBits c = text.flatMap code ++ rest)
    (hs : ∀ e ∈ m, ¬ e.bits <+: rest) : getPayload m n k dst c = .error ⟨.truncated, c.len.setWidth 32⟩ := by
  obtain ⟨dst', c', g, b, k', hss, -⟩ := getPayload_of_inBits ht (k := k) (dst := dst) hk hb
  obtain ⟨n, rfl⟩ : ∃ j, n = text.length + (j + 1) := ⟨n - text.length - 1, by omega⟩
  rw [g, getPayload, getSymbol, matchCode_stuck k' (fun e he _ hp => hs e he (by simpa [b] using hp)), hss.2.1]
  rfl

/-- Where an entry is cut short by the end of the stream, or declares too long a code (46_decoder.md R151, R153, R163). -/
theorem getEntry_faults {d : Nat} {c : InChannel} {tail : List Byte} (hk : ReaderOk c) (hr : restStream c = tail) :
    (tail.length ≤ 1 → getEntry d c = .error ⟨.truncated, c.len.setWidth 32⟩) ∧
    (tail.length = 2 → getEntry d c = .error ⟨.truncated, (c.len - 1#64).setWidth 32⟩) ∧
    ∀ (e : CodeEntry) (rest : List Byte), tail = entryHead e ++ rest →
      (d < e.len.toNat → getEntry d c = .error ⟨.capacity, decodeOp⟩) ∧
      (e.len.toNat ≤ d → 8 * rest.length < e.len.toNat → getEntry d c = .error ⟨.truncated, c.len.setWidth 32⟩) := by
  have hp := hk.2.2
  have hav := available_eq hr
  have short : ∀ {j : Nat}, tail.length = j → (∃ i, j = i + 1) → j < 3 →
      getEntry d c = .error ⟨.truncated, (c.pos + 1#64).setWidth 32⟩ := by
    rintro j hj ⟨i, rfl⟩ h3
    obtain ⟨b, bs, hbs⟩ := List.exists_cons_of_length_eq_add_one hj
    rw [hbs, ← List.singleton_append] at hr
    obtain ⟨c1, g1, r1, -, k1⟩ := get_of_restStream hp hr
    obtain ⟨-, -, e1⟩ := get_eq_ok.1 g1
    have h2 : available c1 < 2 := by
      rw [available_eq r1]; rw [hbs] at hj; simp at hj; omega
    have g2 := (get_eq_error (n := 2) (r := ⟨.truncated, c1.pos.setWidth 32⟩)).2 ⟨h2, rfl⟩
    rw [e1] at g2
    simp only [getEntry, show get 1 c = _ from g1, ok_bind, e1]
    rw [show get 2 _ = _ from g2]; rfl
  rw [available] at hav
  refine ⟨fun h => ?_, fun h => ?_, fun e rest h => ?_⟩
  · rcases Nat.eq_zero_or_pos tail.length with h0 | h0
    · have g1 := (get_eq_error (n := 1) (r := ⟨.truncated, c.pos.setWidth 32⟩)).2
        ⟨by rw [available]; omega, rfl⟩
      have : c.pos = c.len := BitVec.eq_of_toNat_eq (by omega)
      rw [this] at g1
      simp only [getEntry, g1, error_bind]
    · rw [short (j := 1) (by omega) ⟨0, rfl⟩ (by omega)]
      have : c.pos + 1#64 = c.len := BitVec.eq_of_toNat_eq (by rw [BitVec.toNat_add]; simp; omega)
      rw [this]
  · rw [short (j := 2) (by omega) ⟨1, rfl⟩ (by omega)]
    have : c.pos + 1#64 = c.len - 1#64 := BitVec.eq_of_toNat_eq (by
      rw [BitVec.toNat_add, BitVec.toNat_sub]; simp; omega)
    rw [this]
  · subst h
    obtain ⟨x, r1, z1, k1, ss, g⟩ := getEntry_of_head (dcodeMax := d) hp hr
    refine ⟨fun h => by rw [g, if_pos h], fun h hs => ?_⟩
    rw [g, if_neg (not_lt.2 h), getBits_short k1 (by simp [inBits, z1, r1]; omega), ss.2.1]
    rfl

/-- Table entries that stand in the stream, each padded, are read one after the other (46_decoder.md R153). -/
theorem getTable_of_entries {d : Nat} {es : List CodeEntry} {rest : List Byte}
    (hlen : ∀ e ∈ es, EntryOk d e) {m : List MapEntry} {i n : Nat} {c : InChannel} (hnd : ((m ++ mapOf es).map MapEntry.bits).Nodup)
    (hk : ReaderOk c) (hr : restStream c = es.flatMap (fun x => entryHead x ++ packBits x.bits) ++ rest) :
    ∃ c', getTable d (es.length + n) i m c = getTable d n (i + es.length) (m ++ mapOf es) c' ∧ ReaderOk c' ∧
      SameStream c c' ∧ restStream c' = rest := by
  induction es generalizing m i c with
  | nil => exact ⟨c, by simp [mapOf], hk, .refl _, by simpa using hr⟩
  | cons e es ih =>
    obtain ⟨he1, he2, he3⟩ := (hlen e (by simp)).fields
    have hnew : (lookupCode m e.bits).isSome = false := by
      rw [← Bool.not_eq_true, Option.not_isSome_iff_eq_none, lookupCode_eq_none]
      intro x hx hxe
      rw [List.map_append, List.nodup_append] at hnd
      exact hnd.2.2 _ (List.mem_map_of_mem hx) _ (List.mem_map.2 ⟨⟨e.bits, e.sym⟩, by simp [mapOf], rfl⟩) hxe
    rw [List.flatMap_cons, List.append_assoc, List.append_assoc] at hr
    obtain ⟨x, r1, c1, k1, g1⟩ := getEntry_of_stream he1 he2 he3 hk.2.2 hr
    obtain ⟨x', g2, r2, k2⟩ := getBits_packBits k1 c1 r1
    have hm : m ++ mapOf (e :: es) = (m ++ [⟨e.bits, e.sym⟩]) ++ mapOf es := by simp [mapOf]
    obtain ⟨c', h1, h2, h4, h3⟩ := ih (fun x hx => hlen x (by simp [hx])) (m := m ++ [⟨e.bits, e.sym⟩]) (i := i + 1)
      (by rw [← hm]; exact hnd) k2 r2
    have hss : SameStream c x' := by
      have h : getEntry d c = .ok (⟨e.bits, e.sym⟩, x') := by rw [g1, g2]; rfl
      exact getEntry_sameStream h
    refine ⟨c', ?_, h2, hss.trans h4, h3⟩
    rw [List.length_cons, show es.length + 1 + n = es.length + n + 1 by omega, getTable, g1, g2]
    simp only [ok_bind, hnew, Bool.false_eq_true, if_false, hm, h1]
    rw [show i + 1 + es.length = i + (es.length + 1) by omega]

/-- `DECOMPRESS` on a container made with a prefix-free table (46_decoder.md R160). -/
theorem decompressBody_container {s : State} {total : Word} {ct : List CodeEntry} {text : List Byte} {code : Byte → Bits}
    {trail : List Byte}
    (ht : total.toNat = text.length) (hd : total.toNat ≤ s.params.dstCap) (hne : ct ≠ [])
    (hm : ct.length ≤ s.params.dmapCap) (hl : ct.length < 2 ^ 16)
    (he : ∀ e ∈ ct, e.len.toNat = e.bits.length ∧ e.bits.length ≤ s.params.dcodeMax) (ha : ct.Pairwise Apart)
    (hc : ∀ b ∈ text, ∃ e ∈ ct, e.sym = b ∧ e.bits = code b)
    (hload : Loaded (containerBytes total ct (text.flatMap code) ++ trail) s) :
    ∃ t, decompressBody s = .ok t ∧ t.err = none ∧
      (∀ a, byteAt .dst t.dst a = if a < text.length then text.getD a 0#8 else byteAt .dst s.dst a) ∧
      t.dstLen = total ∧ t.dstV = true ∧ t.inp.opened = false ∧ t.inp.buf = 0#8 ∧ t.inp.cnt = 0#4 ∧
      t.inp.pos.toNat = (containerBytes total ct (text.flatMap code)).length := by
  obtain ⟨e1, e2, e3, e4, e5⟩ := hload
  have hopen := ropenBody_ok.2 ⟨e2, e4, rfl⟩
  have hr : restStream ⟨0#8, 0#4, 0#64, true, s.inp.cbi, s.inp.len⟩ = containerBytes total ct (text.flatMap code) ++ trail := by
    rw [← e5, restStream, available]; simp [e3]
  obtain ⟨dst, c, h1, h2, h3, h4, h5⟩ := decodeBody_container (s := { s with inp := ⟨0#8, 0#4, 0#64, true, s.inp.cbi, s.inp.len⟩ })
    rfl (by simp) ht hd hne hm hl he (nodup_of_pairwise ha)
    (fun b hb => by obtain ⟨e, h, h1, h2⟩ := hc b hb; exact ⟨e, h, h1, h2, eq_of_prefix ha e h⟩) hr
  refine ⟨_, decompressBody_ok.2 ⟨_, _, hopen, h1, rcloseBody_ok.2 ⟨h3, rfl⟩⟩, e1, h2, rfl, rfl, rfl, rfl, rfl, ?_⟩
  simpa using h5

/-- What `DECODE` does depends on the reader, `DST` and the parameters only (46_decoder.md R150). -/
theorem decodeBody_local {s s' : State} (hi : s.inp = s'.inp) (hd : s.dst = s'.dst) (hp : s.params = s'.params) :
    decodeBody s' = (decodeBody s >>= fun t => .ok { s' with
      inp := t.inp, total := t.total, unique := t.unique, dmap := t.dmap, dmapLen := t.dmapLen, dst := t.dst,
      emitted := t.emitted, dstLen := t.dstLen, dstV := t.dstV, flagCleared := t.flagCleared }) := by
  unfold decodeBody
  rw [← hi, ← hd, ← hp]
  split
  · dsimp only
    split
    · rfl
    · cases get 4 (discard s.inp) with
      | error r => rfl
      | ok x =>
        simp only [ok_bind]
        cases get 2 x.2 with
        | error r => rfl
        | ok y =>
          simp only [ok_bind]
          split
          · rfl
          · cases getTable s.params.dcodeMax y.1.toNat 0 [] y.2 with
            | error r => rfl
            | ok z =>
              simp only [ok_bind]
              cases getPayload z.1 x.1.toNat 0 s.dst z.2 with
              | error r => rfl
              | ok w => simp only [ok_bind]
  · rfl

/-- Commands issued one after the other do what their pseudocode does in sequence, and stop with its first fault
(47_system.md R170, R171). -/
theorem runCommands_bodies {is : List (Instr × (State → Except Raise State))}
    (hs : ∀ p ∈ is, p.1 ≠ .sreset ∧ (∀ s, exec p.1 s = finish p.1 s (p.2 s)) ∧ ∀ s t, p.2 s = .ok t → t.err = s.err)
    (s : State) (he : s.err = none) :
    match is.foldlM (fun s p => p.2 s) s with
    | .ok t => runCommands (is.map Prod.fst) s = .next t ∧ t.err = none
    | .error r => ∃ u, runCommands (is.map Prod.fst) s = .next u ∧ u.err = some r.code ∧ u.errInfo = r.info := by
  induction is generalizing s with
  | nil => exact ⟨rfl, he⟩
  | cons p is ih =>
    obtain ⟨h0, h1, h2⟩ := hs p (by simp)
    rw [List.foldlM_cons, List.map_cons]
    cases hb : p.2 s with
    | error r =>
      simp only [error_bind]
      have hx : exec p.1 s = .next (takeFault (writesOf p.1) r s) := by rw [h1, hb]; rfl
      rw [runCommands_cons he hx, runCommands_latched (e := r.code) rfl]
      · exact ⟨_, rfl, rfl, rfl⟩
      · intro hm
        obtain ⟨q, hq, hq'⟩ := List.mem_map.1 hm
        exact (hs q (by simp [hq])).1 hq'
    | ok t =>
      simp only [ok_bind]
      have hx : exec p.1 s = .next t := by rw [h1, hb]; rfl
      rw [runCommands_cons he hx]
      exact ih (fun q hq => hs q (by simp [hq])) t ((h2 s t hb).trans he)

end Sys2Proof.Machine
end

