-- ==== Sys2Proof/Laws/Invariant.lean ====
section
/-! SUPPORT. What each command's pseudocode keeps: the memories' form, sound channels, and stage flags that describe
the present source (10_state.md R16, R18 to R21). -/

namespace Sys2Proof.Machine

/-- The invariant while no fault is latched. -/
def Live (s : State) : Prop :=
  OutOk s.out ∧ s.out.len.toNat ≤ s.params.cboCap ∧ InOk s.inp ∧ (s.inp.opened = true → s.inp.len.toNat ≤ s.params.cbiCap) ∧
    StagesOk s ∧ DecoderOk s

/-- Elements inside their memories. -/
def Elem.inside (p : Params) : Elem → Prop
  | .srcByte a => a < p.srcCap
  | .cbiByte a => a < p.cbiCap
  | _ => True

/-- Giving an element an unspecified value keeps the memories' form. -/
theorem havocElem_memoriesOk {s : State} (h : MemoriesOk s) {e : Elem} (he : e.inside s.params) :
    MemoriesOk (havocElem s e) := by
  obtain ⟨⟨h1, h2, h3, h4⟩, k1, k2, k3, k4⟩ := h
  cases e with
  | srcByte a => exact ⟨⟨Memory.wf_write h1 _ _, h2, h3, h4⟩, Memory.within_write k1 he _, k2, k3, k4⟩
  | cbiByte a => exact ⟨⟨h1, h2, Memory.wf_write h3 _ _, h4⟩, k1, k2, Memory.within_write k3 he _, k4⟩
  | cbo => exact ⟨⟨h1, (Memory.ofCells_ok _ _).1, h3, h4⟩, k1, (Memory.ofCells_ok _ _).2, k3, k4⟩
  | dst => exact ⟨⟨h1, h2, h3, (Memory.ofCells_ok _ _).1⟩, k1, k2, k3, (Memory.ofCells_ok _ _).2⟩
  | _ => exact ⟨⟨h1, h2, h3, h4⟩, k1, k2, k3, k4⟩

/-- So does giving several. -/
theorem havoc_memoriesOk {es : List Elem} {s : State} (h : MemoriesOk s) (he : ∀ e ∈ es, e.inside s.params) :
    MemoriesOk (havoc es s) := by
  induction es generalizing s with
  | nil => exact h
  | cons e es ih =>
    have hp : (havocElem s e).params = s.params := (havocElem_other s e).2.2.1
    exact ih (havocElem_memoriesOk h (he e (by simp))) fun x hx => hp ▸ he x (by simp [hx])

/-- What a command writes lies inside the memories. -/
theorem writesOf_inside (i : Instr) (p : Params) : ∀ e ∈ writesOf i, e.inside p := by
  intro e he
  cases i <;> simp only [writesOf, List.mem_cons, List.not_mem_nil, or_false] at he <;>
    rcases he with rfl | he <;> first | trivial | skip
  all_goals repeat (first | trivial | (rcases he with rfl | he))

/-- With a fault latched only the memories' form is asked for. -/
theorem inv_of_latched {s : State} {e : Err} (hp : paramsWellFormed s.params = true) (hm : MemoriesOk s) (he : s.err = some e) : Inv s :=
  ⟨hp, hm, fun h => by rw [he] at h; cases h⟩

/-- Fault entry keeps the invariant (60_exceptions.md R184). -/
theorem takeFault_inv {s : State} (hp : paramsWellFormed s.params = true) (hm : MemoriesOk s) {es : List Elem}
    (he : ∀ e ∈ es, e.inside s.params) (r : Raise) : Inv (takeFault es r s) :=
  inv_of_latched (e := r.code) (by rw [show (takeFault es r s).params = s.params from havoc_params es s]; exact hp) (havoc_memoriesOk hm he) rfl

/-- A reset establishes the invariant (70_reset_and_hazards.md R200). -/
theorem resetRegs_inv {s : State} (hp : paramsWellFormed s.params = true) (hm : MemoriesOk s) : Inv (resetRegs s) := by
  refine ⟨hp, hm, fun _ => ⟨⟨by simp [resetRegs], by simp [resetRegs]⟩, by simp [resetRegs], ⟨by simp [resetRegs], by simp [resetRegs], by simp [resetRegs]⟩, by simp [resetRegs], ?_, ?_⟩⟩
  · refine ⟨?_, ?_, ?_, ?_⟩ <;> intro h <;> cases h
  · exact ⟨fun _ => rfl, by simp [resetRegs], by simp [resetRegs]⟩

/-- The codes in the map are pairwise distinct (10_state.md R27). -/
theorem getTable_nodup {d n i : Nat} {m m' : List MapEntry} {c c' : InChannel} (h : getTable d n i m c = .ok (m', c'))
    (hm : (m.map MapEntry.bits).Nodup) : (m'.map MapEntry.bits).Nodup := by
  induction n generalizing i m c with
  | zero => cases h; exact hm
  | succ n ih =>
    simp only [getTable, bind_eq_ok, Prod.exists] at h
    obtain ⟨e, c1, -, h⟩ := h
    split at h
    · cases h
    · next hn =>
      refine ih h ?_
      rw [Option.not_isSome_iff_eq_none, lookupCode_eq_none] at hn
      rw [List.map_append, List.nodup_append]
      refine ⟨hm, by simp, ?_⟩
      rintro a ha b hb rfl
      obtain ⟨x, hx, rfl⟩ := List.mem_map.1 ha
      simp only [List.map_cons, List.map_nil, List.mem_singleton] at hb
      exact hn x hx hb

/-- The payload loop writes `DST[k .. k+n-1]` only. -/
theorem getPayload_memory {m : List MapEntry} {n k : Nat} {d d' : Memory} {c c' : InChannel} {cap : Nat}
    (h : getPayload m n k d c = .ok (d', c')) (hk : k + n ≤ cap) (hw : Memory.wf d) (hi : Memory.within cap d) :
    Memory.wf d' ∧ Memory.within cap d' := by
  induction n generalizing k d c with
  | zero => cases h; exact ⟨hw, hi⟩
  | succ n ih =>
    simp only [getPayload, bind_eq_ok, Prod.exists] at h
    obtain ⟨b, c1, -, h⟩ := h
    exact ih h (by omega) (Memory.wf_write hw _ _) (Memory.within_write hi (by omega) _)

/-- A fixed-width read leaves the reader sound. -/
theorem get_readerOk {n : Nat} {c c' : InChannel} {v : Word} (h : get n c = .ok (v, c')) (hp : c.pos.toNat ≤ c.len.toNat) : ReaderOk c' := by
  obtain ⟨ha, -, rfl⟩ := get_eq_ok.1 h
  refine ⟨by simp, by simp, ?_⟩
  have := pos_add_toNat ha
  simp only [available] at ha this
  show (c.pos + BitVec.ofNat 64 n).toNat ≤ c.len.toNat
  rcases this with h | h
  · rw [h]; omega
  · subst h; simpa using hp

/-- So does a run of bits. -/
theorem getBits_readerOk {n : Nat} {c c' : InChannel} {p : Bits} (h : getBits n c = .ok (p, c')) (hc : ReaderOk c) : ReaderOk c' := by
  induction n generalizing c p with
  | zero => cases h; exact hc
  | succ n ih =>
    simp only [getBits, bind_eq_ok, Prod.exists, Except.ok.injEq, Prod.mk.injEq] at h
    obtain ⟨b, d, hd, bs, e, he, -, rfl⟩ := h
    exact ih he (getBit_readerOk hc hd)

/-- So does the table. -/
theorem getTable_readerOk {d n i : Nat} {m m' : List MapEntry} {c c' : InChannel} (h : getTable d n i m c = .ok (m', c'))
    (hc : ReaderOk c) : ReaderOk c' := by
  induction n generalizing i m c with
  | zero => cases h; exact hc
  | succ n ih =>
    simp only [getTable, bind_eq_ok, Prod.exists] at h
    obtain ⟨e, c1, h1, h⟩ := h
    split at h
    · cases h
    · refine ih h ?_
      simp only [getEntry, bind_eq_ok, Prod.exists] at h1
      obtain ⟨v, a, ha, l, b, hb, h1⟩ := h1
      split at h1
      · cases h1
      · simp only [bind_eq_ok, Prod.exists, Except.ok.injEq, Prod.mk.injEq] at h1
        obtain ⟨p, x, hx, -, rfl⟩ := h1
        exact getBits_readerOk hx (get_readerOk hb (get_readerOk ha hc.2.2).2.2)

/-- So does one symbol. -/
theorem matchCode_readerOk {m : List MapEntry} {f : Nat} {cand : Bits} {c c' : InChannel} {b : Byte}
    (h : matchCode m f cand c = .ok (b, c')) (hc : ReaderOk c) : ReaderOk c' := by
  induction f generalizing cand c with
  | zero =>
    unfold matchCode at h
    split at h
    · cases h; exact hc
    · cases h
  | succ n ih =>
    unfold matchCode at h
    split at h
    · cases h; exact hc
    · simp only [bind_eq_ok, Prod.exists] at h
      obtain ⟨e, c1, h1, h⟩ := h
      exact ih h (getBit_readerOk hc h1)

/-- So does the payload. -/
theorem getPayload_readerOk {m : List MapEntry} {n k : Nat} {d d' : Memory} {c c' : InChannel}
    (h : getPayload m n k d c = .ok (d', c')) (hc : ReaderOk c) : ReaderOk c' := by
  induction n generalizing k d c with
  | zero => cases h; exact hc
  | succ n ih =>
    simp only [getPayload, bind_eq_ok, Prod.exists] at h
    obtain ⟨e, c1, h1, h⟩ := h
    exact ih h (matchCode_readerOk h1 hc)


/-- What the commands keep: legal parameters, the memories, and the rest of the invariant. -/
def Good (s : State) : Prop := paramsWellFormed s.params = true ∧ MemoriesOk s ∧ Live s

/-- A command that changes only the writer. -/
theorem Good.out {s : State} (h : Good s) {c : OutChannel} (hg : Grows s.params.cboCap s.out c) (ho : OutOk c) :
    Good { s with out := c } := by
  obtain ⟨hp, ⟨⟨h1, h2, h3, h4⟩, k1, k2, k3, k4⟩, l1, l2, l3, l4, l5, l6⟩ := h
  exact ⟨hp, ⟨⟨h1, hg.wf h2, h3, h4⟩, k1, hg.within k2, k3, k4⟩, ho, hg.fits l2, l3, l4, l5, l6⟩

/-- A command that changes only the reader, and `RDATA`. -/
theorem Good.inp {s : State} (h : Good s) {c : InChannel} (hs : c.cbi = s.inp.cbi)
    (hi : InOk c) (hc : c.opened = true → c.len.toNat ≤ s.params.cbiCap) (v : Word) : Good { s with rdata := v, inp := c } := by
  obtain ⟨hp, ⟨⟨h1, h2, h3, h4⟩, k1, k2, k3, k4⟩, l1, l2, l3, l4, l5, l6⟩ := h
  exact ⟨hp, ⟨⟨h1, h2, by rw [← hs] at h3; exact h3, h4⟩, k1, k2, by rw [← hs] at k3; exact k3, k4⟩, l1, l2, hi, hc, l5, l6⟩

theorem wopenBody_good {s t : State} (h : Good s) (hb : wopenBody s = .ok t) : Good t := by
  obtain ⟨-, rfl⟩ := wopenBody_ok.1 hb
  obtain ⟨hp, hm, l1, l2, l3, l4, l5, l6⟩ := h
  exact ⟨hp, hm, ⟨by simp, by simp⟩, by simp, l3, l4, l5, l6⟩

theorem putBody_good {op : Word} {n : Nat} (hn : 0 < n) {s t : State} (h : Good s) (hb : putBody op n s = .ok t) : Good t := by
  obtain ⟨-, c, hc, rfl⟩ := putBody_ok.1 hb
  have hcap := (params_bounds h.1).2.2.2.1
  exact h.out (.put hcap hc) (put_outStream hcap hn h.2.2.1 hc).2.2.1

theorem wbitBody_good {f : Bool} {s t : State} (h : Good s) (hb : wbitBody f s = .ok t) : Good t := by
  obtain ⟨-, -, c, hc, rfl⟩ := wbitBody_ok.1 hb
  have hcap := (params_bounds h.1).2.2.2.1
  refine h.out (.putBit hcap hc) ?_
  cases f with
  | false => exact (putBit_outBits hcap h.2.2.1 hc).2.1
  | true =>
    rcases putBit_eq_ok hc with ⟨⟨-, hh⟩, -⟩ | ⟨-, -, rfl⟩
    · cases hh
    · exact ⟨by simp, by simp⟩

theorem wcloseBody_good {s t : State} (h : Good s) (hb : wcloseBody s = .ok t) : Good t := by
  obtain ⟨-, c, hc, rfl⟩ := wcloseBody_ok.1 hb
  have hcap := (params_bounds h.1).2.2.2.1
  obtain ⟨-, h1, h2, -⟩ := flush_eq_ok hcap hc
  refine h.out ((Grows.flush hcap hc).congr rfl rfl rfl rfl) ⟨by simp [h1], ?_⟩
  simp only [h1, h2]
  split
  · next h0 => simp [h.2.2.1.acc_eq_zero h0]
  · simp

theorem ropenBody_good {s t : State} (h : Good s) (hb : ropenBody s = .ok t) : Good t := by
  obtain ⟨-, hl, rfl⟩ := ropenBody_ok.1 hb
  exact h.inp (c := ⟨0#8, 0#4, 0#64, true, s.inp.cbi, s.inp.len⟩) rfl ⟨by simp, by simp, by simp⟩ (fun _ => hl) s.rdata

theorem getBody_good {op : Word} {n : Nat} {s t : State} (h : Good s) (hb : getBody op n s = .ok t) : Good t := by
  obtain ⟨ho, v, c, hc, rfl⟩ := getBody_ok.1 hb
  obtain ⟨s1, s2, s3⟩ := get_sameStream hc
  exact h.inp s1 (get_readerOk hc (h.2.2.2.2.1.2.2 ho)).inOk (fun _ => by rw [s2]; exact h.2.2.2.2.2.1 ho) v

theorem rbitBody_good {s t : State} (h : Good s) (hb : rbitBody s = .ok t) : Good t := by
  obtain ⟨ho, v, c, hc, rfl⟩ := rbitBody_ok.1 hb
  obtain ⟨s1, s2, s3⟩ := getBit_sameStream hc
  exact h.inp s1 (getBit_readerOk (h.2.2.2.2.1.readerOk ho) hc).inOk (fun _ => by rw [s2]; exact h.2.2.2.2.2.1 ho) _

theorem rcloseBody_good {s t : State} (h : Good s) (hb : rcloseBody s = .ok t) : Good t := by
  obtain ⟨-, rfl⟩ := rcloseBody_ok.1 hb
  exact h.inp (c := { s.inp with buf := 0#8, cnt := 0#4, opened := false }) rfl ⟨by simp, by simp, by simp⟩ (by simp) s.rdata

theorem freqBody_good {s t : State} (h : Good s) (hb : freqBody s = .ok t) : Good t := by
  obtain ⟨hs, h0, rfl⟩ := freqBody_ok.1 hb
  obtain ⟨hp, hm, l1, l2, l3, l4, l5, l6⟩ := h
  have : s.srcLen.toNat ≠ 0 := fun hh => h0 (BitVec.eq_of_toNat_eq (by simpa using hh))
  refine ⟨hp, hm, l1, l2, l3, l4, ⟨fun _ => ⟨by simp only; omega, hs, rfl⟩, ?_, ?_, ?_⟩, l6⟩ <;> intro hh <;> cases hh

theorem sortBody_good {s t : State} (h : Good s) (hb : sortBody s = .ok t) : Good t := by
  obtain ⟨hf, rfl⟩ := sortBody_ok.1 hb
  obtain ⟨hp, hm, l1, l2, l3, l4, ⟨m1, -⟩, l6⟩ := h
  refine ⟨hp, hm, l1, l2, l3, l4, ⟨m1, fun _ => ⟨hf, rfl, rfl⟩, ?_, ?_⟩, l6⟩ <;> intro hh <;> cases hh

/-- While `Q_V = 1` the queue is the whole of `Q`, and has 1 to 256 entries. -/
theorem queue_of_valid {s : State} (h : Good s) (hq : s.qV = true) :
    s.q ≠ [] ∧ s.q.length ≤ 256 ∧ liveQueue s = s.q := by
  obtain ⟨hp, -, -, -, -, -, ⟨m1, m2, -⟩, -⟩ := h
  obtain ⟨hf, hq1, hq2⟩ := m2 hq
  obtain ⟨k1, -, k3⟩ := m1 hf
  have hne : srcBytes s ≠ [] := by
    intro hh; have := congrArg List.length hh; simp at this; simp [this] at k1
  obtain ⟨h1, h2⟩ := sortQueue_size hp (length_srcBytes_lt s) hne
  rw [← k3, ← hq1] at h1 h2
  refine ⟨h1, h2, ?_⟩
  rw [liveQueue, hq2]; simp; omega

theorem treeBody_good {s t : State} (h : Good s) (hb : treeBody s = .ok t) : Good t := by
  obtain ⟨hq, rfl⟩ := treeBody_ok.1 hb
  obtain ⟨h1, h2, h3⟩ := queue_of_valid h hq
  obtain ⟨hp, hm, l1, l2, l3, l4, ⟨m1, m2, -⟩, l6⟩ := h
  refine ⟨hp, hm, l1, l2, l3, l4, ⟨m1, m2, fun _ => ⟨hq, ?_, rfl, fun m hm => ?_⟩, ?_⟩, l6⟩
  · rw [h3]
  · simp only [h3, rootOf, hm, and_self]
  · intro hh; cases hh

theorem codesBody_good {s t : State} (h : Good s) (hb : codesBody s = .ok t) : Good t := by
  obtain ⟨ht, rfl⟩ := codesBody_ok.1 hb
  obtain ⟨hq, n1, n2, n3⟩ := h.2.2.2.2.2.2.1.2.2.1 ht
  obtain ⟨h1, h2, h3⟩ := queue_of_valid h hq
  obtain ⟨hp, hm, l1, l2, l3, l4, ⟨m1, m2, m3, -⟩, l6⟩ := h
  refine ⟨hp, hm, l1, l2, l3, l4, ⟨m1, m2, m3, fun _ => ⟨ht, rfl, fun m hm => ?_⟩⟩, l6⟩
  show codeTable (rootTree s) = _
  rw [rootTree_of_buildTree h1 h2 hm n1 n2 (n3 m hm).1]

theorem encodeBody_good {s t : State} (h : Good s) (hb : encodeBody s = .ok t) : Good t := by
  obtain ⟨-, -, c, hc, rfl⟩ := encodeBody_ok.1 hb
  have hcap := (params_bounds h.1).2.2.2.1
  obtain ⟨-, h1, h2, -⟩ := putContainer_spec hcap h.2.2.1 hc
  have := h.out (c := { c with opened := false }) ((Grows.putContainer hcap hc).congr rfl rfl rfl rfl) ⟨by simp [h2], by simp [h1]⟩
  exact this

theorem decodeBody_good {s t : State} (h : Good s) (hb : decodeBody s = .ok t) : Good t := by
  obtain ⟨ho, -, total, c1, unique, c2, m, c3, dst, c4, g1, g2, hu, ht, g3, g4, rfl⟩ := decodeBody_ok.1 hb
  have hk := getPayload_readerOk g4 (getTable_readerOk g3 (get_readerOk g2 (get_readerOk g1 (h.2.2.2.2.1.2.2 ho)).2.2))
  obtain ⟨s1, s2, s3⟩ := ((get_sameStream g1).trans (get_sameStream g2)).trans ((getTable_sameStream g3).trans (getPayload_sameStream g4))
  have s1 : c4.cbi = s.inp.cbi := s1
  have s2 : c4.len = s.inp.len := s2
  have hi := h.inp s1 hk.inOk (fun _ => by rw [s2]; exact h.2.2.2.2.2.1 ho) s.rdata
  obtain ⟨hp, ⟨⟨h1, h2, h3, h4⟩, k1, k2, k3, k4⟩, l1, l2, l3, l4, l5, l6⟩ := hi
  obtain ⟨d1, d2⟩ := getPayload_memory (cap := s.params.dstCap) g4 (by omega) h4 k4
  refine ⟨hp, ⟨⟨h1, h2, h3, d1⟩, k1, k2, k3, d2⟩, l1, l2, l3, l4, l5, by simp, ht, ?_⟩
  have := getTable_nodup g3 (by simp)
  exact this.sublist ((List.take_sublist _ _).map _)

theorem compressBody_good {s t : State} (h : Good s) (hb : compressBody s = .ok t) : Good t := by
  obtain ⟨a, b, c, d, e, h1, h2, h3, h4, h5, h6⟩ := compressBody_ok.1 hb
  exact encodeBody_good (wopenBody_good (codesBody_good (treeBody_good (sortBody_good (freqBody_good h h1) h2) h3) h4) h5) h6

theorem decompressBody_good {s t : State} (h : Good s) (hb : decompressBody s = .ok t) : Good t := by
  obtain ⟨a, b, h1, h2, h3⟩ := decompressBody_ok.1 hb
  exact rcloseBody_good (decodeBody_good (ropenBody_good h h1) h2) h3

end Sys2Proof.Machine
end

