-- ==== Sys2Proof/Laws/PerInstr.lean ====
section
/-! SUPPORT. One lemma per command about its encoding as syntax (30_encoding.md R60, R62, R63). -/

namespace Sys2Proof.Laws

/-- The fields of the command word: bits 31:9 are 0, bit 8 is the flush flag, which only `WBIT` has, bits 7:0 are the
opcode, which is in the map; the word is well formed (30_encoding.md R60, R62, R63). -/
def EncodingFields.Statement (i : Instr) : Prop :=
  (encode i).extractLsb' 9 23 = 0#23 ∧ (encode i).getLsbD 8 = flagOf i ∧ (encode i).extractLsb' 0 8 = opcodeOf i ∧
    opcodes.contains (opcodeOf i) = true ∧ (flagOf i = true → opcodeOf i = 0x14#8) ∧
    wordWellFormed (encode i) = true ∧ i.wellFormed = true

theorem EncodingFields.nop : EncodingFields.Statement .nop := by
  unfold EncodingFields.Statement
  decide

theorem EncodingFields.sreset : EncodingFields.Statement .sreset := by
  unfold EncodingFields.Statement
  decide

theorem EncodingFields.wopen : EncodingFields.Statement .wopen := by
  unfold EncodingFields.Statement
  decide

theorem EncodingFields.wubyte : EncodingFields.Statement .wubyte := by
  unfold EncodingFields.Statement
  decide

theorem EncodingFields.wushort : EncodingFields.Statement .wushort := by
  unfold EncodingFields.Statement
  decide

theorem EncodingFields.wuint : EncodingFields.Statement .wuint := by
  unfold EncodingFields.Statement
  decide

theorem EncodingFields.wbit (flush : Bool) : EncodingFields.Statement (.wbit flush) := by
  unfold EncodingFields.Statement
  cases flush <;> decide

theorem EncodingFields.wclose : EncodingFields.Statement .wclose := by
  unfold EncodingFields.Statement
  decide

theorem EncodingFields.ropen : EncodingFields.Statement .ropen := by
  unfold EncodingFields.Statement
  decide

theorem EncodingFields.rubyte : EncodingFields.Statement .rubyte := by
  unfold EncodingFields.Statement
  decide

theorem EncodingFields.rushort : EncodingFields.Statement .rushort := by
  unfold EncodingFields.Statement
  decide

theorem EncodingFields.ruint : EncodingFields.Statement .ruint := by
  unfold EncodingFields.Statement
  decide

theorem EncodingFields.rbit : EncodingFields.Statement .rbit := by
  unfold EncodingFields.Statement
  decide

theorem EncodingFields.rclose : EncodingFields.Statement .rclose := by
  unfold EncodingFields.Statement
  decide

theorem EncodingFields.freq : EncodingFields.Statement .freq := by
  unfold EncodingFields.Statement
  decide

theorem EncodingFields.sort : EncodingFields.Statement .sort := by
  unfold EncodingFields.Statement
  decide

theorem EncodingFields.tree : EncodingFields.Statement .tree := by
  unfold EncodingFields.Statement
  decide

theorem EncodingFields.codes : EncodingFields.Statement .codes := by
  unfold EncodingFields.Statement
  decide

theorem EncodingFields.encode : EncodingFields.Statement .encode := by
  unfold EncodingFields.Statement
  decide

theorem EncodingFields.decode : EncodingFields.Statement .decode := by
  unfold EncodingFields.Statement
  decide

theorem EncodingFields.compress : EncodingFields.Statement .compress := by
  unfold EncodingFields.Statement
  decide

theorem EncodingFields.decompress : EncodingFields.Statement .decompress := by
  unfold EncodingFields.Statement
  decide

end Sys2Proof.Laws
end

