-- ==== Sys2Proof/Tests/Slice0.lean ====
section
/-! SUPPORT. Tests. Expected results are taken from spec/95_test_vectors.md (named V<n>, T<n>) and from the encodings of
30_encoding.md; the witnesses show that the hypotheses of each obligation can be met, clause by clause. -/

namespace Sys2Proof.Tests

open Sys2Proof Sys2Proof.Machine

set_option Elab.async false

/-! ## Small states -/

/-- The state after the host writes command word `c` to `CMD`. -/
def after (c : Nat) (s : State) : State :=
  match step (s.withFetchWord 32 c) with
  | .next t => t
  | .fault _ => s
  | .refused _ => s

/-- The state after one event. -/
def afterAction (e : Event) (s : State) : State :=
  match step { s with pending := [e] } with
  | .next t => t
  | .fault _ => s
  | .refused _ => s

/-- The given bytes from address 0 on. -/
def cells (bs : List Byte) : Memory := (List.range bs.length).map fun k => (k, bs.getD k 0#8)

/-- Reset, then `SRC` loaded. -/
def source (bs : List Byte) : State :=
  { State.reset with src := cells bs, srcLen := BitVec.ofNat 32 bs.length }

/-- Reset, then `CBI` loaded. -/
def input (bs : List Byte) : State :=
  { State.reset with inp := { State.reset.inp with cbi := cells bs, len := BitVec.ofNat 64 bs.length } }

/-- The same with the reader open. -/
def reading (bs : List Byte) : State :=
  { State.reset with inp := { State.reset.inp with opened := true, cbi := cells bs, len := BitVec.ofNat 64 bs.length } }

/-- Reset, then the writer open on an empty stream, with an operand. -/
def writing (v : Word) : State :=
  { State.reset with wdata := v, out := { State.reset.out with opened := true } }

/-- The writer open after the bits 1, 0, 1 (V2), with an operand. -/
def writing3 (v : Word) : State :=
  { State.reset with wdata := v, out := { State.reset.out with opened := true, acc := 0xA0#8, cnt := 3#4 } }

/-- A queue as `SORT` would leave it. -/
def queued (q : List QEntry) : State :=
  { State.reset with q := q, qLen := BitVec.ofNat 9 q.length, qV := true }

/-- The queue entries of consecutive symbols with the given counts. -/
def entries (s : Byte) : List Word → List QEntry
  | [] => []
  | c :: cs => ⟨s, c⟩ :: entries (s + 1#8) cs

/-- `CBO_CAP` set to a small value. -/
def capped (n : Nat) (s : State) : State := { s with params := { s.params with cboCap := n } }

theorem capped_wellFormed {n : Nat} (h : n ≤ 2 ^ 64 - 1) {s : State} (hs : s.params = Config.defaultParams) :
    paramsWellFormed (capped n s).params = true := by
  have hd := defaultParams_wellFormed
  simp only [capped, hs, paramsWellFormed, Bool.and_eq_true, decide_eq_true_eq] at hd ⊢
  exact ⟨⟨⟨⟨⟨hd.1.1.1.1.1, h⟩, hd.1.1.1.2⟩, hd.1.1.2⟩, hd.1.2⟩, hd.2⟩

/-- `ab`. -/
def textAb : List Byte := [0x61#8, 0x62#8]

/-- `aaabbbbbcc`. -/
def textD00 : List Byte := [0x61#8, 0x61#8, 0x61#8, 0x62#8, 0x62#8, 0x62#8, 0x62#8, 0x62#8, 0x63#8, 0x63#8]

/-- The code table of `ab` (V36). -/
def codesAb : List CodeEntry := [⟨0x61#8, 1#16, [false]⟩, ⟨0x62#8, 1#16, [true]⟩]

/-- The codes of `ab` as a function. -/
def codeAb (b : Byte) : Bits := if b = 0x61#8 then [false] else [true]

/-- The container of `ab` (V36). -/
def containerAb : List Byte :=
  [0x02#8, 0x00#8, 0x00#8, 0x00#8, 0x02#8, 0x00#8, 0x61#8, 0x01#8, 0x00#8, 0x00#8, 0x62#8, 0x01#8, 0x00#8, 0xA0#8]

/-- `ab` with its code table derived (P4 step 5). -/
def derivedAb : State :=
  { source textAb with
    freqV := true, qV := true, treeV := true, ctV := true, qLen := 2#9, ct := codesAb, ctLen := 2#9 }

/-- A latched fault. -/
def faulted : State := { State.reset with err := some .illegal, errInfo := 2#32 }

/-! ## Well-formedness: what the checks refuse -/

theorem smoke_reserved_bits : wordWellFormed 0x80000000#32 = false := by decide
theorem smoke_flush_flag : wordWellFormed 0x00000111#32 = false := by decide
theorem smoke_opcode : wordWellFormed 0x00000002#32 = false := by decide
theorem smoke_read_register : HostAction.offered Config.defaultParams (.readReg 21) = false := by decide
theorem smoke_write_register : HostAction.offered Config.defaultParams (.writeReg 7 0#64) = false := by decide
theorem smoke_write_width : HostAction.offered Config.defaultParams (.writeReg 1 0x100000000#64) = false := by decide
theorem smoke_write_memory : HostAction.offered Config.defaultParams (.writeMem .dst 0 0#8) = false := by decide
theorem smoke_write_address :
    HostAction.offered { Config.defaultParams with srcCap := 4 } (.writeMem .src 4 0#8) = false := by decide
theorem smoke_capacity : paramsWellFormed { Config.defaultParams with srcCap := 2 ^ 32 } = false := by decide +kernel
theorem smoke_tie_order : paramsWellFormed { Config.defaultParams with tieOrder := [] } = false := by decide +kernel

/-! ## Decoding: words written out from 30_encoding.md R60, R62 (bits 31:9 zero, `F`, `OP`) -/

theorem test_decode_nop : decode 0b00000000000000000000000000000000#32 = .ok .nop := by decide
theorem test_decode_sreset : decode 0b00000000000000000000000000000001#32 = .ok .sreset := by decide
theorem test_decode_wopen : decode 0b00000000000000000000000000010000#32 = .ok .wopen := by decide
theorem test_decode_wubyte : decode 0b00000000000000000000000000010001#32 = .ok .wubyte := by decide
theorem test_decode_wushort : decode 0b00000000000000000000000000010010#32 = .ok .wushort := by decide
theorem test_decode_wuint : decode 0b00000000000000000000000000010011#32 = .ok .wuint := by decide
theorem test_decode_wbit : decode 0b00000000000000000000000000010100#32 = .ok (.wbit false) := by decide
theorem test_decode_wbit_flush : decode 0b00000000000000000000000100010100#32 = .ok (.wbit true) := by decide
theorem test_decode_wclose : decode 0b00000000000000000000000000010101#32 = .ok .wclose := by decide
theorem test_decode_ropen : decode 0b00000000000000000000000000100000#32 = .ok .ropen := by decide
theorem test_decode_rubyte : decode 0b00000000000000000000000000100001#32 = .ok .rubyte := by decide
theorem test_decode_rushort : decode 0b00000000000000000000000000100010#32 = .ok .rushort := by decide
theorem test_decode_ruint : decode 0b00000000000000000000000000100011#32 = .ok .ruint := by decide
theorem test_decode_rbit : decode 0b00000000000000000000000000100100#32 = .ok .rbit := by decide
theorem test_decode_rclose : decode 0b00000000000000000000000000100101#32 = .ok .rclose := by decide
theorem test_decode_freq : decode 0b00000000000000000000000000110000#32 = .ok .freq := by decide
theorem test_decode_sort : decode 0b00000000000000000000000000110001#32 = .ok .sort := by decide
theorem test_decode_tree : decode 0b00000000000000000000000000110010#32 = .ok .tree := by decide
theorem test_decode_codes : decode 0b00000000000000000000000000110011#32 = .ok .codes := by decide
theorem test_decode_encode : decode 0b00000000000000000000000000110100#32 = .ok .encode := by decide
theorem test_decode_decode : decode 0b00000000000000000000000000110101#32 = .ok .decode := by decide
theorem test_decode_compress : decode 0b00000000000000000000000001000000#32 = .ok .compress := by decide
theorem test_decode_decompress : decode 0b00000000000000000000000001000001#32 = .ok .decompress := by decide

/-- V76, V77, V78. -/
theorem test_decode_illegal :
    decode 0x00000002#32 = .error .unknownOpcode ∧ decode 0x00000111#32 = .error .flushFlag ∧
      decode 0x80000000#32 = .error .reservedBits := by decide

/-- No word selects two rows of 30_encoding.md R62. -/
theorem test_rows_apart :
    opcodeRows.Pairwise fun r r' => r.value &&& (r.mask &&& r'.mask) ≠ r'.value &&& (r.mask &&& r'.mask) := by
  decide +kernel

/-- The fixed interface decodes a table word and steps on it. -/
theorem test_table_word :
    decodeTableWord 32 0x114 = some (.wbit true) ∧ decodeTableWord 32 2 = none ∧
      statusWord (after 0x10 State.reset) = 1#32 := by decide +kernel

/-! ## One step each -/

/-- V75. -/
theorem test_nop : statusWord (after 0x00 State.reset) = 0#32 := by decide +kernel

/-- V80, V81. -/
theorem test_sreset :
    let t := after 0x01 { source textAb with err := some .illegal, errInfo := 2#32 }
    statusWord t = 0#32 ∧ t.errInfo = 0#32 ∧ t.srcLen = 0#32 ∧ t.src = cells textAb := by decide +kernel

/-- V76. -/
theorem test_illegal :
    statusWord (after 0x02 State.reset) = 0x900#32 ∧ (after 0x02 State.reset).errInfo = 2#32 := by decide +kernel

/-- V79. -/
theorem test_latched :
    statusWord (after 0x10 faulted) = 0x900#32 ∧ (after 0x10 faulted).errInfo = 2#32 := by decide +kernel

/-- V1. -/
theorem test_wopen :
    statusWord (after 0x10 State.reset) = 1#32 ∧ (after 0x10 State.reset).out.len = 0#64 ∧
      chwWord (after 0x10 State.reset).out = 0#32 := by decide +kernel

/-- V16. -/
theorem test_wopen_open : (after 0x10 (writing 0#32)).err = some .seq ∧ (after 0x10 (writing 0#32)).errInfo = 0x10#32 := by
  decide +kernel

/-- V3: the partial byte is padded and flushed, then the byte follows. -/
theorem test_wubyte :
    outStream (after 0x11 (writing3 0x61#32)).out = [0xA0#8, 0x61#8] ∧ chwWord (after 0x11 (writing3 0x61#32)).out = 0#32 := by
  decide +kernel

/-- V10. -/
theorem test_wubyte_range :
    (after 0x11 (writing 256#32)).err = some .range ∧ (after 0x11 (writing 256#32)).errInfo = 256#32 ∧
      (after 0x11 (writing 256#32)).out.opened = true := by decide +kernel

/-- V7, the second write: 258 is `02 01`. -/
theorem test_wushort : outStream (after 0x12 (writing 258#32)).out = [0x02#8, 0x01#8] := by decide +kernel

/-- V17: the second `emit` finds no room. -/
theorem test_wushort_capacity :
    (after 0x12 (capped 1 (writing 0#32))).err = some .capacity ∧
      (after 0x12 (capped 1 (writing 0#32))).errInfo = 0x12#32 := by decide +kernel

/-- V8. -/
theorem test_wuint : outStream (after 0x13 (writing 0x04030201#32)).out = [0x01#8, 0x02#8, 0x03#8, 0x04#8] := by
  decide +kernel

/-- V2, the third bit. -/
theorem test_wbit :
    chwWord (after 0x14 { writing 1#32 with out := { (writing 1#32).out with acc := 0x80#8, cnt := 2#4 } }).out = 0x3A0#32 := by
  decide +kernel

/-- V6: the eighth bit with the flush flag emits one byte, not two. -/
theorem test_wbit_flush :
    outStream (after 0x114 { writing 1#32 with out := { (writing 1#32).out with acc := 0#8, cnt := 7#4 } }).out = [0x01#8] := by
  decide +kernel

/-- V5, the close. -/
theorem test_wclose :
    outStream (after 0x15 (writing3 0#32)).out = [0xA0#8] ∧ statusWord (after 0x15 (writing3 0#32)) = 0#32 := by
  decide +kernel

/-- V18. -/
theorem test_ropen :
    statusWord (after 0x20 (input [0xA0#8, 0x61#8])) = 2#32 ∧ (after 0x20 (input [0xA0#8, 0x61#8])).inp.pos = 0#64 := by
  decide +kernel

/-- V21: the unread bits are discarded. -/
theorem test_rubyte :
    let t := after 0x21 { reading [0xA0#8, 0x61#8] with inp := { (reading [0xA0#8, 0x61#8]).inp with pos := 1#64, cnt := 5#4 } }
    t.rdata = 0x61#32 ∧ t.inp.pos = 2#64 ∧ t.inp.cnt = 0#4 := by decide +kernel

/-- V26. -/
theorem test_rushort_truncated :
    (after 0x22 (reading [0x01#8])).err = some .truncated ∧ (after 0x22 (reading [0x01#8])).errInfo = 0#32 := by
  decide +kernel

/-- V22, the second read: `02 01` is 258. -/
theorem test_rushort : (after 0x22 (reading [0x02#8, 0x01#8])).rdata = 258#32 := by decide +kernel

/-- V24. -/
theorem test_ruint :
    (after 0x23 (reading [0x01#8, 0x02#8, 0x03#8, 0x04#8])).rdata = 0x04030201#32 ∧
      (after 0x23 (reading [0x01#8, 0x02#8, 0x03#8, 0x04#8])).inp.pos = 4#64 := by decide +kernel

/-- V19, the first bit. -/
theorem test_rbit :
    let t := after 0x24 (reading [0xA0#8, 0x61#8])
    t.rdata = 1#32 ∧ t.inp.pos = 1#64 ∧ t.inp.buf = 0x40#8 ∧ t.inp.cnt = 7#4 := by decide +kernel

/-- V31. -/
theorem test_rclose :
    let t := after 0x25 { reading [0xA0#8, 0x61#8] with inp := { (reading [0xA0#8, 0x61#8]).inp with pos := 1#64, cnt := 5#4 } }
    statusWord t = 0#32 ∧ t.inp.pos = 1#64 ∧ chrWord t.inp = 0#32 := by decide +kernel

/-- V33. -/
theorem test_freq :
    let t := after 0x30 (source textD00)
    countOf t.freq 0x61#8 = 3#32 ∧ countOf t.freq 0x62#8 = 5#32 ∧ countOf t.freq 0x63#8 = 2#32 ∧
      countOf t.freq 0x64#8 = 0#32 ∧ statusWord t = 4#32 := by decide +kernel

/-- V50. -/
theorem test_freq_empty :
    (after 0x30 State.reset).err = some .emptyInput ∧ (after 0x30 State.reset).errInfo = 0#32 := by decide +kernel

/-- V33. -/
theorem test_sort :
    let t := after 0x31 { State.reset with freqV := true, freq := freqTable textD00 }
    t.q = [⟨0x63#8, 2#32⟩, ⟨0x61#8, 3#32⟩, ⟨0x62#8, 5#32⟩] ∧ t.qLen = 3#9 ∧ statusWord t = 0x0C#32 := by decide +kernel

/-- V48: ties by byte value. -/
theorem test_sort_ties :
    (after 0x31 { State.reset with freqV := true, freq := freqTable [0x62#8, 0x61#8] }).q =
      [⟨0x61#8, 1#32⟩, ⟨0x62#8, 1#32⟩] := by decide +kernel

/-- T10, the arena. -/
theorem test_tree :
    let t := after 0x32 (queued [⟨0x63#8, 1#32⟩, ⟨0x64#8, 1#32⟩, ⟨0x62#8, 2#32⟩, ⟨0x72#8, 2#32⟩, ⟨0x61#8, 5#32⟩])
    t.nodes = [.leaf 0x63#8 1#32, .leaf 0x64#8 1#32, .internal 2#32 0#9 1#9, .leaf 0x62#8 2#32, .leaf 0x72#8 2#32,
        .internal 4#32 3#9 4#9, .internal 6#32 2#9 5#9, .leaf 0x61#8 5#32, .internal 11#32 7#9 6#9] ∧
      t.nNodes = 9#9 ∧ t.root = 8#9 ∧ t.rootW = 11#32 := by decide +kernel

/-- T5: a candidate held back on equal weight, then merged in list order, then a strictly lighter pending pair first. -/
theorem test_tree_hold_back :
    (codeTable (rootTree (after 0x32 (queued (entries 0x61#8 (List.replicate 12 1#32)))))).map (fun e => (e.sym, e.bits)) =
      [(0x6B#8, [false, false]), (0x6C#8, [false, true]), (0x61#8, [true, false, false, false]),
        (0x62#8, [true, false, false, true]), (0x63#8, [true, false, true, false]), (0x64#8, [true, false, true, true]),
        (0x65#8, [true, true, false, false, false]), (0x66#8, [true, true, false, false, true]),
        (0x67#8, [true, true, false, true, false]), (0x68#8, [true, true, false, true, true]),
        (0x69#8, [true, true, true, false]), (0x6A#8, [true, true, true, true])] := by decide +kernel

/-- V20: the code table of the arena given there. -/
theorem test_codes :
    (after 0x33 { State.reset with
        treeV := true, nNodes := 5#9, root := 4#9, rootW := 10#32,
        nodes := [.leaf 0x63#8 2#32, .leaf 0x61#8 3#32, .internal 5#32 0#9 1#9, .leaf 0x62#8 5#32, .internal 10#32 2#9 3#9] }).ct =
      [⟨0x63#8, 2#16, [false, false]⟩, ⟨0x61#8, 2#16, [false, true]⟩, ⟨0x62#8, 1#16, [true]⟩] := by decide +kernel

/-- T1: a single leaf has the empty code. -/
theorem test_codes_leaf :
    (after 0x33 { State.reset with
        treeV := true, nNodes := 1#9, root := 0#9, rootW := 4#32, nodes := [.leaf 0x61#8 4#32] }).ct =
      [⟨0x61#8, 0#16, []⟩] := by decide +kernel

/-- V62: the container follows the host's own bytes, the partial byte first. -/
theorem test_encode :
    let t := after 0x34 { derivedAb with
        out := { acc := 0x80#8, cnt := 1#4, opened := true, cbo := cells [0x7E#8], len := 1#64 } }
    outStream t.out = [0x7E#8, 0x80#8] ++ containerAb ∧ statusWord t = 0x3C#32 := by decide +kernel

/-- V61. -/
theorem test_encode_no_table :
    (after 0x34 (writing 0#32)).err = some .seq ∧ (after 0x34 (writing 0#32)).errInfo = 0x34#32 := by decide +kernel

/-- V54, with the reader opened by the host. -/
theorem test_decode :
    let t := after 0x35 (reading containerAb)
    bytesAt .dst t.dst 0 2 = textAb ∧ t.dstLen = 2#32 ∧ t.inp.pos = 14#64 ∧ t.inp.cnt = 5#4 ∧
      t.dmap = [⟨[false], 0x61#8⟩, ⟨[true], 0x62#8⟩] := by decide +kernel

/-- V68: a repeated code. -/
theorem test_decode_duplicate :
    let t := after 0x35 (reading [0x02#8, 0x00#8, 0x00#8, 0x00#8, 0x02#8, 0x00#8, 0x61#8, 0x01#8, 0x00#8, 0x00#8, 0x62#8,
      0x01#8, 0x00#8, 0x00#8])
    t.err = some .dupCode ∧ t.errInfo = 1#32 := by decide +kernel

/-- V39. -/
theorem test_compress :
    let t := after 0x40 (source [0x61#8, 0x62#8, 0x72#8, 0x61#8, 0x63#8, 0x61#8, 0x64#8, 0x61#8, 0x62#8, 0x72#8, 0x61#8])
    outStream t.out =
      [0x0B#8, 0x00#8, 0x00#8, 0x00#8, 0x05#8, 0x00#8, 0x61#8, 0x01#8, 0x00#8, 0x00#8, 0x63#8, 0x03#8, 0x00#8, 0x80#8, 0x64#8]
        ++ [0x03#8, 0x00#8, 0xA0#8, 0x62#8, 0x03#8, 0x00#8, 0xC0#8, 0x72#8, 0x03#8, 0x00#8, 0xED#8, 0xD1#8, 0x5B#8, 0x80#8] ∧
      statusWord t = 0x3C#32 := by decide +kernel

/-- V20, the container of 30_encoding.md R77. -/
theorem test_compress_d00 :
    let t := after 0x40 (source textD00)
    outStream t.out =
      [0x0A#8, 0x00#8, 0x00#8, 0x00#8, 0x03#8, 0x00#8, 0x63#8, 0x02#8, 0x00#8, 0x00#8, 0x61#8, 0x02#8, 0x00#8, 0x40#8, 0x62#8,
        0x01#8, 0x00#8, 0xAB#8, 0xF0#8] ∧
      t.total = 10#32 ∧ t.unique = 3#16 ∧ t.root = 4#9 ∧ t.nNodes = 5#9 := by decide +kernel

/-- V53: a single-symbol container has no payload. -/
theorem test_decompress :
    let t := after 0x41 (input [0x04#8, 0x00#8, 0x00#8, 0x00#8, 0x01#8, 0x00#8, 0x61#8, 0x00#8, 0x00#8])
    bytesAt .dst t.dst 0 4 = [0x61#8, 0x61#8, 0x61#8, 0x61#8] ∧ t.inp.pos = 9#64 ∧ statusWord t = 0x40#32 := by
  decide +kernel

/-- V66: `TOTAL` too large for the payload. -/
theorem test_decompress_truncated :
    let t := after 0x41 (input (0x0A#8 :: containerAb.drop 1))
    t.err = some .truncated ∧ t.errInfo = 14#32 := by decide +kernel

/-- V32. -/
theorem test_host_write_open :
    let t := afterAction (.host (.writeMem .cbi 0 0xFF#8)) (reading [0xA0#8, 0x61#8])
    t.err = some .seq ∧ t.errInfo = 0x100#32 ∧ t.inp.cbi = cells [0xA0#8, 0x61#8] := by decide +kernel

/-- V52: a write of `SRC_LEN` clears the stage flags though the value stays. -/
theorem test_host_write_length :
    statusWord (afterAction (.host (.writeReg 5 2#64)) derivedAb) = 0#32 := by decide +kernel

/-- Rules R12 and U8: `ROOT` and `ROOT_W` read 0 after reset and are any value once a stage flag has been cleared, here by
`FREQ` and by a write of `SRC_LEN` before any `TREE`; `TREE` makes them definite again. -/
theorem test_root_unspecified :
    rootStale State.reset = false ∧ rootStale (after 0x30 (source textAb)) = true ∧
      rootStale (afterAction (.host (.writeReg 5 2#64)) State.reset) = true ∧
      rootStale (after 0x01 (after 0x30 (source textAb))) = false ∧
      regValue (after 0x32 (queued (entries 0x61#8 [1#32, 1#32]))) 16 = 2#64 := by decide +kernel

/-! ## Witnesses of the obligations' hypotheses -/

theorem witness_illegal :
    State.reset.err = none ∧
      (0x00000002#32).setWidth 8 ∉ [0x00#8, 0x01#8, 0x10#8, 0x11#8, 0x12#8, 0x13#8, 0x14#8, 0x15#8, 0x20#8, 0x21#8, 0x22#8,
        0x23#8, 0x24#8, 0x25#8, 0x30#8, 0x31#8, 0x32#8, 0x33#8, 0x34#8, 0x35#8, 0x40#8, 0x41#8] ∧
      (0x00000200#32) >>> 9 ≠ 0#32 ∧
      ((0x00000111#32).getLsbD 8 = true ∧ (0x00000111#32).setWidth 8 ≠ 0x14#8) := by decide

theorem witness_step :
    (State.reset.withFetchWord 32 0x10).pending = .host (.writeReg 0 ((0x00000010#32).setWidth 64)) :: [] ∧
      (State.reset.withFetchWord 32 0x10).err = none ∧ decode 0x00000010#32 = .ok .wopen := by decide +kernel

theorem witness_latched :
    faulted.err = some .illegal ∧ (Event.host (.readReg 3) ≠ .host (.writeReg 0 0x00000001#64)) ∧
      ∃ t, step { faulted with pending := [.host (.readReg 3)] } = .next t ∧ t.err = some .illegal :=
  ⟨rfl, by decide, _, rfl, rfl⟩

theorem witness_raised :
    State.reset.err = none ∧ exec .wubyte State.reset = .next (takeFault (writesOf .wubyte) ⟨.closed, 0x11#32⟩ State.reset) ∧
      (takeFault (writesOf .wubyte) ⟨.closed, 0x11#32⟩ State.reset).err = some .closed := ⟨rfl, rfl, rfl⟩

theorem witness_frames :
    (Instr.wopen ≠ .sreset ∧ exec .wopen State.reset = .next (writing 0#32)) ∧
      (∃ t, exec .wclose (writing3 0#32) = .next t ∧ t.err = none) ∧
      (∃ t, exec .ropen (input [0xA0#8]) = .next t ∧ t.err = none) ∧
      (∃ t, exec .rubyte (reading [0xA0#8]) = .next t ∧ t.err = none) :=
  ⟨⟨by decide, rfl⟩, ⟨_, rfl, rfl⟩, ⟨_, rfl, rfl⟩, ⟨_, rfl, rfl⟩⟩

theorem witness_stage_frames :
    (∃ t, exec .freq (source textAb) = .next t) ∧ (∃ t, exec .sort derivedAb = .next t) ∧
      (∃ t, exec .tree derivedAb = .next t) ∧ (∃ t, exec .codes derivedAb = .next t) :=
  ⟨finish_isNext .freq (source textAb) (freqBody (source textAb)), finish_isNext .sort derivedAb (sortBody derivedAb),
    finish_isNext .tree derivedAb (treeBody derivedAb), finish_isNext .codes derivedAb (codesBody derivedAb)⟩

theorem witness_container_frames :
    (∃ t, exec .encode { derivedAb with out := { derivedAb.out with opened := true } } = .next t) ∧
      (∃ t, exec .decode (reading containerAb) = .next t) ∧ (∃ t, exec .compress (source textAb) = .next t) ∧
      (∃ t, exec .decompress (input containerAb) = .next t) :=
  ⟨finish_isNext .encode { derivedAb with out := { derivedAb.out with opened := true } } (encodeBody { derivedAb with out := { derivedAb.out with opened := true } }),
    finish_isNext .decode (reading containerAb) (decodeBody (reading containerAb)),
    finish_isNext .compress (source textAb) (compressBody (source textAb)),
    finish_isNext .decompress (input containerAb) (decompressBody (input containerAb))⟩

theorem witness_reset :
    ({ derivedAb with pending := [.hardReset] } : State).pending = .hardReset :: [] := rfl

theorem witness_abandon :
    ({ derivedAb with pending := [.hardResetDuring 0x34#32] } : State).pending = .hardResetDuring 0x34#32 :: [] ∧
      decode 0x34#32 = .ok .encode ∧ Elem.dst ∉ writesOf .encode := by decide +kernel

theorem witness_little_endian :
    (255#32).toNat < 2 ^ (8 * 1) ∧ (65535#32).toNat < 2 ^ (8 * 2) ∧ (4294967295#32).toNat < 2 ^ (8 * 4) := by decide

theorem witness_wopen : (writing 0#32).out.opened = true ∧ State.reset.out.opened = false := by decide +kernel

/-- Each clause at a boundary: closed; the smallest value out of range; one byte short of room; exactly enough room. -/
theorem witness_put :
    State.reset.out.opened = false ∧
      ((writing 256#32).out.opened = true ∧ 2 ^ (8 * 1) ≤ (writing 256#32).wdata.toNat) ∧
      (2 ^ (8 * 2) ≤ (writing 65536#32).wdata.toNat) ∧
      ((writing3 255#32).wdata.toNat < 2 ^ (8 * 1) ∧
        (capped 1 (writing3 255#32)).params.cboCap < 0 + (padBytes (writing3 255#32).out).length + 1) ∧
      (0 + (padBytes (writing3 255#32).out).length + 1 ≤ (capped 2 (writing3 255#32)).params.cboCap ∧
        (capped 2 (writing3 255#32)).params.cboCap ≤ 2 ^ 64 - 1) ∧
      OutOk (writing3 255#32).out := by unfold OutOk; decide +kernel

/-- Closed; the smallest value that is no bit; the last bit that is only buffered; the eighth bit with and without
room; the flush flag. -/
theorem witness_wbit :
    State.reset.out.opened = false ∧ 1 < (writing 2#32).wdata.toNat ∧
      ((writing 1#32).wdata.toNat ≤ 1 ∧ ({ (writing 1#32).out with cnt := 6#4 } : OutChannel).cnt.toNat < 7) ∧
      (({ (writing 1#32).out with cnt := 7#4 } : OutChannel).cnt.toNat = 7 ∧
        (capped 0 (writing 1#32)).params.cboCap ≤ (writing 1#32).out.len.toNat) ∧
      (writing 1#32).out.len.toNat < (capped 1 (writing 1#32)).params.cboCap := by decide +kernel

theorem witness_wclose :
    State.reset.out.opened = false ∧ ((writing 0#32).out.opened = true ∧ (writing 0#32).out.cnt = 0#4) ∧
      ((writing3 0#32).out.opened = true ∧ (writing3 0#32).out.cnt ≠ 0#4 ∧
        (capped 0 (writing3 0#32)).params.cboCap ≤ (writing3 0#32).out.len.toNat) ∧
      (writing3 0#32).out.len.toNat < (capped 1 (writing3 0#32)).params.cboCap := by decide +kernel

theorem witness_bit_runs :
    paramsWellFormed (capped 1 (writing 0#32)).params = true ∧ (writing 0#32).err = none ∧
      OutOk (writing 0#32).out ∧ (writing 0#32).out.cnt = 0#4 ∧
      (writing 0#32).out.len.toNat + (List.replicate 15 true).length / 8 ≤ (capped 1 (writing 0#32)).params.cboCap :=
  ⟨capped_wellFormed (by decide) rfl, by unfold OutOk; decide +kernel⟩

theorem witness_emitted :
    exec .wopen State.reset = .next (writing 0#32) ∧ exec .wopen (source textAb) =
        .next { source textAb with out := { State.reset.out with opened := true } } ∧
      State.reset.params.cboCap = (source textAb).params.cboCap ∧
      (runWriter [(.wbit true, 1#32), (.wubyte, 0x61#32), (.wushort, 258#32), (.wuint, 1#32), (.wbit false, 1#32), (.wclose, 0#32)]
        (writing 0#32)).isSome = true :=
  ⟨rfl, rfl, rfl, by decide +kernel⟩

theorem witness_ropen :
    (reading []).inp.opened = true ∧ (input [0x00#8]).inp.opened = false ∧
      ({ (input [0x00#8]).params with cbiCap := 0 } : Params).cbiCap < (input [0x00#8]).inp.len.toNat ∧
      (input [0x00#8]).inp.len.toNat ≤ ({ (input [0x00#8]).params with cbiCap := 1 } : Params).cbiCap := by decide +kernel

/-- Closed; one byte short; exactly enough. -/
theorem witness_get :
    State.reset.inp.opened = false ∧ (reading [0x01#8]).inp.opened = true ∧
      (reading [0x01#8]).inp.len.toNat < (reading [0x01#8]).inp.pos.toNat + 2 ∧
      (reading [0x01#8]).inp.pos.toNat + 1 ≤ (reading [0x01#8]).inp.len.toNat := by decide +kernel

theorem witness_rbit :
    State.reset.inp.opened = false ∧
      ((reading []).inp.opened = true ∧ (reading []).inp.cnt = 0#4 ∧ (reading []).inp.len.toNat ≤ (reading []).inp.pos.toNat) ∧
      ({ (reading []).inp with cnt := 1#4, buf := 0x80#8 } : InChannel).cnt ≠ 0#4 ∧
      (reading [0x01#8]).inp.pos.toNat < (reading [0x01#8]).inp.len.toNat := by decide +kernel

theorem witness_rclose : State.reset.inp.opened = false ∧ (reading []).inp.opened = true := by decide +kernel

theorem witness_bit_reads :
    (reading [0xCA#8, 0x80#8]).err = none ∧ (reading [0xCA#8, 0x80#8]).inp.opened = true ∧
      (reading [0xCA#8, 0x80#8]).inp.cnt = 0#4 ∧ (reading [0xCA#8, 0x80#8]).inp.buf = 0#8 ∧
      (reading [0xCA#8, 0x80#8]).inp.pos.toNat ≤ (reading [0xCA#8, 0x80#8]).inp.len.toNat ∧
      16 ≤ 8 * ((reading [0xCA#8, 0x80#8]).inp.len.toNat - (reading [0xCA#8, 0x80#8]).inp.pos.toNat) := by decide +kernel

theorem witness_position :
    (reading [0x01#8]).inp.opened = true ∧ (after 0x21 (reading [0x01#8])).err = none := by decide +kernel

/-- A bit, a byte, a short, written from reset, closed, and loaded into another machine. -/
theorem witness_mirror :
    ∃ t c, runWrites [.bit true, .ubyte 0x61#8, .ushort 258#16, .bit false] (writing 0#32) = some t ∧
      exec .wclose t = .next c ∧ c.err = none ∧ Loaded (outStream c.out) (input [0x80#8, 0x61#8, 0x02#8, 0x01#8, 0x00#8]) := by
  refine ⟨_, _, rfl, rfl, ?_⟩
  unfold Loaded
  decide +kernel

theorem witness_freq :
    ({ (source textAb).params with srcCap := 1 } : Params).srcCap < (source textAb).srcLen.toNat ∧
      State.reset.srcLen = 0#32 ∧
      ((source textAb).srcLen ≠ 0#32 ∧ (source textAb).srcLen.toNat ≤ ({ (source textAb).params with srcCap := 2 } : Params).srcCap) ∧
      (after 0x30 (source textAb)).err = none := by decide +kernel

theorem witness_sort :
    paramsWellFormed State.reset.params = true ∧ State.reset.freqV = false ∧ derivedAb.freqV = true ∧
      derivedAb.params.tieOrder = (List.range 256).map (BitVec.ofNat 8) := ⟨defaultParams_wellFormed, rfl, rfl, rfl⟩

/-- A loaded source meets the invariant. -/
theorem witness_source : Good (source textAb) := by
  refine ⟨defaultParams_wellFormed, ⟨by decide +kernel, ?_, ?_, ?_, ?_⟩, ?_⟩
  · unfold Memory.within; decide +kernel
  · unfold Memory.within; decide +kernel
  · unfold Memory.within; decide +kernel
  · unfold Memory.within; decide +kernel
  · refine ⟨by unfold OutOk; decide +kernel, by decide +kernel, by unfold InOk; decide +kernel, by decide +kernel, ?_,
      by unfold DecoderOk; decide +kernel⟩
    refine ⟨?_, ?_, ?_, ?_⟩ <;> exact fun h => absurd h (by decide +kernel)

/-- The invariant with `Q_V`, and with `CT_V`, by the commands that set them. -/
theorem witness_stages :
    ∃ s, Inv s ∧ s.err = none ∧ s.qV = true ∧ s.ctV = true := by
  obtain ⟨a, b, c, d, h1, h2, h3, h4, -, -, ⟨-, hq, -, hc⟩, hd⟩ :=
    stages_complete (s := source textAb) defaultParams_wellFormed (by decide +kernel) (by decide +kernel)
  obtain ⟨g1, g2, g3⟩ := codesBody_good (treeBody_good (sortBody_good (freqBody_good witness_source h1) h2) h3) h4
  exact ⟨d, ⟨g1, g2, fun _ => g3⟩, by rw [hd]; rfl, hq, hc⟩

/-- A queue of one entry, and one of 256. -/
theorem witness_tree :
    State.reset.qV = false ∧
      ((queued (entries 0#8 [4#32])).qV = true ∧ 1 ≤ (queued (entries 0#8 [4#32])).qLen.toNat ∧
        (queued (entries 0#8 [4#32])).q.length = (queued (entries 0#8 [4#32])).qLen.toNat) ∧
      ((queued (entries 0#8 (List.replicate 256 1#32))).qLen.toNat ≤ 256 ∧
        (queued (entries 0#8 (List.replicate 256 1#32))).q.length =
          (queued (entries 0#8 (List.replicate 256 1#32))).qLen.toNat) := by decide +kernel

/-- Queues of one to ten entries; a candidate heavier than the main tree and one as heavy; a held candidate that does and
one that does not outweigh the main tree. -/
theorem witness_small_trees :
    (queued []).params.pendOrder = .olderFirst ∧
      (∀ n, n ≤ 10 → (queued (entries 0#8 (List.replicate n 1#32))).qLen = BitVec.ofNat 9 n ∧
        (entries 0#8 (List.replicate n 1#32)).length = n) ∧
      (1 + 1 + (1 + 1) < (2 + 2 + (2 + 2) : Word) ∧ ¬ 1 + 1 + (1 + 1) < (1 + 1 + (1 + 1) : Word)) ∧
      (1 + 1 + (1 + 1) < (1 + 1 + (1 + 1) + (1 + 1) : Word) ∧ ¬ 9 + 9 + (9 + 9) < (1 + 1 + (1 + 1) + (1 + 1) : Word)) ∧
      ∀ q : List QEntry, ∃ t, exec .tree (queued q) = .next t := by
  exact ⟨rfl, by decide +kernel, by decide, by decide, fun q => finish_isNext .tree (queued q) (treeBody (queued q))⟩

theorem witness_tree_of_queue :
    (queued (entries 0#8 [1#32, 2#32])).q.take 2 = ({ queued (entries 0#8 [1#32, 2#32, 3#32]) with qLen := 2#9 } : State).q.take 2 ∧
      (queued (entries 0#8 [1#32, 2#32])).q.take 2 ≠ [] := by decide +kernel

/-- A tree of two leaves, and a single leaf. -/
theorem witness_codes :
    State.reset.treeV = false ∧
      rootTree { State.reset with
          treeV := true, nNodes := 3#9, root := 2#9, nodes := [.leaf 0x61#8 1#32, .leaf 0x62#8 1#32, .internal 2#32 0#9 1#9] } =
        .internal 2#32 (.leaf 0x61#8 1#32) (.leaf 0x62#8 1#32) ∧
      rootTree { State.reset with treeV := true, nNodes := 1#9, root := 0#9, nodes := [.leaf 0x61#8 4#32] } =
        .leaf 0x61#8 4#32 := by decide +kernel

theorem witness_complete :
    ∀ e ∈ (after 0x33 { State.reset with
        treeV := true, nNodes := 3#9, root := 2#9,
        nodes := [.leaf 0x61#8 1#32, .leaf 0x62#8 1#32, .internal 2#32 0#9 1#9] }).ct, e.bits.length < [true, false].length := by
  decide +kernel

/-- No table, on a loaded source; writer closed; one byte short of room; exactly enough. -/
theorem witness_encode :
    paramsWellFormed (capped 14 derivedAb).params = true ∧ OutOk derivedAb.out ∧ derivedAb.ctLen.toNat = derivedAb.ct.length ∧
      (derivedAb.ct.map CodeEntry.sym).Nodup ∧
      (∀ b ∈ bytesAt .src derivedAb.src 0 derivedAb.srcLen.toNat, ∃ e ∈ derivedAb.ct, e.sym = b ∧ e.bits = codeAb b) ∧
      ((source textAb).ctV = false ∧ (source textAb).ct = []) ∧ (derivedAb.ctV = true ∧ derivedAb.out.opened = false) ∧
      ({ derivedAb with out := { derivedAb.out with opened := true } } : State).out.opened = true ∧
      (containerBytes derivedAb.srcLen derivedAb.ct ((bytesAt .src derivedAb.src 0 derivedAb.srcLen.toNat).flatMap codeAb) =
        containerAb) ∧
      ((capped 13 derivedAb).params.cboCap < 0 + 0 + containerAb.length ∧
        0 + 0 + containerAb.length ≤ (capped 14 derivedAb).params.cboCap) :=
  ⟨capped_wellFormed (by decide) rfl, by unfold OutOk; decide +kernel⟩

theorem witness_compress :
    paramsWellFormed (capped 14 (source textAb)).params = true ∧ ({ (source textAb).params with srcCap := 1 } : Params).srcCap < (source textAb).srcLen.toNat ∧ State.reset.srcLen = 0#32 ∧
      ((source textAb).srcLen ≠ 0#32 ∧ (source textAb).srcLen.toNat ≤ (source textAb).params.srcCap) ∧
      (writing 0#32).out.opened = true ∧ (source textAb).out.opened = false ∧ (source textAb).err = none ∧
      containerOf (source textAb).params (bytesAt .src (source textAb).src 0 2) = containerAb ∧
      ((capped 13 (source textAb)).params.cboCap < containerAb.length ∧
        containerAb.length ≤ (capped 14 (source textAb)).params.cboCap) :=
  ⟨capped_wellFormed (by decide) rfl, by decide +kernel⟩

/-- The container of `ab`, with a trailing byte. -/
theorem witness_decode :
    let s := reading (containerAb ++ [0xFF#8])
    paramsWellFormed s.params = true ∧ s.inp.opened = true ∧ s.inp.pos.toNat ≤ s.inp.len.toNat ∧
      (2#32).toNat = textAb.length ∧ (2#32).toNat ≤ s.params.dstCap ∧ codesAb ≠ [] ∧ codesAb.length ≤ s.params.dmapCap ∧
      codesAb.length < 2 ^ 16 ∧ (∀ e ∈ codesAb, e.len.toNat = e.bits.length ∧ e.bits.length ≤ s.params.dcodeMax) ∧
      (codesAb.map CodeEntry.bits).Nodup ∧
      (∀ b ∈ textAb, ∃ e ∈ codesAb, e.sym = b ∧ e.bits = codeAb b ∧ ∀ x ∈ codesAb, x.bits <+: e.bits → x = e) ∧
      restStream s.inp = containerBytes 2#32 codesAb (textAb.flatMap codeAb) ++ [0xFF#8] :=
  ⟨defaultParams_wellFormed, by decide +kernel⟩

/-- V70: a table that is not prefix-free; and the empty code beside another. -/
theorem witness_decode_prefix :
    let ct : List CodeEntry := [⟨0x61#8, 1#16, [false]⟩, ⟨0x62#8, 2#16, [false, false]⟩]
    let empty : List CodeEntry := [⟨0x61#8, 1#16, [false]⟩, ⟨0x62#8, 0#16, []⟩]
    let s := reading [0x03#8, 0x00#8, 0x00#8, 0x00#8, 0x02#8, 0x00#8, 0x61#8, 0x01#8, 0x00#8, 0x00#8, 0x62#8, 0x02#8, 0x00#8, 0x00#8]
    (ct.map CodeEntry.bits).Nodup ∧ ⟨0x61#8, 1#16, [false]⟩ ∈ ct ∧ (∀ x ∈ ct, x.bits <+: [false] → x = ⟨0x61#8, 1#16, [false]⟩) ∧
      restStream s.inp = containerBytes 3#32 ct ([0x61#8, 0x61#8, 0x61#8].flatMap fun _ => [false]) ++ [] ∧
      (empty.map CodeEntry.bits).Nodup ∧ ∀ x ∈ empty, x.bits <+: [] → x = ⟨0x62#8, 0#16, []⟩ := by decide +kernel

/-- Closed; five bytes; a header with a size above a capacity. -/
theorem witness_decode_header :
    State.reset.inp.opened = false ∧
      ((reading [0#8, 0#8, 0#8, 0#8, 0#8]).inp.opened = true ∧
        (reading [0#8, 0#8, 0#8, 0#8, 0#8]).inp.len.toNat - (reading [0#8, 0#8, 0#8, 0#8, 0#8]).inp.pos.toNat < 6) ∧
      (restStream (reading containerAb).inp = bytesLe 2#32 4 ++ bytesLe 2#32 2 ++ containerAb.drop 6 ∧ (2#32).toNat < 2 ^ 16) ∧
      ({ (reading containerAb).params with dstCap := 1 } : Params).dstCap < (2#32).toNat ∧
      ({ (reading containerAb).params with dmapCap := 1 } : Params).dmapCap < (2#32).toNat := by decide +kernel

/-- V55 and V69. -/
theorem witness_decode_no_table :
    (restStream (reading [0#8, 0#8, 0#8, 0#8, 0#8, 0#8]).inp = bytesLe 0#32 4 ++ bytesLe 0#32 2 ++ []) ∧
      (restStream (reading [5#8, 0#8, 0#8, 0#8, 0#8, 0#8, 0xFF#8, 0xFF#8]).inp =
        bytesLe 5#32 4 ++ bytesLe 0#32 2 ++ [0xFF#8, 0xFF#8] ∧ (5#32 : Word) ≠ 0#32 ∧
        (5#32).toNat ≤ (reading []).params.dstCap) := by decide +kernel

/-- V68. -/
theorem witness_decode_duplicate :
    let es : List CodeEntry := [⟨0x61#8, 1#16, [false]⟩]
    let e : CodeEntry := ⟨0x62#8, 1#16, [false]⟩
    let s := reading [0x02#8, 0x00#8, 0x00#8, 0x00#8, 0x02#8, 0x00#8, 0x61#8, 0x01#8, 0x00#8, 0x00#8, 0x62#8, 0x01#8, 0x00#8, 0x00#8]
    s.inp.opened = true ∧ s.inp.pos.toNat ≤ s.inp.len.toNat ∧ (2#32).toNat ≤ s.params.dstCap ∧ es.length < (2#32).toNat ∧
      (2#32).toNat < 2 ^ 16 ∧ (2#32).toNat ≤ s.params.dmapCap ∧
      (∀ x ∈ e :: es, x.len.toNat = x.bits.length ∧ x.bits.length ≤ s.params.dcodeMax) ∧
      (es.map CodeEntry.bits).Nodup ∧ e.bits ∈ es.map CodeEntry.bits ∧
      restStream s.inp = bytesLe 2#32 4 ++ bytesLe 2#32 2 ++
        (es ++ [e]).flatMap (fun x => entryHead x ++ packBits x.bits) ++ [] := by decide +kernel

/-- After one entry: a stream that ends there, one byte later, two bytes later (as in V58); an entry with
`DCODE_MAX + 1` bits; one whose single bit is missing (V59). -/
theorem witness_decode_inside_table :
    let es : List CodeEntry := [⟨0x61#8, 1#16, [false]⟩]
    let e : CodeEntry := ⟨0x62#8, 1#16, [true]⟩
    let head : List Byte := [0x02#8, 0x00#8, 0x00#8, 0x00#8, 0x02#8, 0x00#8, 0x61#8, 0x01#8, 0x00#8, 0x00#8]
    (∀ tail, tail ∈ [[], [0x62#8], [0x62#8, 0x01#8], entryHead e ++ []] →
      let s := reading (head ++ tail)
      s.inp.opened = true ∧ s.inp.pos.toNat ≤ s.inp.len.toNat ∧ (2#32).toNat ≤ s.params.dstCap ∧
        (2#32).toNat ≤ s.params.dmapCap ∧ (∀ x ∈ es, x.len.toNat = x.bits.length ∧ x.bits.length ≤ s.params.dcodeMax) ∧
        restStream s.inp = bytesLe 2#32 4 ++ bytesLe 2#32 2 ++ es.flatMap (fun x => entryHead x ++ packBits x.bits) ++ tail) ∧
      (es.length < (2#32).toNat ∧ (2#32).toNat < 2 ^ 16 ∧ (es.map CodeEntry.bits).Nodup) ∧
      (({ State.reset.params with dcodeMax := 255 } : Params).dcodeMax < (256#16).toNat) ∧
      (e.len.toNat ≤ State.reset.params.dcodeMax ∧ 8 * ([] : List Byte).length < e.len.toNat) := by decide +kernel

/-- `a` as "0", `b` as "10": a payload that ends inside the code of `b`, and one whose last bits match no code. -/
theorem witness_decode_inside_payload :
    let ct : List CodeEntry := [⟨0x61#8, 1#16, [false]⟩, ⟨0x62#8, 2#16, [true, false]⟩]
    let code : Byte → Bits := fun _ => [false]
    ∀ p, p ∈ [(List.replicate 5 (0x61#8 : Byte), [true]), (List.replicate 3 0x61#8, [true, true, true])] →
      let text := p.1
      let rest := p.2
      let bits := text.flatMap code ++ rest
      let s := reading (containerBytes 9#32 ct bits)
      s.inp.opened = true ∧ s.inp.pos.toNat ≤ s.inp.len.toNat ∧ text.length < (9#32).toNat ∧ (9#32).toNat ≤ s.params.dstCap ∧
        ct ≠ [] ∧ ct.length ≤ s.params.dmapCap ∧ ct.length < 2 ^ 16 ∧
        (∀ e ∈ ct, e.len.toNat = e.bits.length ∧ e.bits.length ≤ s.params.dcodeMax) ∧ (ct.map CodeEntry.bits).Nodup ∧
        (∀ b ∈ text, ∃ e ∈ ct, e.sym = b ∧ e.bits = code b ∧ ∀ x ∈ ct, x.bits <+: e.bits → x = e) ∧
        (∀ e ∈ ct, ¬ e.bits <+: rest) ∧ (∀ e ∈ ct.getLast?, (e.bits.length + bits.length) % 8 = 0) ∧
        restStream s.inp = containerBytes 9#32 ct bits := by decide +kernel

theorem witness_decoder_isolated :
    let s := reading containerAb
    let s' := { reading containerAb with ctV := true, ct := codesAb, ctLen := 2#9 }
    s.inp = s'.inp ∧ s.dst = s'.dst ∧ s.params = s'.params ∧ s.err = none ∧ s'.err = none := ⟨rfl, rfl, rfl, rfl, rfl⟩

/-- The container of `ab` loaded before a closed reader. -/
theorem witness_decompress :
    paramsWellFormed (input containerAb).params = true ∧
      Loaded (containerBytes 2#32 codesAb (textAb.flatMap codeAb) ++ []) (input containerAb) :=
  ⟨defaultParams_wellFormed, by unfold Loaded; decide +kernel⟩

/-- `ab` compressed from reset and loaded into another machine. -/
theorem witness_round_trip :
    outStream (after 0x40 (source textAb)).out = containerAb ∧ Loaded containerAb (input containerAb) ∧
      (source textAb).srcLen.toNat ≤ (input containerAb).params.dstCap ∧ 256 ≤ (input containerAb).params.dmapCap ∧
      255 ≤ (input containerAb).params.dcodeMax := by unfold Loaded; decide +kernel

theorem witness_host_writes :
    State.reset.err = none ∧ 1 < (source textAb).params.srcCap ∧ 0 < (input []).params.cbiCap ∧ (input []).inp.opened = false ∧
      (reading []).inp.opened = true ∧ 0 < (reading [0x00#8]).params.cbiCap := by decide +kernel

/-- A tree, and no flag cleared since reset. -/
theorem witness_layout : derivedAb.treeV = true ∧ State.reset.flagCleared = false := by decide +kernel

theorem witness_host_reads :
    20 ≤ 20 ∧ 0 < State.reset.params.cap .cbo ∧
      (afterAction (.host (.readView .code 1)) derivedAb).hostRead = some (.code ⟨0x62#8, 1#16, [true]⟩) := by decide +kernel

theorem witness_foreign :
    step { State.reset with pending := [.host (.writeReg 7 0#64)] } = .refused (.notOffered (.writeReg 7 0#64)) := rfl

/-- A step from a state that meets the invariant. -/
theorem witness_invariant : Inv (source textAb) ∧ step (source textAb) = .next (source textAb) :=
  ⟨⟨witness_source.1, witness_source.2.1, fun _ => witness_source.2.2⟩, rfl⟩

end Sys2Proof.Tests
end

section
/-! SUPPORT. The register map bit by bit (10_state.md R12, R15), and O57. -/

namespace Sys2Proof.Machine

/-- A flag placed at bit `k` shows there and nowhere else. -/
theorem getLsbD_flagBit (f : Bool) {k i : Nat} (hi : i < 32) : (flagBit f k).getLsbD i = (f && decide (i = k)) := by
  cases f
  · simp [flagBit, bitWord]
  · have h1 : (1#32).getLsbD (i - k) = decide (i - k = 0) := by simp
    simp only [flagBit, bitWord, if_true, BitVec.getLsbD_shiftLeft, h1, Bool.true_and, hi, decide_true]
    by_cases h : i = k
    · simp [h]
    · simp only [h, decide_false]
      simp; omega

/-- The fault field placed at bit 8 shows in bits 15:8 only. -/
theorem getLsbD_errField_shift (b : Byte) {i : Nat} (hi : i < 32) :
    (b.setWidth 32 <<< 8).getLsbD i = (decide (8 ≤ i) && b.getLsbD (i - 8)) := by
  by_cases h : i < 8
  · simp [h, hi]
  · simp [h, hi, show 8 ≤ i by omega]

/-- Every bit of `STATUS` (10_state.md R15). -/
theorem getLsbD_statusWord (s : State) {i : Nat} (hi : i < 32) :
    (statusWord s).getLsbD i =
      (s.out.opened && decide (i = 0) || s.inp.opened && decide (i = 1) || s.freqV && decide (i = 2) ||
        s.qV && decide (i = 3) || s.treeV && decide (i = 4) || s.ctV && decide (i = 5) || s.dstV && decide (i = 6) ||
        decide (8 ≤ i) && (errField s).getLsbD (i - 8)) := by
  simp only [statusWord, BitVec.getLsbD_or, getLsbD_flagBit _ hi, getLsbD_errField_shift _ hi]

/-- From bit 8 on `STATUS` holds the fault field and zeros. -/
theorem getLsbD_statusWord_high (s : State) {i : Nat} (hi : i < 24) :
    (statusWord s).getLsbD (8 + i) = (errField s).getLsbD i := by
  have hflags : ∀ k, k < 8 → ¬ 8 + i = k := by omega
  rw [getLsbD_statusWord s (by omega)]
  simp [hflags]

/-- Bits 15:8 of `STATUS` are the fault field. -/
theorem extractLsb'_statusWord_err (s : State) : (statusWord s).extractLsb' 8 8 = errField s := by
  refine BitVec.eq_of_getLsbD_eq fun i hi => ?_
  rw [BitVec.getLsbD_extractLsb', getLsbD_statusWord_high s (by omega)]
  simp [hi]

/-- Bits 31:16 of `STATUS` are 0. -/
theorem extractLsb'_statusWord_top (s : State) : (statusWord s).extractLsb' 16 16 = 0#16 := by
  refine BitVec.eq_of_getLsbD_eq fun i hi => ?_
  rw [BitVec.getLsbD_extractLsb', show 16 + i = 8 + (8 + i) by omega, getLsbD_statusWord_high s (by omega)]
  simp

/-- `CHW` and `CHR` are the buffer byte below the count, zero above (10_state.md R12). -/
theorem channelWord_eq (b : Byte) (n : BitVec 4) :
    (b.setWidth 32 ||| (n.setWidth 32 <<< 8)).setWidth 64 = (0#52 ++ (n ++ b) : BitVec 64) := by
  refine BitVec.eq_of_getLsbD_eq fun i hi => ?_
  rw [BitVec.getLsbD_append, BitVec.getLsbD_append]
  by_cases hb : i < 8
  · simp [hb, hi, show i < 12 by omega, show i < 32 by omega]
  · have hbyte : b.getLsbD i = false := BitVec.getLsbD_of_ge b i (by omega)
    by_cases hn : i < 12
    · simp [hb, hn, hi, hbyte, show i < 32 by omega]
    · have hcnt : n.getLsbD (i - 8) = false := BitVec.getLsbD_of_ge n (i - 8) (by omega)
      simp [hb, hn, hbyte, hcnt]

end Sys2Proof.Machine

open Sys2Proof Sys2Proof.Machine

/-- Settles O57: `STATUS` bit by bit, the two channel words as concatenations, the other registers as read. -/
theorem statusAndChannelRegisterLayout : Obligations.StatusAndChannelRegisterLayout := by
  intro s
  refine ⟨⟨?_, ?_, ?_, ?_, ?_, ?_, ?_, ?_, extractLsb'_statusWord_top s⟩, ?_,
    ⟨rfl, rfl, rfl, rfl, rfl, rfl, rfl, rfl, rfl, rfl⟩, channelWord_eq _ _, channelWord_eq _ _, ⟨rfl, rfl, rfl, rfl, rfl, rfl, rfl⟩, fun h => ?_⟩
  iterate 8
    · rw [getLsbD_statusWord s (by decide)]
      simp
  · rw [extractLsb'_statusWord_err, errField]
    rcases s.err with _ | e
    · rfl
    · cases e <;> rfl
  · have hfresh : rootStale s = false := by
      rcases h with h | h <;> simp [rootStale, h]
    simp [regValue, hfresh]
end

section
/-! SUPPORT. Every entry of a derived code table while `CT_V = 1`, and O41. -/

namespace Sys2Proof.Machine

/-- The invariant while no fault is latched is what the commands keep. -/
theorem Inv.good {s : State} (h : Inv s) (he : s.err = none) : Good s := ⟨h.1, h.2.1, h.2.2 he⟩

theorem Good.inv {s : State} (h : Good s) : Inv s := ⟨h.1, h.2.1, fun _ => h.2.2⟩

/-- While `CT_V = 1` the source is not empty, `Q` is its queue, and `CT` is the table derived from it (10_state.md
R16). -/
theorem ct_of_valid {s : State} (h : Good s) (hc : s.ctV = true) :
    srcBytes s ≠ [] ∧ s.ct = codesOf s.params (srcBytes s) ∧ s.ctLen = BitVec.ofNat 9 s.ct.length ∧
      s.q = sortQueue s.params.tieOrder (freqTable (srcBytes s)) ∧ s.qLen = BitVec.ofNat 9 s.q.length := by
  obtain ⟨hp, -, -, -, -, -, ⟨hfreq, hqueue, htree, hcodes⟩, -⟩ := h
  obtain ⟨ht, hlen, hct⟩ := hcodes hc
  obtain ⟨hq, -⟩ := htree ht
  obtain ⟨hf, hqs, hqlen⟩ := hqueue hq
  obtain ⟨hpos, -, hfs⟩ := hfreq hf
  rw [hfs] at hqs
  have hne : srcBytes s ≠ [] := by
    rw [← List.length_pos_iff, length_srcBytes]; exact hpos
  obtain ⟨m, hm, hcodesOf, -⟩ := codesOf_spec hp (length_srcBytes_lt s) hne
  exact ⟨hne, by rw [hcodesOf]; exact hct m (hqs ▸ hm), hlen, hqs, hqlen⟩

end Sys2Proof.Machine

open Sys2Proof Sys2Proof.Machine

/-- Settles O41: the table is the one derived from the source, whose symbols are distinct and cover it. -/
theorem codeTableCoversTheSource : Obligations.CodeTableCoversTheSource := by
  intro s hi he hc
  have hg := hi.good he
  obtain ⟨hne, hct, hlen, hq, hqlen⟩ := ct_of_valid hg hc
  obtain ⟨m, -, -, hsize, h256, -, hnodup, hcover, -⟩ := codesOf_spec hg.1 (length_srcBytes_lt s) hne
  rw [← hct] at hsize h256 hnodup hcover
  refine ⟨?_, by rw [hlen, hqlen, hq, hsize], fun b hb => ?_⟩
  · rw [hlen, BitVec.toNat_ofNat]; omega
  · obtain ⟨e, hmem, hsym⟩ := hcover b hb
    exact ⟨e, ⟨hmem, hsym⟩, fun x hx => List.inj_on_of_nodup_map hnodup hx.1 hmem (hx.2.trans hsym.symm)⟩
end

section
/-! SUPPORT. Every event keeps the invariant (10_state.md R16, 60_exceptions.md R185, 47_system.md R172), and O59. -/

namespace Sys2Proof.Machine

/-- A command keeps the invariant when its pseudocode, completed, does: the other way it ends is fault entry. -/
theorem finish_inv {i : Instr} {s t : State} {x : Except Raise State} (hs : Inv s) (hx : ∀ {u}, x = .ok u → Good u)
    (h : finish i s x = .next t) : Inv t := by
  rcases finish_next h with hok | ⟨r, -, rfl⟩
  · exact (hx hok).inv
  · exact takeFault_inv hs.1 hs.2.1 (writesOf_inside i s.params) r

/-- Every command keeps the invariant. -/
theorem exec_inv {i : Instr} {s t : State} (hg : Good s) (h : exec i s = .next t) : Inv t := by
  cases i with
  | nop => cases h; exact hg.inv
  | sreset => cases h; exact resetRegs_inv hg.1 hg.2.1
  | wopen => exact finish_inv hg.inv (wopenBody_good hg) h
  | wubyte => exact finish_inv hg.inv (putBody_good (by decide) hg) h
  | wushort => exact finish_inv hg.inv (putBody_good (by decide) hg) h
  | wuint => exact finish_inv hg.inv (putBody_good (by decide) hg) h
  | wbit f => exact finish_inv hg.inv (wbitBody_good hg) h
  | wclose => exact finish_inv hg.inv (wcloseBody_good hg) h
  | ropen => exact finish_inv hg.inv (ropenBody_good hg) h
  | rubyte => exact finish_inv hg.inv (getBody_good hg) h
  | rushort => exact finish_inv hg.inv (getBody_good hg) h
  | ruint => exact finish_inv hg.inv (getBody_good hg) h
  | rbit => exact finish_inv hg.inv (rbitBody_good hg) h
  | rclose => exact finish_inv hg.inv (rcloseBody_good hg) h
  | freq => exact finish_inv hg.inv (freqBody_good hg) h
  | sort => exact finish_inv hg.inv (sortBody_good hg) h
  | tree => exact finish_inv hg.inv (treeBody_good hg) h
  | codes => exact finish_inv hg.inv (codesBody_good hg) h
  | encode => exact finish_inv hg.inv (encodeBody_good hg) h
  | decode => exact finish_inv hg.inv (decodeBody_good hg) h
  | compress => exact finish_inv hg.inv (compressBody_good hg) h
  | decompress => exact finish_inv hg.inv (decompressBody_good hg) h

/-- A command word keeps the invariant: under a latched fault, illegal, or executed (47_system.md R170). -/
theorem dispatch_inv {c : Word} {s t : State} (hs : Inv s) (h : dispatch c s = .next t) : Inv t := by
  cases he : s.err with
  | some e =>
    rw [dispatch_latched he] at h
    split at h
    · cases h; exact resetRegs_inv hs.1 hs.2.1
    · cases h; exact hs
  | none =>
    cases hd : decode c with
    | ok i => rw [dispatch_of_decode he hd] at h; exact exec_inv (hs.good he) h
    | error r => rw [dispatch_illegal he hd] at h; cases h; exact inv_of_latched hs.1 hs.2.1 rfl

/-- Unspecified values under a latched fault keep the invariant, which then asks for the memories' form only. -/
theorem havoc_inv {es : List Elem} {s : State} (hs : Inv s) (he : s.err.isSome = true)
    (hin : ∀ e ∈ es, e.inside s.params) : Inv (havoc es s) := by
  obtain ⟨e, he⟩ := Option.isSome_iff_exists.1 he
  exact inv_of_latched (e := e) (by rw [havoc_params]; exact hs.1) (havoc_memoriesOk hs.2.1 hin) (by rw [havoc_err, he])

/-- A host write keeps the invariant when its result without a latched fault does (log 11). -/
theorem hostEffect_inv {es : List Elem} {s t : State} (hs : Inv s) (hin : ∀ e ∈ es, e.inside s.params) (ht : Inv t) :
    Inv (hostEffect es s t) := by
  unfold hostEffect
  split
  · next he => exact havoc_inv hs he hin
  · exact ht

/-- A write to `CBI` or `CBI_LEN` takes effect only before a closed reader (47_system.md R172 (d), (h)). -/
theorem cbiWrite_inv {es damaged : List Elem} {s t : State} (hs : Inv s) (hin : ∀ e ∈ es, e.inside s.params)
    (hdam : ∀ e ∈ damaged, e.inside s.params) (ht : s.inp.opened = false → Inv t) : Inv (cbiWrite es damaged s t) := by
  unfold cbiWrite
  split
  · next he => exact havoc_inv hs he hin
  · split
    · exact takeFault_inv hs.1 hs.2.1 hdam _
    · next ho => exact ht (by simpa using ho)

/-- Another source under cleared stage flags keeps the invariant (10_state.md R16). -/
theorem invalidateStages_inv {s : State} (hs : Inv s) (len : Word) {m : Memory} (hw : Memory.wf m)
    (hi : Memory.within s.params.srcCap m) : Inv (invalidateStages { s with srcLen := len, src := m }) := by
  obtain ⟨hp, ⟨⟨-, hcbo, hcbi, hdst⟩, -, hins⟩, hlive⟩ := hs
  refine ⟨hp, ⟨⟨hw, hcbo, hcbi, hdst⟩, hi, hins⟩, fun he => ?_⟩
  obtain ⟨hout, hfits, hinp, hcap, -, hdec⟩ := hlive he
  exact ⟨hout, hfits, hinp, hcap, ⟨nofun, nofun, nofun, nofun⟩, hdec⟩

/-- Another input stream before a closed reader keeps the invariant (log 18). -/
theorem inv_inputStream {s : State} (hs : Inv s) (ho : s.inp.opened = false) (len : Pos) {m : Memory}
    (hw : Memory.wf m) (hi : Memory.within s.params.cbiCap m) :
    Inv { s with inp := { s.inp with len := len, cbi := m } } := by
  obtain ⟨hp, ⟨⟨hsrc, hcbo, -, hdst⟩, isrc, icbo, -, idst⟩, hlive⟩ := hs
  refine ⟨hp, ⟨⟨hsrc, hcbo, hw, hdst⟩, isrc, icbo, hi, idst⟩, fun he => ?_⟩
  obtain ⟨hout, hfits, ⟨hcnt, hbuf, -⟩, -, hst, hdec⟩ := hlive he
  have hclosed : ∀ {p : Prop}, s.inp.opened = true → p := fun h => by rw [ho] at h; cases h
  exact ⟨hout, hfits, ⟨hcnt, hbuf, hclosed⟩, hclosed, hst, hdec⟩

/-- The stage flags are no memory bytes. -/
theorem stageFlags_inside (p : Params) : ∀ e ∈ stageFlags, e.inside p := by
  simp [stageFlags, Elem.inside]

/-- A register write keeps the invariant (47_system.md R172 (b) to (e)). -/
theorem writeReg_inv {i : Nat} {v : BitVec 64} {s t : State} (hs : Inv s) (h : writeReg i v s = .next t) : Inv t := by
  obtain ⟨⟨wsrc, -, wcbi, -⟩, isrc, -, icbi, -⟩ := hs.2.1
  unfold writeReg at h
  split at h
  · exact dispatch_inv hs h
  · cases h; exact hostEffect_inv hs (by simp [Elem.inside]) hs
  · cases h
    exact hostEffect_inv hs (by simpa [Elem.inside] using stageFlags_inside s.params)
      (invalidateStages_inv hs _ wsrc isrc)
  · cases h
    exact cbiWrite_inv hs (by simp [Elem.inside]) (by simp [Elem.inside]) fun ho => inv_inputStream hs ho v wcbi icbi
  · cases h

/-- The addresses a host may write lie inside their memory. -/
theorem lt_cap_of_offered {p : Params} {m : MemName} {a : Nat} {b : Byte}
    (h : HostAction.offered p (.writeMem m a b) = true) :
    a < p.cap m := by
  cases m with
  | src | cbi => simpa [HostAction.offered, Params.cap] using h
  | cbo | dst => simp [HostAction.offered] at h

/-- A memory write inside the capacity keeps the invariant (47_system.md R172 (g), (h)). -/
theorem writeMem_inv {m : MemName} {a : Nat} {b : Byte} {s t : State} (hs : Inv s) (ha : a < s.params.cap m)
    (h : writeMem m a b s = .next t) : Inv t := by
  obtain ⟨⟨wsrc, -, wcbi, -⟩, isrc, -, icbi, -⟩ := hs.2.1
  cases m with
  | src =>
    cases h
    exact hostEffect_inv hs (List.forall_mem_cons.2 ⟨ha, stageFlags_inside s.params⟩)
      (invalidateStages_inv hs _ (Memory.wf_write wsrc a b) (Memory.within_write isrc ha b))
  | cbi =>
    cases h
    exact cbiWrite_inv hs (List.forall_mem_singleton.2 ha) (by simp) fun ho =>
      inv_inputStream hs ho _ (Memory.wf_write wcbi a b) (Memory.within_write icbi ha b)
  | cbo => cases h
  | dst => cases h

/-- A host action keeps the invariant; what a read returns is no part of it (47_system.md R172). -/
theorem hostAction_inv {a : HostAction} {s t : State} (hs : Inv s) (h : hostAction a s = .next t) : Inv t := by
  unfold hostAction at h
  split at h
  · next hoff =>
    cases a with
    | readReg i => cases h; exact hs
    | writeReg i v => exact writeReg_inv hs h
    | readMem m i =>
      simp only at h
      split at h
      · cases h; exact hs
      · cases h
    | readView tb i => cases h; exact hs
    | writeMem m i b => exact writeMem_inv hs (lt_cap_of_offered hoff) h
  · cases h

/-- A reset in the middle of a command establishes the invariant (70_reset_and_hazards.md R202). -/
theorem abandon_inv {c : Word} {s : State} (hs : Inv s) : Inv (abandon c s) := by
  unfold abandon
  split
  · next i _ _ =>
    exact resetRegs_inv (by rw [havoc_params]; exact hs.1) (havoc_memoriesOk hs.2.1 (writesOf_inside i s.params))
  · exact resetRegs_inv hs.1 hs.2.1

/-- An event keeps the invariant: a host action, or a reset (70_reset_and_hazards.md R200, R202). -/
theorem perform_inv {e : Event} {s t : State} (hs : Inv s) (h : perform e s = .next t) : Inv t := by
  cases e with
  | host a => exact hostAction_inv hs h
  | hardReset => cases h; exact resetRegs_inv hs.1 hs.2.1
  | hardResetDuring c => cases h; exact abandon_inv hs

end Sys2Proof.Machine

open Sys2Proof Sys2Proof.Machine

/-- Settles O59, by the event the step performs; the invariant does not speak of the events to come or the counter. -/
theorem everyStepKeepsTheInvariant : Obligations.EveryStepKeepsTheInvariant := by
  intro s t hs h
  cases hp : s.pending with
  | nil => rw [step_nil hp] at h; cases h; exact hs
  | cons e rest =>
    rw [step_cons hp] at h
    have hafter : Inv (afterEvent rest s) := hs
    exact perform_inv hafter h
end

section
/-! SUPPORT. Which memories a command can change, from what its rule lists as written (20_memory.md R40,
60_exceptions.md R185), and O9. -/

namespace Sys2Proof.Machine

/-! ## What a fault changes -/

/-- What survives giving each listed element an unspecified value survives a fault's havoc. -/
theorem havoc_eq_of_forall {α : Type} {f : State → α} {es : List Elem} (h : ∀ e ∈ es, ∀ s, f (havocElem s e) = f s)
    (s : State) : f (havoc es s) = f s := by
  induction es generalizing s with
  | nil => rfl
  | cons e es ih =>
    obtain ⟨he, hes⟩ := List.forall_mem_cons.1 h
    exact (ih hes _).trans (he s)

theorem havocElem_src {e : Elem} (h : ∀ a, e ≠ .srcByte a) (s : State) : (havocElem s e).src = s.src := by
  cases e with
  | srcByte a => exact absurd rfl (h a)
  | _ => rfl

theorem havocElem_cbi {e : Elem} (h : ∀ a, e ≠ .cbiByte a) (s : State) : (havocElem s e).inp.cbi = s.inp.cbi := by
  cases e with
  | cbiByte a => exact absurd rfl (h a)
  | _ => rfl

theorem havocElem_dst {e : Elem} (h : e ≠ .dst) (s : State) : (havocElem s e).dst = s.dst := by
  cases e with
  | dst => exact absurd rfl h
  | _ => rfl

theorem havocElem_cbo {e : Elem} (h : e ≠ .cbo) (s : State) : (havocElem s e).out.cbo = s.out.cbo := by
  cases e with
  | cbo => exact absurd rfl h
  | _ => rfl

/-! ## The memories a step keeps -/

/-- The input memories are the same, and `DST` and `CBO` are unless `es` lists them. -/
structure SameMemories (es : List Elem) (s t : State) : Prop where
  src : t.src = s.src
  cbi : t.inp.cbi = s.inp.cbi
  dst : Elem.dst ∉ es → t.dst = s.dst
  cbo : Elem.cbo ∉ es → t.out.cbo = s.out.cbo

theorem SameMemories.of_eq {es : List Elem} {s t : State} (hsrc : t.src = s.src) (hcbi : t.inp.cbi = s.inp.cbi)
    (hdst : t.dst = s.dst) (hcbo : t.out.cbo = s.out.cbo) : SameMemories es s t :=
  ⟨hsrc, hcbi, fun _ => hdst, fun _ => hcbo⟩

theorem SameMemories.trans {es : List Elem} {s t u : State} (h : SameMemories es s t) (h' : SameMemories es t u) :
    SameMemories es s u :=
  ⟨h'.src.trans h.src, h'.cbi.trans h.cbi, fun hd => (h'.dst hd).trans (h.dst hd),
    fun hc => (h'.cbo hc).trans (h.cbo hc)⟩

/-- No command's rule lists a byte of `SRC` or `CBI` as written (20_memory.md R40). -/
theorem writesOf_not_input (i : Instr) : ∀ e ∈ writesOf i, (∀ a, e ≠ .srcByte a) ∧ ∀ a, e ≠ .cbiByte a := by
  cases i <;> simp [writesOf]

theorem dst_mem_writesOf {i : Instr} : Elem.dst ∈ writesOf i ↔ i = .decode ∨ i = .decompress := by
  cases i <;> simp [writesOf]

theorem cbo_mem_writesOf {i : Instr} : Elem.cbo ∈ writesOf i ↔
    i = .wubyte ∨ i = .wushort ∨ i = .wuint ∨ (∃ f, i = .wbit f) ∨ i = .wclose ∨ i = .encode ∨ i = .compress := by
  cases i <;> simp [writesOf]

theorem takeFault_sameMemories (i : Instr) (r : Raise) (s : State) :
    SameMemories (writesOf i) s (takeFault (writesOf i) r s) where
  src := havoc_eq_of_forall (fun e he => havocElem_src (writesOf_not_input i e he).1) s
  cbi := havoc_eq_of_forall (f := fun s => s.inp.cbi) (fun e he => havocElem_cbi (writesOf_not_input i e he).2) s
  dst hd := havoc_eq_of_forall (fun _ he => havocElem_dst (ne_of_mem_of_not_mem he hd)) s
  cbo hc := havoc_eq_of_forall (f := fun s => s.out.cbo) (fun _ he => havocElem_cbo (ne_of_mem_of_not_mem he hc)) s

/-- A command keeps the memories that its pseudocode, completed, keeps: the other way it ends is fault entry. -/
theorem finish_sameMemories {i : Instr} {s t : State} {x : Except Raise State}
    (hx : ∀ {u}, x = .ok u → SameMemories (writesOf i) s u) (h : finish i s x = .next t) :
    SameMemories (writesOf i) s t := by
  rcases finish_next h with hok | ⟨r, -, rfl⟩
  · exact hx hok
  · exact takeFault_sameMemories i r s

/-! ## The pseudocode of each command -/

section
variable {es : List Elem} {s t : State}

theorem wopenBody_sameMemories (h : wopenBody s = .ok t) : SameMemories es s t := by
  obtain ⟨-, rfl⟩ := wopenBody_ok.1 h
  exact .of_eq rfl rfl rfl rfl

/-- A step on the writer alone can change `CBO` only. -/
theorem sameMemories_out (hes : Elem.cbo ∈ es) (c : OutChannel) : SameMemories es s { s with out := c } :=
  ⟨rfl, rfl, fun _ => rfl, fun hc => absurd hes hc⟩

theorem putBody_sameMemories {op : Word} {n : Nat} (hes : Elem.cbo ∈ es) (h : putBody op n s = .ok t) :
    SameMemories es s t := by
  obtain ⟨-, c, -, rfl⟩ := putBody_ok.1 h
  exact sameMemories_out hes c

theorem wbitBody_sameMemories {f : Bool} (hes : Elem.cbo ∈ es) (h : wbitBody f s = .ok t) : SameMemories es s t := by
  obtain ⟨-, -, c, -, rfl⟩ := wbitBody_ok.1 h
  exact sameMemories_out hes c

theorem wcloseBody_sameMemories (hes : Elem.cbo ∈ es) (h : wcloseBody s = .ok t) : SameMemories es s t := by
  obtain ⟨-, c, -, rfl⟩ := wcloseBody_ok.1 h
  exact sameMemories_out hes _

theorem ropenBody_sameMemories (h : ropenBody s = .ok t) : SameMemories es s t := by
  obtain ⟨-, -, rfl⟩ := ropenBody_ok.1 h
  exact .of_eq rfl rfl rfl rfl

theorem getBody_sameMemories {op : Word} {n : Nat} (h : getBody op n s = .ok t) : SameMemories es s t := by
  obtain ⟨-, v, c, hg, rfl⟩ := getBody_ok.1 h
  exact .of_eq rfl (get_sameStream hg).1 rfl rfl

theorem rbitBody_sameMemories (h : rbitBody s = .ok t) : SameMemories es s t := by
  obtain ⟨-, b, c, hg, rfl⟩ := rbitBody_ok.1 h
  exact .of_eq rfl (getBit_sameStream hg).1 rfl rfl

theorem rcloseBody_sameMemories (h : rcloseBody s = .ok t) : SameMemories es s t := by
  obtain ⟨-, rfl⟩ := rcloseBody_ok.1 h
  exact .of_eq rfl rfl rfl rfl

theorem freqBody_sameMemories (h : freqBody s = .ok t) : SameMemories es s t := by
  obtain ⟨-, -, rfl⟩ := freqBody_ok.1 h
  exact .of_eq rfl rfl rfl rfl

theorem sortBody_sameMemories (h : sortBody s = .ok t) : SameMemories es s t := by
  obtain ⟨-, rfl⟩ := sortBody_ok.1 h
  exact .of_eq rfl rfl rfl rfl

theorem treeBody_sameMemories (h : treeBody s = .ok t) : SameMemories es s t := by
  obtain ⟨-, rfl⟩ := treeBody_ok.1 h
  exact .of_eq rfl rfl rfl rfl

theorem codesBody_sameMemories (h : codesBody s = .ok t) : SameMemories es s t := by
  obtain ⟨-, rfl⟩ := codesBody_ok.1 h
  exact .of_eq rfl rfl rfl rfl

theorem encodeBody_sameMemories (hes : Elem.cbo ∈ es) (h : encodeBody s = .ok t) : SameMemories es s t := by
  obtain ⟨-, -, c, -, rfl⟩ := encodeBody_ok.1 h
  exact ⟨rfl, rfl, fun _ => rfl, fun hc => absurd hes hc⟩

theorem decodeBody_sameMemories (hes : Elem.dst ∈ es) (h : decodeBody s = .ok t) : SameMemories es s t := by
  have hf := decodeBody_frame h
  exact ⟨by rw [hf], by rw [hf], fun hd => absurd hes hd, fun _ => by rw [hf]⟩

theorem compressBody_sameMemories (hes : Elem.cbo ∈ es) (h : compressBody s = .ok t) : SameMemories es s t := by
  obtain ⟨_, _, _, _, _, h1, h2, h3, h4, h5, h6⟩ := compressBody_ok.1 h
  have hsort := (freqBody_sameMemories (es := es) h1).trans (sortBody_sameMemories h2)
  have hcodes := (treeBody_sameMemories (es := es) h3).trans (codesBody_sameMemories h4)
  have hencode := (wopenBody_sameMemories h5).trans (encodeBody_sameMemories hes h6)
  exact (hsort.trans hcodes).trans hencode

theorem decompressBody_sameMemories (hes : Elem.dst ∈ es) (h : decompressBody s = .ok t) : SameMemories es s t := by
  obtain ⟨_, _, hopen, hdec, hclose⟩ := decompressBody_ok.1 h
  exact ((ropenBody_sameMemories hopen).trans (decodeBody_sameMemories hes hdec)).trans (rcloseBody_sameMemories hclose)

end

/-- Every command keeps every memory that its rule does not list as written. -/
theorem exec_sameMemories {i : Instr} {s t : State} (h : exec i s = .next t) : SameMemories (writesOf i) s t := by
  cases i with
  | nop => cases h; exact .of_eq rfl rfl rfl rfl
  | sreset => cases h; exact .of_eq rfl rfl rfl rfl
  | wopen => exact finish_sameMemories wopenBody_sameMemories h
  | wubyte => exact finish_sameMemories (putBody_sameMemories (by decide)) h
  | wushort => exact finish_sameMemories (putBody_sameMemories (by decide)) h
  | wuint => exact finish_sameMemories (putBody_sameMemories (by decide)) h
  | wbit f => exact finish_sameMemories (wbitBody_sameMemories (by simp [writesOf])) h
  | wclose => exact finish_sameMemories (wcloseBody_sameMemories (by decide)) h
  | ropen => exact finish_sameMemories ropenBody_sameMemories h
  | rubyte => exact finish_sameMemories getBody_sameMemories h
  | rushort => exact finish_sameMemories getBody_sameMemories h
  | ruint => exact finish_sameMemories getBody_sameMemories h
  | rbit => exact finish_sameMemories rbitBody_sameMemories h
  | rclose => exact finish_sameMemories rcloseBody_sameMemories h
  | freq => exact finish_sameMemories freqBody_sameMemories h
  | sort => exact finish_sameMemories sortBody_sameMemories h
  | tree => exact finish_sameMemories treeBody_sameMemories h
  | codes => exact finish_sameMemories codesBody_sameMemories h
  | encode => exact finish_sameMemories (encodeBody_sameMemories (by decide)) h
  | decode => exact finish_sameMemories (decodeBody_sameMemories (by decide)) h
  | compress => exact finish_sameMemories (compressBody_sameMemories (by decide)) h
  | decompress => exact finish_sameMemories (decompressBody_sameMemories (by decide)) h

end Sys2Proof.Machine

open Sys2Proof Sys2Proof.Machine

/-- Settles O9: the commands named in the statement are those whose rule lists `DST` or `CBO` as written. -/
theorem reachOfTheCommands : Obligations.ReachOfTheCommands := by
  intro i s t h
  obtain ⟨hsrc, hcbi, hdst, hcbo⟩ := exec_sameMemories h
  refine ⟨hsrc, hcbi, fun h1 h2 => hdst fun hm => ?_, fun h1 h2 h3 h4 h5 h6 h7 => hcbo fun hm => ?_⟩
  · exact (dst_mem_writesOf.1 hm).elim h1 h2
  · rcases cbo_mem_writesOf.1 hm with e | e | e | ⟨f, e⟩ | e | e | e
    exacts [h1 e, h2 e, h3 e, h4 f e, h5 e, h6 e, h7 e]
end

section
/-! SUPPORT. The bytes of a fixed-width integer as bit ranges (20_memory.md R41), and O17. -/

namespace Sys2Proof.Machine

theorem byteOf_eq_extractLsb' (v : Word) (k : Nat) : byteOf v k = v.extractLsb' (8 * k) 8 := by
  refine BitVec.eq_of_toNat_eq ?_
  simp [byteOf]

theorem bytesLe_eq_map_extractLsb' (v : Word) (n : Nat) :
    bytesLe v n = (List.range n).map fun k => v.extractLsb' (8 * k) 8 :=
  List.map_congr_left fun k _ => byteOf_eq_extractLsb' v k

end Sys2Proof.Machine

open Sys2Proof Sys2Proof.Machine

/-- Settles O17: byte `k` is `v[8k+7:8k]`, and the bytes' little-endian value is `v` when `v` fits. -/
theorem fixedWidthIntegersAreLittleEndian : Obligations.FixedWidthIntegersAreLittleEndian := fun v =>
  ⟨bytesLe_eq_map_extractLsb' v 1, bytesLe_eq_map_extractLsb' v 2, bytesLe_eq_map_extractLsb' v 4,
    fun _ _ h => leValue_bytesLe h⟩
end

section
/-! SUPPORT. Where bit `k` of a bit run stands in its bytes, and runs of `WBIT` and `RBIT` as runs of channel steps
(20_memory.md R43, R44), and O22 and O28. -/

namespace Sys2Proof.Machine

/-- Bit `k` of a byte sequence is bit `7 - (k mod 8)` of byte `k / 8`; past the end both are 0. -/
theorem getD_bitsOfBytes (bs : List Byte) (k : Nat) :
    (bitsOfBytes bs).getD k false = (bs.getD (k / 8) 0#8).getLsbD (7 - k % 8) := by
  induction bs generalizing k with
  | nil => simp
  | cons b bs ih =>
    rw [bitsOfBytes_cons]
    by_cases hk : k < 8
    · rw [List.getD_append _ _ _ _ (by simpa), Nat.div_eq_of_lt hk, Nat.mod_eq_of_lt hk,
        List.getD_eq_getElem _ _ (by simpa), getElem_byteBits, List.getD_cons_zero]
    · rw [List.getD_append_right _ _ _ _ (by simp; omega), length_byteBits, ih,
        show k / 8 = (k - 8) / 8 + 1 by omega, List.getD_cons_succ, show (k - 8) % 8 = k % 8 by omega]

/-- Bit `k` of a run stands at that place of its packed bytes, and the low bits left over are 0. -/
theorem getLsbD_getD_packBits (bits : Bits) (k : Nat) :
    ((packBits bits).getD (k / 8) 0#8).getLsbD (7 - k % 8) = bits.getD k false := by
  rw [← getD_bitsOfBytes, bitsOfBytes_packBits]
  by_cases hk : k < bits.length
  · rw [List.getD_append _ _ _ _ hk]
  · rw [List.getD_append_right _ _ _ _ (by omega), List.getD_eq_default bits _ (by omega), List.getD_eq_getElem?_getD,
      List.getElem?_getD_replicate_default_eq]

theorem getD_bytesAt (n : MemName) (m : Memory) (a : Nat) {j k : Nat} (d : Byte) (h : j < k) :
    (bytesAt n m a k).getD j d = byteAt n m (a + j) := by
  rw [List.getD_eq_getElem _ _ (by simpa), getElem_bytesAt]

/-! ## Runs of `WBIT` -/

/-- A run of `WBIT`s is the encoder's run of bits, reporting another opcode. -/
theorem putOps_bits (cap : Nat) (bits : Bits) (c : OutChannel) :
    putOps cap (bits.map ChanOp.bit) c = putBits cap 0x14#32 bits c := by
  induction bits generalizing c with
  | nil => rfl
  | cons b bits ih =>
    simp only [List.map_cons, putOps, putOp, putBits, ← ih]

/-- Channel steps that complete are writer commands that succeed. -/
theorem runWrites_of_putOps {os : List ChanOp} {s : State} {c : OutChannel} (he : s.err = none)
    (ho : s.out.opened = true) (hp : putOps s.params.cboCap os s.out = .ok c) :
    ∃ t, runWrites os s = some t ∧ t.out = c := by
  refine ⟨_, (runWrites_eq_some he ho).2 ⟨c, (os.getLast?.map ChanOp.value).getD s.wdata, hp, rfl, ?_, ?_⟩, rfl⟩
  · rintro rfl; rfl
  · intro o h
    rw [Option.mem_def.1 h]; rfl

/-! ## Runs of `RBIT` -/

/-- A run of `RBIT`s delivers the bits that the decoder's run of bits reads. -/
theorem runReads_of_getBits {n : Nat} {s : State} {p : Bits} {c : InChannel} (he : s.err = none)
    (ho : s.inp.opened = true) (hg : getBits n s.inp = .ok (p, c)) :
    ∃ t, runReads (List.replicate n (ChanOp.bit false)) s = some (p.map bitWord, t) ∧ t.inp = c := by
  induction n generalizing s p with
  | zero =>
    simp only [getBits, Except.ok.injEq, Prod.mk.injEq] at hg
    obtain ⟨rfl, rfl⟩ := hg
    exact ⟨s, rfl, rfl⟩
  | succ n ih =>
    simp only [getBits, bind_eq_ok, Prod.exists, Except.ok.injEq, Prod.mk.injEq] at hg
    obtain ⟨b, d, hd, bs, e, hbs, rfl, rfl⟩ := hg
    have hop : getOp (.bit false) s.inp = .ok (bitWord b, d) := by rw [getOp, hd]; rfl
    obtain ⟨t, ht, hc⟩ := ih (s := { s with rdata := bitWord b, inp := d }) he ((getBit_sameStream hd).2.2.trans ho) hbs
    refine ⟨t, ?_, hc⟩
    simp only [List.replicate_succ, runReads, succeeded_readInstr he ho hop, ht, Option.map_some, List.map_cons]

end Sys2Proof.Machine

open Sys2Proof Sys2Proof.Machine

/-- Settles O22: the run is `putBits` on the channel, which flushes as the packed run after the bytes already there. -/
theorem bitRunsPackMostSignificantFirst : Obligations.BitRunsPackMostSignificantFirst := by
  intro s bits he hpar ho hok h0 hroom
  obtain ⟨-, -, -, hcap, -, -⟩ := params_bounds hpar
  have hbefore : (outBits s.out).length = 8 * s.out.len.toNat := by
    simp [length_outBits hok, h0]
  obtain ⟨c, hc⟩ := putBits_completes hcap (op := 0x14#32) (bits := bits) hok (by omega)
  obtain ⟨t, ht, rfl⟩ := runWrites_of_putOps he ho ((putOps_bits _ bits _).trans hc)
  obtain ⟨hbits, hok', -, -⟩ := putBits_outBits hcap hok hc
  have hcount : 8 * t.out.len.toNat + t.out.cnt.toNat = 8 * s.out.len.toNat + bits.length := by
    rw [← hbefore, ← List.length_append, ← hbits, length_outBits hok', length_outStream]
  have hcnt := hok'.1
  have hflushed : outStream t.out ++ padBytes t.out = outStream s.out ++ packBits bits :=
    flushedStream_putBits hcap hok h0 hc
  refine ⟨t, ht, by omega, by omega, by simp [hflushed], hflushed ▸ List.take_left' (length_outStream _),
    fun k _ => ?_⟩
  rw [hflushed, List.getD_append_right _ _ _ _ (by simp), length_outStream, Nat.add_sub_cancel_left,
    getLsbD_getD_packBits]

/-- Settles O28: the run is `getBits` on the channel, which takes the bits of the rest of the stream in order. -/
theorem bitReadsDeliverMostSignificantFirst : Obligations.BitReadsDeliverMostSignificantFirst := by
  intro s n he ho h0 hb hpos hn
  have hr : ReaderOk s.inp := ⟨by simp [h0], by simp [hb], hpos⟩
  have hin : inBits s.inp = bitsOfBytes (restStream s.inp) := by simp [inBits, h0]
  have hleft : (inBits s.inp).length = 8 * (s.inp.len.toNat - s.inp.pos.toNat) := by
    rw [hin, length_bitsOfBytes, length_restStream, available]
  obtain ⟨p, c, hg⟩ := getBits_completes hr (hleft ▸ hn)
  obtain ⟨t, ht, rfl⟩ := runReads_of_getBits he ho hg
  obtain ⟨hsplit, hlen, hcnt, -, hpos'⟩ := getBits_inBits hr hg
  have hcount : 8 * (s.inp.len.toNat - s.inp.pos.toNat) =
      n + (t.inp.cnt.toNat + 8 * (t.inp.len.toNat - t.inp.pos.toNat)) := by
    rw [← hleft, hsplit, List.length_append, hlen, length_inBits (by omega), bitsLeft, available]
  rw [(getBits_sameStream hg).2.1] at hcount hpos'
  refine ⟨_, t, ht, by rw [List.length_map, hlen], by omega, fun k hk => ?_⟩
  calc (p.map bitWord).getD k 0#32
      = bitWord (p.getD k false) := List.getD_map (f := bitWord) (d := false) ..
    _ = bitWord ((bitsOfBytes (restStream s.inp)).getD k false) := by
      rw [← hin, hsplit, List.getD_append _ _ _ _ (hlen ▸ hk)]
    _ = bitWord ((byteAt .cbi s.inp.cbi (s.inp.pos.toNat + k / 8)).getLsbD (7 - k % 8)) := by
      rw [getD_bitsOfBytes, restStream, getD_bytesAt _ _ _ _ (by rw [available]; omega)]
end

section
/-! SUPPORT. Which words a row selects and which words have no row (30_encoding.md R60, R62, R63); O1, O2 and O3. -/

namespace Sys2Proof

open Laws

/-! ## The rows -/

/-- A row without a free bit selects its match value only. -/
theorem eq_encode_of_selects_exact {c v : Word} {i : Instr} (hv : v = encode i)
    (h : OpcodeRow.selects ⟨v, exactMask, fun _ => i⟩ c = true) : c = encode i := by
  have hc : c &&& BitVec.allOnes 32 = v := eq_of_beq h
  rwa [BitVec.and_allOnes, hv] at hc

/-- The row of `WBIT` fixes every bit but `F`. -/
theorem eq_encode_of_selects_wbit {c : Word} {f : Word → Instr}
    (h : OpcodeRow.selects ⟨0x00000014#32, wbitMask, f⟩ c = true) : c = encode (.wbit (flushFlag c)) := by
  have hfixed : c &&& wbitMask = 0x00000014#32 := eq_of_beq h
  calc c = c &&& (wbitMask ||| BitVec.twoPow 32 8) := BitVec.and_allOnes.symm
    _ = 0x00000014#32 ||| (if flushFlag c then BitVec.twoPow 32 8 else 0#32) := by
      rw [BitVec.and_or_distrib_left, hfixed, BitVec.and_twoPow, flushFlag]
    _ = encode (.wbit (flushFlag c)) := by cases flushFlag c <;> decide

/-- A word that selects a row is the encoding of the command the row reads from it. -/
theorem eq_encode_of_selects (c : Word) : ∀ r ∈ opcodeRows, r.selects c = true → c = encode (r.instr c) := by
  have row {v : Word} {i : Instr} (hv : v = encode i) := eq_encode_of_selects_exact (c := c) hv
  simp only [opcodeRows, List.cons_append, List.nil_append, List.forall_mem_cons]
  exact ⟨row rfl, row rfl, row rfl, row rfl, row rfl, row rfl, eq_encode_of_selects_wbit, row rfl,
    row rfl, row rfl, row rfl, row rfl, row rfl, row rfl,
    row rfl, row rfl, row rfl, row rfl, row rfl, row rfl, row rfl, row rfl, List.forall_mem_nil _⟩

theorem exists_row_of_decode {c : Word} {i : Instr} (h : decode c = .ok i) :
    ∃ r ∈ opcodeRows, r.selects c = true ∧ r.instr c = i := by
  unfold decode at h
  split at h
  · next r hr =>
    exact ⟨r, List.mem_of_find?_eq_some hr, List.find?_some (p := fun r : OpcodeRow => r.selects c) hr, Except.ok.inj h⟩
  · cases h

theorem decode_eq_ok_iff {c : Word} {i : Instr} : decode c = .ok i ↔ c = encode i := by
  constructor
  · intro h
    obtain ⟨r, hr, hsel, rfl⟩ := exists_row_of_decode h
    exact eq_encode_of_selects c r hr hsel
  · rintro rfl
    exact Machine.decode_encode i

/-! ## Well-formed words -/

/-- The lemmas of the single commands, for any command. -/
theorem encodingFields (i : Instr) : EncodingFields.Statement i := by
  cases i
  exacts [EncodingFields.nop, EncodingFields.sreset, EncodingFields.wopen, EncodingFields.wubyte,
    EncodingFields.wushort, EncodingFields.wuint, EncodingFields.wbit _, EncodingFields.wclose,
    EncodingFields.ropen, EncodingFields.rubyte, EncodingFields.rushort, EncodingFields.ruint,
    EncodingFields.rbit, EncodingFields.rclose, EncodingFields.freq, EncodingFields.sort, EncodingFields.tree,
    EncodingFields.codes, EncodingFields.encode, EncodingFields.decode, EncodingFields.compress,
    EncodingFields.decompress]

theorem wordWellFormed_encode (i : Instr) : wordWellFormed (encode i) = true := by
  obtain ⟨-, -, -, -, -, h, -⟩ := encodingFields i
  exact h

/-- A word is well formed when it has none of the three defects of R63. -/
theorem wordWellFormed_iff (c : Word) : wordWellFormed c = true ↔
    c.setWidth 8 ∈ opcodes ∧ c >>> 9 = 0#32 ∧ (c.getLsbD 8 = true → c.setWidth 8 = 0x14#8) := by
  have hreserved : c.extractLsb' 9 23 = 0#23 ↔ c >>> 9 = 0#32 := by
    rw [← BitVec.toNat_inj, ← BitVec.toNat_inj]
    simp only [BitVec.extractLsb'_toNat, BitVec.toNat_ushiftRight, BitVec.toNat_ofNat]
    omega
  have hflag : c.getLsbD 8 = false ∨ c.setWidth 8 = 0x14#8 ↔ (c.getLsbD 8 = true → c.setWidth 8 = 0x14#8) := by
    rw [imp_iff_not_or, Bool.not_eq_true]
  simp only [wordWellFormed, ← BitVec.setWidth_eq_extractLsb' (by decide : 8 ≤ 32), Bool.and_eq_true, Bool.or_eq_true,
    Bool.not_eq_true', beq_iff_eq, List.contains_iff_mem, hreserved, hflag]
  exact and_comm

theorem decode_eq_error {c : Word} (h : wordWellFormed c ≠ true) : ∃ r, decode c = .error r := by
  cases hd : decode c with
  | error r => exact ⟨r, rfl⟩
  | ok i => exact absurd (decode_eq_ok_iff.1 hd ▸ wordWellFormed_encode i) h

end Sys2Proof

open Sys2Proof Sys2Proof.Machine

/-- Settles O1: each row's words are the encodings of its command, and each encoding selects its row. -/
theorem commandWordsAreExactlyTheEncodings : Obligations.CommandWordsAreExactlyTheEncodings :=
  fun _ _ => decode_eq_ok_iff

/-- Settles O3: an encoding is well formed, so a word that is not has no row; `NOP`'s encoding is the zero word. -/
theorem illegalWordsFault : Obligations.IllegalWordsFault := by
  refine ⟨fun c s he hill => ?_, fun c s e he hc => ?_, fun c => decode_eq_ok_iff⟩
  · have hbad : wordWellFormed c ≠ true := by
      intro hw
      obtain ⟨hop, hres, hflag⟩ := (wordWellFormed_iff c).1 hw
      rcases hill with h | h | ⟨hf, h⟩
      exacts [h hop, h hres, h (hflag hf)]
    obtain ⟨r, hr⟩ := decode_eq_error hbad
    exact dispatch_illegal he hr
  · exact (dispatch_latched he).trans (if_neg hc)

/-- Settles O2: the word of each row is the encoding of the row's command. -/
theorem matchColumnDecodes : Obligations.MatchColumnDecodes :=
  ⟨decode_encode .nop, decode_encode .sreset, decode_encode .wopen, decode_encode .wubyte, decode_encode .wushort,
    decode_encode .wuint, decode_encode (.wbit false), decode_encode (.wbit true), decode_encode .wclose,
    decode_encode .ropen, decode_encode .rubyte, decode_encode .rushort, decode_encode .ruint, decode_encode .rbit,
    decode_encode .rclose, decode_encode .freq, decode_encode .sort, decode_encode .tree, decode_encode .codes,
    decode_encode .encode, decode_encode .decode, decode_encode .compress, decode_encode .decompress⟩
end

section
/-! SUPPORT. What the channel commands leave alone, completed or faulting (60_exceptions.md R185), and O10. -/

namespace Sys2Proof.Machine

/-- What holds of a command's pseudocode, completed, and of its fault entry holds of the command. -/
theorem finish_ends {P : State → Prop} {i : Instr} {s t : State} {x : Except Raise State} (h : finish i s x = .next t)
    (hok : ∀ u, x = .ok u → P u) (hfault : ∀ r, P (takeFault (writesOf i) r s)) : P t := by
  rcases finish_next h with hx | ⟨r, -, rfl⟩
  · exact hok t hx
  · exact hfault r

/-- `s` with the writer and the fault latch of `t`. -/
def State.withWriter (s t : State) : State := { s with out := t.out, err := t.err, errInfo := t.errInfo }

/-- `s` with the bit buffer, position and open flag of `t`'s reader, and the fault latch of `t`. -/
def State.withReader (s t : State) : State :=
  { s with inp := { t.inp with cbi := s.inp.cbi, len := s.inp.len }, err := t.err, errInfo := t.errInfo }

/-- `s` with the `RDATA` of `t`, the bit buffer and position of `t`'s reader, and the fault latch of `t`. -/
def State.withRead (s t : State) : State :=
  { s with
    rdata := t.rdata, inp := { t.inp with opened := s.inp.opened, cbi := s.inp.cbi, len := s.inp.len },
    err := t.err, errInfo := t.errInfo }

/-! ## The fault entries -/

theorem havocElem_withWriter {e : Elem} (he : e ∈ [Elem.wAcc, .wCnt, .cbo, .cboLen, .wOpen]) (s t : State) :
    (havocElem s e).withWriter t = s.withWriter t := by
  simp only [List.mem_cons, List.not_mem_nil, or_false] at he
  rcases he with rfl | rfl | rfl | rfl | rfl <;> rfl

theorem havocElem_withReader {e : Elem} (he : e ∈ [Elem.rBuf, .rCnt, .rPos, .rOpen]) (s t : State) :
    (havocElem s e).withReader t = s.withReader t := by
  simp only [List.mem_cons, List.not_mem_nil, or_false] at he
  rcases he with rfl | rfl | rfl | rfl <;> rfl

theorem havocElem_withRead {e : Elem} (he : e ∈ [Elem.rdata, .rBuf, .rCnt, .rPos]) (s t : State) :
    (havocElem s e).withRead t = s.withRead t := by
  simp only [List.mem_cons, List.not_mem_nil, or_false] at he
  rcases he with rfl | rfl | rfl | rfl <;> rfl

theorem havocElem_out_opened {e : Elem} (he : e ≠ .wOpen) (s : State) :
    (havocElem s e).out.opened = s.out.opened := by
  cases e with
  | wOpen => exact absurd rfl he
  | _ => rfl

theorem takeFault_withWriter {es : List Elem} (hes : es ⊆ [Elem.wAcc, .wCnt, .cbo, .cboLen, .wOpen]) (r : Raise)
    (s : State) : takeFault es r s = s.withWriter (takeFault es r s) :=
  havoc_eq_of_forall (f := (State.withWriter · (takeFault es r s))) (fun _ he u => havocElem_withWriter (hes he) u _) s

theorem takeFault_withReader {es : List Elem} (hes : es ⊆ [Elem.rBuf, .rCnt, .rPos, .rOpen]) (r : Raise) (s : State) :
    takeFault es r s = s.withReader (takeFault es r s) :=
  havoc_eq_of_forall (f := (State.withReader · (takeFault es r s))) (fun _ he u => havocElem_withReader (hes he) u _) s

theorem takeFault_withRead {es : List Elem} (hes : es ⊆ [Elem.rdata, .rBuf, .rCnt, .rPos]) (r : Raise) (s : State) :
    takeFault es r s = s.withRead (takeFault es r s) :=
  havoc_eq_of_forall (f := (State.withRead · (takeFault es r s))) (fun _ he u => havocElem_withRead (hes he) u _) s

theorem takeFault_out_opened {es : List Elem} (hes : Elem.wOpen ∉ es) (r : Raise) (s : State) :
    (takeFault es r s).out.opened = s.out.opened :=
  havoc_eq_of_forall (f := fun u => u.out.opened) (fun _ he => havocElem_out_opened (ne_of_mem_of_not_mem he hes)) s

section
variable {s t : State} {i : Instr} {x : Except Raise State}

theorem finish_withWriter (h : finish i s x = .next t) (hes : writesOf i ⊆ [Elem.wAcc, .wCnt, .cbo, .cboLen, .wOpen])
    (hok : ∀ u, x = .ok u → u = s.withWriter u) : t = s.withWriter t :=
  finish_ends (P := fun u => u = s.withWriter u) h hok fun r => takeFault_withWriter hes r s

theorem finish_withReader (h : finish i s x = .next t) (hes : writesOf i ⊆ [Elem.rBuf, .rCnt, .rPos, .rOpen])
    (hok : ∀ u, x = .ok u → u = s.withReader u) : t = s.withReader t :=
  finish_ends (P := fun u => u = s.withReader u) h hok fun r => takeFault_withReader hes r s

theorem finish_withRead (h : finish i s x = .next t) (hes : writesOf i ⊆ [Elem.rdata, .rBuf, .rCnt, .rPos])
    (hok : ∀ u, x = .ok u → u = s.withRead u) : t = s.withRead t :=
  finish_ends (P := fun u => u = s.withRead u) h hok fun r => takeFault_withRead hes r s

end

section
variable {s t : State}

/-! ## The writer commands -/

theorem putBody_withWriter {op : Word} {n : Nat} (h : putBody op n s = .ok t) :
    t = s.withWriter t ∧ t.out.opened = s.out.opened := by
  obtain ⟨-, c, hc, rfl⟩ := putBody_ok.1 h
  exact ⟨rfl, put_opened hc⟩

theorem wbitBody_withWriter {f : Bool} (h : wbitBody f s = .ok t) :
    t = s.withWriter t ∧ t.out.opened = s.out.opened := by
  obtain ⟨-, -, c, hc, rfl⟩ := wbitBody_ok.1 h
  exact ⟨rfl, putBit_opened hc⟩

/-- A writing command touches the writer alone, and not its open flag (40_channel_writer.md R85 to R88). -/
theorem exec_write_withWriter {i : Instr} (hi : i ∈ [Instr.wubyte, .wushort, .wuint, .wbit false, .wbit true])
    (h : exec i s = .next t) : t = s.withWriter t ∧ t.out.opened = s.out.opened := by
  have hfault (hes : writesOf i ⊆ [Elem.wAcc, .wCnt, .cbo, .cboLen, .wOpen]) (ho : Elem.wOpen ∉ writesOf i) (r : Raise) :=
    And.intro (takeFault_withWriter hes r s) (takeFault_out_opened ho r s)
  simp only [List.mem_cons, List.not_mem_nil, or_false] at hi
  rcases hi with rfl | rfl | rfl | rfl | rfl
  · exact finish_ends h (fun _ => putBody_withWriter) (hfault (by decide) (by decide))
  · exact finish_ends h (fun _ => putBody_withWriter) (hfault (by decide) (by decide))
  · exact finish_ends h (fun _ => putBody_withWriter) (hfault (by decide) (by decide))
  · exact finish_ends h (fun _ => wbitBody_withWriter) (hfault (by decide) (by decide))
  · exact finish_ends h (fun _ => wbitBody_withWriter) (hfault (by decide) (by decide))

theorem exec_wopen_withWriter (h : exec .wopen s = .next t) : t = s.withWriter t := by
  refine finish_withWriter h (by decide) fun u hu => ?_
  obtain ⟨-, rfl⟩ := wopenBody_ok.1 hu
  rfl

theorem exec_wclose_withWriter (h : exec .wclose s = .next t) : t = s.withWriter t := by
  refine finish_withWriter h (by decide) fun u hu => ?_
  obtain ⟨-, c, -, rfl⟩ := wcloseBody_ok.1 hu
  rfl

/-! ## The reader commands -/

/-- A step on the channel that keeps its stream and its open flag. -/
theorem SameStream.withRead {c : InChannel} (h : SameStream s.inp c) (v : Word) :
    { s with rdata := v, inp := c } = s.withRead { s with rdata := v, inp := c } := by
  obtain ⟨hcbi, hlen, ho⟩ := h
  simp only [State.withRead, ← hcbi, ← hlen, ← ho]

theorem getBody_withRead {op : Word} {n : Nat} (h : getBody op n s = .ok t) : t = s.withRead t := by
  obtain ⟨-, v, c, hc, rfl⟩ := getBody_ok.1 h
  exact (get_sameStream hc).withRead v

theorem rbitBody_withRead (h : rbitBody s = .ok t) : t = s.withRead t := by
  obtain ⟨-, b, c, hc, rfl⟩ := rbitBody_ok.1 h
  exact (getBit_sameStream hc).withRead (bitWord b)

/-- A reading command touches `RDATA`, the bit buffer and the position alone (41_channel_reader.md R95 to R98). -/
theorem exec_read_withRead {i : Instr} (hi : i ∈ [Instr.rubyte, .rushort, .ruint, .rbit]) (h : exec i s = .next t) :
    t = s.withRead t := by
  simp only [List.mem_cons, List.not_mem_nil, or_false] at hi
  rcases hi with rfl | rfl | rfl | rfl
  · exact finish_withRead h (by decide) fun _ => getBody_withRead
  · exact finish_withRead h (by decide) fun _ => getBody_withRead
  · exact finish_withRead h (by decide) fun _ => getBody_withRead
  · exact finish_withRead h (by decide) fun _ => rbitBody_withRead

theorem exec_ropen_withReader (h : exec .ropen s = .next t) : t = s.withReader t := by
  refine finish_withReader h (by decide) fun u hu => ?_
  obtain ⟨-, -, rfl⟩ := ropenBody_ok.1 hu
  rfl

theorem exec_rclose_withReader (h : exec .rclose s = .next t) : t = s.withReader t := by
  refine finish_withReader h (by decide) fun u hu => ?_
  obtain ⟨-, rfl⟩ := rcloseBody_ok.1 hu
  rfl

end

end Sys2Proof.Machine

open Sys2Proof Sys2Proof.Machine

/-- Settles O10: each command's frame, `WOPEN` and `WCLOSE` apart since they alone write `W_OPEN`. -/
theorem channelCommandFrame : Obligations.ChannelCommandFrame := by
  intro i s t h
  refine ⟨fun hi => ?_, fun hi => ?_, fun hi => exec_read_withRead hi h⟩
  · by_cases hopen : i = .wopen
    · subst hopen
      exact ⟨exec_wopen_withWriter h, fun hne => absurd rfl hne⟩
    · by_cases hclose : i = .wclose
      · subst hclose
        exact ⟨exec_wclose_withWriter h, fun _ hne => absurd rfl hne⟩
      · obtain ⟨hframe, hflag⟩ := exec_write_withWriter (by simpa [hopen, hclose] using hi) h
        exact ⟨hframe, fun _ _ => hflag⟩
  · simp only [List.mem_cons, List.not_mem_nil, or_false] at hi
    rcases hi with rfl | rfl
    · exact exec_ropen_withReader h
    · exact exec_rclose_withReader h
end

section
/-! SUPPORT. When the writer's steps complete and what they emit (40_channel_writer.md R81, R82, R85), and O18, O19, O20
and O21. -/

namespace Sys2Proof.Machine

/-- A command whose pseudocode completes ends in the state it gives. -/
theorem exec_of_ok {i : Instr} {s t : State} {x : Except Raise State} (he : exec i s = finish i s x) (hx : x = .ok t) :
    exec i s = .next t := by rw [he, hx, finish_ok]

/-- With room for it, the accumulator's byte goes into the stream and the accumulator is empty. -/
theorem emitAcc_completes {cap : Nat} (hcap : cap < 2 ^ 64) {op : Word} {c : OutChannel} (hroom : c.len.toNat < cap) :
    ∃ c', emitAcc cap op c = .ok c' ∧ Appended [c.acc] c c' ∧ c'.acc = 0#8 ∧ c'.cnt = 0#4 ∧ c'.opened = c.opened := by
  obtain ⟨d, hd⟩ : ∃ d, emit cap op c.acc c = .ok d := ⟨_, emit_eq_ok.2 ⟨hroom, rfl⟩⟩
  exact ⟨{ d with acc := 0#8, cnt := 0#4 }, by rw [emitAcc, hd, ok_bind],
    (Appended.emit hcap hd).congr rfl rfl rfl rfl, rfl, rfl, (emit_opened hd : d.opened = c.opened)⟩

theorem flush_of_empty {cap : Nat} {op : Word} {c : OutChannel} (h : c.cnt = 0#4) : flush cap op c = .ok c := if_pos h

theorem flush_of_nonempty {cap : Nat} {op : Word} {c : OutChannel} (h : c.cnt ≠ 0#4) :
    flush cap op c = emitAcc cap op c := if_neg h

/-- The eighth bit is the one put below seven buffered ones. -/
theorem appendBit_full {c : OutChannel} (hc : c.cnt.toNat ≤ 7) (b : Bool) :
    (appendBit b c).cnt = 8#4 ↔ c.cnt.toNat = 7 := by
  have hcnt : (appendBit b c).cnt.toNat = c.cnt.toNat + 1 := by
    simp only [appendBit, BitVec.toNat_add, BitVec.toNat_ofNat]; omega
  rw [← BitVec.toNat_inj, hcnt, BitVec.toNat_ofNat]
  omega

theorem bitByte_getLsbD_zero {v : Word} (h : v.toNat ≤ 1) : bitByte (v.getLsbD 0) = v.setWidth 8 := by
  have hv : v = 0#32 ∨ v = 1#32 := by bv_omega
  rcases hv with rfl | rfl <;> rfl

/-- `WBIT`'s accumulator in terms of its operand (40_channel_writer.md R85). -/
theorem appendBit_operand {v : Word} (h : v.toNat ≤ 1) (c : OutChannel) :
    appendBit (v.getLsbD 0) c =
      { c with acc := c.acc ||| (v.setWidth 8 <<< (7 - c.cnt.toNat)), cnt := c.cnt + 1#4 } := by
  rw [appendBit, bitByte_getLsbD_zero h]

end Sys2Proof.Machine

open Sys2Proof Sys2Proof.Machine

/-- Settles O18: the two ends of `WOPEN`'s pseudocode. -/
theorem wopenOpensTheWriter : Obligations.WopenOpensTheWriter :=
  ⟨decode_encode .wopen, fun _ =>
    ⟨fun ho => faultsWith_of_error rfl (wopenBody_error.2 ⟨ho, rfl⟩),
      fun ho => exec_of_ok rfl (wopenBody_ok.2 ⟨ho, rfl⟩)⟩⟩

/-- Settles O19: the three commands share their pseudocode, whose ends are the open check's and those of `put`. -/
theorem fixedWidthWriteAppendsLittleEndian : Obligations.FixedWidthWriteAppendsLittleEndian := by
  intro s i op n hbound hi
  have hcap : s.params.cboCap < 2 ^ 64 := by omega
  obtain ⟨hdec, hexec, hn⟩ : decode op = .ok i ∧ exec i s = finish i s (putBody op n s) ∧ 0 < n := by
    simp only [List.mem_cons, List.not_mem_nil, or_false, Prod.mk.injEq] at hi
    rcases hi with ⟨rfl, rfl, rfl⟩ | ⟨rfl, rfl, rfl⟩ | ⟨rfl, rfl, rfl⟩
    · exact ⟨decode_encode .wubyte, rfl, by decide⟩
    · exact ⟨decode_encode .wushort, rfl, by decide⟩
    · exact ⟨decode_encode .wuint, rfl, by decide⟩
  refine ⟨hdec, fun ho => ?_, fun ho hv => ?_, fun ho hv hroom => ?_, fun ho hv hok hroom => ?_⟩
  · exact faultsWith_of_error hexec (putBody_error.2 (.inl ⟨ho, rfl⟩))
  · exact faultsWith_of_error hexec (putBody_error.2 (.inr ⟨ho, (put_eq_error hcap hn).2 (.inl ⟨hv, rfl⟩)⟩))
  · exact faultsWith_of_error hexec (putBody_error.2 (.inr ⟨ho, (put_eq_error hcap hn).2 (.inr ⟨hv, hroom, rfl⟩)⟩))
  · obtain ⟨c, hc⟩ := put_completes hcap (op := op) hn hv hroom
    obtain ⟨-, happ, hcnt, hacc, hopen, -⟩ := put_eq_ok hcap hc
    have hzero : c.acc = 0#8 := by
      rw [hacc]
      split
      · next h0 => exact hok.acc_eq_zero h0
      · rfl
    exact ⟨c, exec_of_ok hexec (putBody_ok.2 ⟨ho, c, hc, rfl⟩), happ, hcnt, hzero, hopen.trans ho⟩

/-- Settles O20: with the checks passed, `WBIT` emits exactly when the bit is the eighth or the flush flag is set. -/
theorem wbitAppendsOneBit : Obligations.WbitAppendsOneBit := by
  refine ⟨decode_encode (.wbit false), decode_encode (.wbit true), fun s f hbound hcnt => ?_⟩
  have hcap : s.params.cboCap < 2 ^ 64 := by omega
  have hemits {b : Bool} (h : s.out.cnt.toNat = 7 ∨ f = true) : (appendBit b s.out).cnt = 8#4 ∨ f = true :=
    h.imp_left (appendBit_full hcnt b).2
  refine ⟨fun ho => ?_, fun ho hv => ?_, fun ho hv hlt hf => ?_, fun ho hv hfull hroom => ?_, fun ho hv hfull hroom => ?_⟩
  · exact faultsWith_of_error rfl (wbitBody_error.2 (.inl ⟨ho, rfl⟩))
  · exact faultsWith_of_error rfl (wbitBody_error.2 (.inr (.inl ⟨ho, hv, rfl⟩)))
  · have hkeeps {b : Bool} : ¬ ((appendBit b s.out).cnt = 8#4 ∨ f = true) := by
      rw [appendBit_full hcnt, hf]
      simp only [Bool.false_eq_true, or_false]
      omega
    exact exec_of_ok rfl (wbitBody_ok.2 ⟨ho, hv, _, if_neg hkeeps, by rw [appendBit_operand hv]⟩)
  · exact faultsWith_of_error rfl
      (wbitBody_error.2 (.inr (.inr ⟨ho, hv, putBit_eq_error.2 ⟨hemits hfull, hroom, rfl⟩⟩)))
  · obtain ⟨c, hc, happ, hacc, hcnt0, hopen⟩ :=
      emitAcc_completes hcap (op := 0x14#32) (c := appendBit (s.wdata.getLsbD 0) s.out) hroom
    rw [appendBit_operand hv] at happ
    exact ⟨c, exec_of_ok rfl (wbitBody_ok.2 ⟨ho, hv, c, (if_pos (hemits hfull)).trans hc, rfl⟩),
      happ.congr rfl rfl rfl rfl, hacc, hcnt0, hopen.trans ho⟩

/-- Settles O21: `WCLOSE` ends as its flush does, which has nothing to emit when no bit is buffered. -/
theorem wcloseFlushesAndCloses : Obligations.WcloseFlushesAndCloses := by
  refine ⟨decode_encode .wclose, fun s hbound => ⟨fun ho => ?_, fun ho h0 => ?_, fun ho h0 hroom => ?_,
    fun ho h0 hroom => ?_⟩⟩
  · exact faultsWith_of_error rfl (wcloseBody_error.2 (.inl ⟨ho, rfl⟩))
  · exact exec_of_ok rfl (wcloseBody_ok.2 ⟨ho, s.out, flush_of_empty h0, rfl⟩)
  · exact faultsWith_of_error rfl (wcloseBody_error.2 (.inr ⟨ho, flush_eq_error.2 ⟨⟨h0, hroom⟩, rfl⟩⟩))
  · obtain ⟨c, hc, happ, hacc, hcnt, -⟩ := emitAcc_completes (by omega) (op := 0x15#32) hroom
    exact ⟨_, exec_of_ok rfl (wcloseBody_ok.2 ⟨ho, c, (flush_of_nonempty h0).trans hc, rfl⟩),
      happ.congr rfl rfl rfl rfl, hacc, hcnt, rfl⟩
end

section
/-! SUPPORT. Runs of writer commands on two writers with the same output (40_channel_writer.md R79), and O23. -/

namespace Sys2Proof.Machine

/-- A run of writer commands that succeeds on one of two writers with the same output succeeds on the other, and leaves
two such writers. -/
theorem SameOutput.run {cmds : List (Instr × Word)}
    (hcmds : ∀ p ∈ cmds, p.1 ∈ [Instr.wubyte, .wushort, .wuint, .wbit false, .wbit true, .wclose]) {s s' t : State}
    (hrun : runWriter cmds s = some t) (h : SameOutput s.out s'.out) (he' : s'.err = none)
    (hcap : s.params.cboCap < 2 ^ 64) (hpar : s.params.cboCap = s'.params.cboCap) :
    ∃ t', runWriter cmds s' = some t' ∧ SameOutput t.out t'.out := by
  induction cmds generalizing s s' with
  | nil =>
    cases hrun
    exact ⟨s', rfl, h⟩
  | cons p cmds ih =>
    obtain ⟨i, v⟩ := p
    obtain ⟨hi, hrest⟩ := List.forall_mem_cons.1 hcmds
    rw [runWriter_cons, Option.bind_eq_some_iff] at hrun
    obtain ⟨u, hu, hrun⟩ := hrun
    obtain ⟨d, d', rfl, hsame, hu'⟩ := h.command hi hcap hpar he' hu
    obtain ⟨t', ht', hout⟩ := ih hrest hrun (s' := { s' with wdata := v, out := d' }) hsame he' hcap hpar
    exact ⟨t', by rw [runWriter_cons, hu', Option.bind_some, ht'], hout⟩

/-- Two freshly opened writers have the same output: none (40_channel_writer.md R83). -/
theorem SameOutput.fresh (m m' : Memory) : SameOutput ⟨0#8, 0#4, true, m, 0#64⟩ ⟨0#8, 0#4, true, m', 0#64⟩ :=
  ⟨rfl, rfl, rfl, rfl, rfl⟩

end Sys2Proof.Machine

open Sys2Proof Sys2Proof.Machine

/-- Settles O23: `WOPEN` leaves two writers with the same output, and each command keeps them so. -/
theorem emittedBytesDependOnTheCommandsOnly : Obligations.EmittedBytesDependOnTheCommandsOnly := by
  intro cmds s s' w w' t hcmds _ he' hpar hbound hw hwe hw' hwe' hrun
  obtain ⟨-, rfl⟩ := wopenBody_ok.1 (finish_ok_of_err hw hwe)
  obtain ⟨-, rfl⟩ := wopenBody_ok.1 (finish_ok_of_err hw' hwe')
  have hcap : s.params.cboCap < 2 ^ 64 := by omega
  obtain ⟨t', ht', hacc, hcnt, -, hopen, hstream⟩ :=
    SameOutput.run hcmds hrun (s' := { s' with out := ⟨0#8, 0#4, true, s'.out.cbo, 0#64⟩ }) (.fresh _ _) he' hcap hpar
  exact ⟨t', ht', hstream.symm, hacc.symm, hcnt.symm, hopen.symm⟩
end

section
/-! SUPPORT. A reader opened before a loaded stream, and O30. -/

namespace Sys2Proof.Machine

/-- Opened before a loaded stream, the reader has all of it ahead (41_channel_reader.md R93). -/
theorem ropenBody_of_loaded {bs : List Byte} {r : State} (h : Loaded bs r) :
    ∃ r', ropenBody r = .ok r' ∧ r'.err = none ∧ r'.inp.opened = true ∧ ReaderOk r'.inp ∧
      inBits r'.inp = bitsOfBytes bs := by
  obtain ⟨herr, hclosed, hlen, hcap, hbytes⟩ := h
  refine ⟨_, ropenBody_ok.2 ⟨hclosed, hcap, rfl⟩, herr, rfl, ⟨by simp, by simp, by simp⟩, ?_⟩
  have hrest : restStream ⟨0#8, 0#4, 0#64, true, r.inp.cbi, r.inp.len⟩ = bs := by
    simp only [restStream, available, BitVec.toNat_zero, Nat.sub_zero, hlen, hbytes]
  simp [inBits, hrest]

/-- `WOPEN` leaves a writer that has written nothing (40_channel_writer.md R83). -/
theorem wopenBody_fresh {s t : State} (h : wopenBody s = .ok t) :
    t.params = s.params ∧ t.out.opened = true ∧ OutOk t.out ∧ outBits t.out = [] := by
  obtain ⟨-, rfl⟩ := wopenBody_ok.1 h
  exact ⟨rfl, rfl, ⟨by simp, by simp⟩, rfl⟩

/-- `WCLOSE` leaves the flushed stream (40_channel_writer.md R89). -/
theorem outStream_wcloseBody {s t : State} (h : wcloseBody s = .ok t) (hcap : s.params.cboCap < 2 ^ 64) :
    outStream t.out = flushedStream s.out := by
  obtain ⟨-, c, hflush, rfl⟩ := wcloseBody_ok.1 h
  exact (flush_eq_ok hcap hflush).1.outStream

end Sys2Proof.Machine

open Sys2Proof Sys2Proof.Machine

/-- Settles O30: the closed writer's stream is its flushed bits, and a reader before them stands in step with the
freshly opened writer. -/
theorem readerReturnsWhatTheWriterWrote : Obligations.ReaderReturnsWhatTheWriterWrote := by
  intro ops s w t c r hpar _ hw hwe hrun hc hce hload
  obtain ⟨hparams, hopened, hfresh, hempty⟩ := wopenBody_fresh (finish_ok_of_err hw hwe)
  obtain ⟨-, -, -, hcap, -, -⟩ := params_bounds (hparams ▸ hpar)
  obtain ⟨d, v, hput, rfl, -, -⟩ := (runWrites_eq_some hwe hopened).1 hrun
  have hstream : outStream c.out = flushedStream d := outStream_wcloseBody (finish_ok_of_err hc hce) hcap
  rw [hstream] at hload
  obtain ⟨r', hopen, herr, ho, hok, hbits⟩ := ropenBody_of_loaded hload
  obtain ⟨u, hu⟩ := runReads_of_putOps hcap hfresh hput herr ho hok (by rw [hbits, hempty, List.nil_append])
  exact ⟨r', u, exec_of_ok rfl hopen, herr, hu⟩
end

section
/-! SUPPORT. When the reader's steps complete (41_channel_reader.md R91, R95), and O24, O25, O26 and O27. -/

namespace Sys2Proof.Machine

/-- With a bit unread, `RBIT`'s body takes it off the buffer. -/
theorem getBit_of_unread {c : InChannel} (h : c.cnt ≠ 0#4) :
    getBit c = .ok (c.buf.getLsbD 7, { c with buf := c.buf <<< 1, cnt := c.cnt - 1#4 }) := by
  rw [getBit, refill, if_neg h]; rfl

/-- With none unread and a byte available, it takes the first bit of that byte. -/
theorem getBit_of_available {c : InChannel} (h0 : c.cnt = 0#4) (ha : 1 ≤ available c) :
    getBit c = .ok ((byteAt .cbi c.cbi c.pos.toNat).getLsbD 7,
      { c with buf := byteAt .cbi c.cbi c.pos.toNat <<< 1, cnt := 7#4, pos := c.pos + 1#64 }) := by
  obtain ⟨b, c', hg⟩ := getBit_completes (c := c) (by unfold bitsLeft; omega)
  rcases getBit_eq_ok hg with ⟨hne, -, -⟩ | ⟨-, -, rfl, rfl⟩
  · exact absurd h0 hne
  · exact hg

end Sys2Proof.Machine

open Sys2Proof Sys2Proof.Machine

/-- Settles O24: the three ends of `ROPEN`'s pseudocode. -/
theorem ropenOpensTheReader : Obligations.RopenOpensTheReader :=
  ⟨decode_encode .ropen, fun _ =>
    ⟨fun ho => faultsWith_of_error rfl (ropenBody_error.2 (.inl ⟨ho, rfl⟩)),
      fun ho hlen => faultsWith_of_error rfl (ropenBody_error.2 (.inr ⟨ho, hlen, rfl⟩)),
      fun ho hlen => exec_of_ok rfl (ropenBody_ok.2 ⟨ho, hlen, rfl⟩)⟩⟩

/-- Settles O25: the three commands share their pseudocode, whose ends are the open check's and those of `get`. -/
theorem fixedWidthReadTakesLittleEndian : Obligations.FixedWidthReadTakesLittleEndian := by
  intro s i op n hi
  obtain ⟨hdec, hexec, hn⟩ : decode op = .ok i ∧ exec i s = finish i s (getBody op n s) ∧ 0 < n := by
    simp only [List.mem_cons, List.not_mem_nil, or_false, Prod.mk.injEq] at hi
    rcases hi with ⟨rfl, rfl, rfl⟩ | ⟨rfl, rfl, rfl⟩ | ⟨rfl, rfl, rfl⟩
    · exact ⟨decode_encode .rubyte, rfl, by decide⟩
    · exact ⟨decode_encode .rushort, rfl, by decide⟩
    · exact ⟨decode_encode .ruint, rfl, by decide⟩
  refine ⟨hdec, fun ho => ?_, fun ho hshort => ?_, fun ho hroom => ?_⟩
  · exact faultsWith_of_error hexec (getBody_error.2 (.inl ⟨ho, rfl⟩))
  · have hlt : available s.inp < n := by unfold available; omega
    exact faultsWith_of_error hexec (getBody_error.2 (.inr ⟨ho, get_eq_error.2 ⟨hlt, rfl⟩⟩))
  · have hle : n ≤ available s.inp := by unfold available; omega
    exact exec_of_ok hexec (getBody_ok.2 ⟨ho, _, _, get_eq_ok.2 ⟨hle, rfl, rfl⟩, rfl⟩)

/-- Settles O26: the ends of `RBIT`'s pseudocode are the open check's and those of taking a bit. -/
theorem rbitTakesOneBit : Obligations.RbitTakesOneBit := by
  refine ⟨decode_encode .rbit, fun s => ⟨fun ho => ?_, fun ho h0 hend => ?_, fun ho hunread => ?_,
    fun ho h0 hlt => ?_⟩⟩
  · exact faultsWith_of_error rfl (rbitBody_error.2 (.inl ⟨ho, rfl⟩))
  · have hnone : available s.inp = 0 := Nat.sub_eq_zero_of_le hend
    exact faultsWith_of_error rfl (rbitBody_error.2 (.inr ⟨ho, getBit_eq_error.2 ⟨⟨h0, hnone⟩, rfl⟩⟩))
  · exact exec_of_ok rfl (rbitBody_ok.2 ⟨ho, _, _, getBit_of_unread hunread, rfl⟩)
  · exact exec_of_ok rfl (rbitBody_ok.2 ⟨ho, _, _, getBit_of_available h0 (Nat.sub_pos_of_lt hlt), rfl⟩)

/-- Settles O27: the two ends of `RCLOSE`'s pseudocode. -/
theorem rcloseClosesTheReader : Obligations.RcloseClosesTheReader :=
  ⟨decode_encode .rclose, fun _ =>
    ⟨fun ho => faultsWith_of_error rfl (rcloseBody_error.2 ⟨ho, rfl⟩),
      fun ho => exec_of_ok rfl (rcloseBody_ok.2 ⟨ho, rfl⟩)⟩⟩
end

section
/-! SUPPORT. The decoder moves the reader by fixed-width reads and bits alone (46_decoder.md R150), and O29. -/

namespace Sys2Proof.Machine

/-- One step of the reader, as the reader commands and the decoder take it. -/
inductive ReadStep : InChannel → InChannel → Prop
  | bytes {n : Nat} {c c' : InChannel} {v : Word} (h : get n c = .ok (v, c')) : ReadStep c c'
  | bit {c c' : InChannel} {b : Bool} (h : getBit c = .ok (b, c')) : ReadStep c c'

/-- Any number of them. -/
abbrev ReadSteps : InChannel → InChannel → Prop := Relation.ReflTransGen ReadStep

/-- Bytes that are there lie before the end of the stream, so the position does not wrap. -/
theorem ReadStep.pos_le {c c' : InChannel} (h : ReadStep c c') : c.pos.toNat ≤ c'.pos.toNat := by
  have advance {n : Nat} (ha : n ≤ available c) : c.pos.toNat ≤ (c.pos + BitVec.ofNat 64 n).toNat := by
    rcases pos_add_toNat ha with hpos | rfl
    · omega
    · simp
  cases h with
  | bytes h =>
    obtain ⟨ha, -, rfl⟩ := get_eq_ok.1 h
    exact advance ha
  | bit h =>
    rcases getBit_eq_ok h with ⟨-, -, rfl⟩ | ⟨-, ha, -, rfl⟩
    · exact le_rfl
    · exact advance ha

theorem ReadSteps.pos_le {c c' : InChannel} (h : ReadSteps c c') : c.pos.toNat ≤ c'.pos.toNat := by
  induction h with
  | refl => exact le_rfl
  | tail _ hstep ih => exact ih.trans hstep.pos_le

theorem getBits_steps {n : Nat} {c c' : InChannel} {p : Bits} (h : getBits n c = .ok (p, c')) : ReadSteps c c' := by
  induction n generalizing c p with
  | zero => cases h; exact .refl
  | succ n ih =>
    simp only [getBits, bind_eq_ok, Prod.exists, Except.ok.injEq, Prod.mk.injEq] at h
    obtain ⟨b, d, hd, bs, e, he, -, rfl⟩ := h
    exact .head (.bit hd) (ih he)

theorem getEntry_steps {d : Nat} {c c' : InChannel} {e : MapEntry} (h : getEntry d c = .ok (e, c')) :
    ReadSteps c c' := by
  simp only [getEntry, bind_eq_ok, Prod.exists] at h
  obtain ⟨v, c1, h1, l, c2, h2, h⟩ := h
  split at h
  · cases h
  · simp only [bind_eq_ok, Prod.exists, Except.ok.injEq, Prod.mk.injEq] at h
    obtain ⟨p, c3, h3, -, rfl⟩ := h
    exact .head (.bytes h1) (.head (.bytes h2) (getBits_steps h3))

theorem getTable_steps {d n i : Nat} {m m' : List MapEntry} {c c' : InChannel}
    (h : getTable d n i m c = .ok (m', c')) : ReadSteps c c' := by
  induction n generalizing i m c with
  | zero => cases h; exact .refl
  | succ n ih =>
    simp only [getTable, bind_eq_ok, Prod.exists] at h
    obtain ⟨e, c1, h1, h⟩ := h
    split at h
    · cases h
    · exact (getEntry_steps h1).trans (ih h)

theorem matchCode_steps {m : List MapEntry} {fuel : Nat} {cand : Bits} {c c' : InChannel} {b : Byte}
    (h : matchCode m fuel cand c = .ok (b, c')) : ReadSteps c c' := by
  induction fuel generalizing cand c with
  | zero =>
    unfold matchCode at h
    split at h
    · cases h; exact .refl
    · cases h
  | succ n ih =>
    unfold matchCode at h
    split at h
    · cases h; exact .refl
    · simp only [bind_eq_ok, Prod.exists] at h
      obtain ⟨e, c1, h1, h⟩ := h
      exact .head (.bit h1) (ih h)

theorem getPayload_steps {m : List MapEntry} {n k : Nat} {d d' : Memory} {c c' : InChannel}
    (h : getPayload m n k d c = .ok (d', c')) : ReadSteps c c' := by
  induction n generalizing k d c with
  | zero => cases h; exact .refl
  | succ n ih =>
    simp only [getPayload, bind_eq_ok, Prod.exists] at h
    obtain ⟨e, c1, h1, h⟩ := h
    exact (matchCode_steps h1).trans (ih h)

section
variable {s t : State}

/-- `DECODE` moves the reader by reader steps alone; dropping the unread bits first is part of the first read. -/
theorem decodeBody_steps (h : decodeBody s = .ok t) : ReadSteps s.inp t.inp := by
  obtain ⟨-, -, total, c1, unique, c2, m, c3, dst, c4, h1, h2, -, -, h3, h4, rfl⟩ := decodeBody_ok.1 h
  exact .head (.bytes (c := s.inp) h1) (.head (.bytes h2) ((getTable_steps h3).trans (getPayload_steps h4)))

theorem compressBody_inp (h : compressBody s = .ok t) : t.inp = s.inp := by
  obtain ⟨a, b, c, d, e, h1, h2, h3, h4, h5, h6⟩ := compressBody_ok.1 h
  obtain ⟨-, -, rfl⟩ := freqBody_ok.1 h1
  obtain ⟨-, rfl⟩ := sortBody_ok.1 h2
  obtain ⟨-, rfl⟩ := treeBody_ok.1 h3
  obtain ⟨-, rfl⟩ := codesBody_ok.1 h4
  obtain ⟨-, rfl⟩ := wopenBody_ok.1 h5
  obtain ⟨-, -, _, -, rfl⟩ := encodeBody_ok.1 h6
  rfl

/-- A writer command leaves the reader alone. -/
theorem exec_writer_inp {i : Instr}
    (hi : i ∈ [Instr.wopen, .wubyte, .wushort, .wuint, .wbit false, .wbit true, .wclose]) (h : exec i s = .next t) :
    t.inp = s.inp := by
  rw [((channelCommandFrame i s t h).1 hi).1]

end

end Sys2Proof.Machine

open Sys2Proof Sys2Proof.Machine

/-- Settles O29: of the commands that complete on an open reader, the reads and `DECODE` move it by reader steps, and no
other moves it; `ROPEN`, and `DECOMPRESS` with it, faults. -/
theorem readerPositionNeverDecreases : Obligations.ReaderPositionNeverDecreases := by
  intro i s t hi ho h ht
  have writer (hi : i ∈ [Instr.wopen, .wubyte, .wushort, .wuint, .wbit false, .wbit true, .wclose]) :
      s.inp.pos.toNat ≤ t.inp.pos.toNat := by rw [exec_writer_inp hi h]
  have read {op : Word} {n : Nat} (hb : getBody op n s = .ok t) : s.inp.pos.toNat ≤ t.inp.pos.toNat := by
    obtain ⟨-, v, c, hg, rfl⟩ := getBody_ok.1 hb
    exact (ReadStep.bytes hg).pos_le
  have hopen {u : State} (hb : ropenBody s = .ok u) : False := by
    obtain ⟨hclosed, -⟩ := ropenBody_ok.1 hb
    rw [ho] at hclosed; cases hclosed
  cases i with
  | nop => cases h; exact le_rfl
  | sreset => exact absurd rfl hi
  | wopen | wubyte | wushort | wuint | wclose => exact writer (by decide)
  | wbit f => exact writer (by cases f <;> decide)
  | ropen => exact (hopen (finish_ok_of_err h ht)).elim
  | rubyte | rushort | ruint => exact read (finish_ok_of_err h ht)
  | rbit =>
    obtain ⟨-, b, c, hg, rfl⟩ := rbitBody_ok.1 (finish_ok_of_err h ht)
    exact (ReadStep.bit hg).pos_le
  | rclose => obtain ⟨-, rfl⟩ := rcloseBody_ok.1 (finish_ok_of_err h ht); exact le_rfl
  | freq => obtain ⟨-, -, rfl⟩ := freqBody_ok.1 (finish_ok_of_err h ht); exact le_rfl
  | sort => obtain ⟨-, rfl⟩ := sortBody_ok.1 (finish_ok_of_err h ht); exact le_rfl
  | tree => obtain ⟨-, rfl⟩ := treeBody_ok.1 (finish_ok_of_err h ht); exact le_rfl
  | codes => obtain ⟨-, rfl⟩ := codesBody_ok.1 (finish_ok_of_err h ht); exact le_rfl
  | encode => obtain ⟨-, -, _, -, rfl⟩ := encodeBody_ok.1 (finish_ok_of_err h ht); exact le_rfl
  | decode => exact (decodeBody_steps (finish_ok_of_err h ht)).pos_le
  | compress => rw [compressBody_inp (finish_ok_of_err h ht)]
  | decompress =>
    obtain ⟨_, _, hb, -⟩ := decompressBody_ok.1 (finish_ok_of_err h ht)
    exact (hopen hb).elim
end

section
/-! SUPPORT. The fault entry of a known list of elements (60_exceptions.md R185), the sum of the frequency table
(42_frequency_sort.md R102) and the queue while `Q_V = 1` (R105); O11, O31, O32, O33 and O34. -/

namespace Sys2Proof.Machine

theorem havoc_cons (e : Elem) (es : List Elem) (s : State) : havoc (e :: es) s = havoc es (havocElem s e) := rfl

/-! ## The frequency table -/

/-- Counts that sum to a nonzero number are not all zero (42_frequency_sort.md R102). -/
theorem exists_count_ne_zero {l : List Word} (h : (l.map BitVec.toNat).sum ≠ 0) : ∃ x ∈ l, x ≠ 0#32 := by
  by_contra! hnone
  refine h (List.sum_eq_zero fun n hn => ?_)
  obtain ⟨x, hx, rfl⟩ := List.mem_map.1 hn
  simp [hnone x hx]

/-- The table's entries sum to the length of the text (42_frequency_sort.md R102). -/
theorem sum_freqTable {bs : List Byte} (h : bs.length < 2 ^ 32) :
    ((freqTable bs).toList.map BitVec.toNat).sum = bs.length := by
  simp only [toList_counts, toNat_countOf_freqTable h]
  exact sum_counts ascending_nodup (by simp) bs

/-! ## The queue -/

/-- In the default ranking a tie goes to the smaller byte value (42_frequency_sort.md R103). -/
theorem count_then_sym_of_rankedBefore {x y : QEntry}
    (h : rankedBefore ((List.range 256).map (BitVec.ofNat 8)) x y) :
    x.count < y.count ∨ x.count = y.count ∧ x.sym < y.sym := by
  simpa only [rankedBefore, idxOf_ascending, ← BitVec.lt_def] using h

/-- While `Q_V = 1` the queue is that of the source (10_state.md R16), and `Q_LEN` its length. -/
theorem sortQueue_of_valid {s : State} (h : Good s) (hv : s.qV = true) :
    s.q = sortQueue s.params.tieOrder (freqTable (srcBytes s)) ∧ s.qLen.toNat = s.q.length := by
  obtain ⟨-, h256, -⟩ := queue_of_valid h hv
  obtain ⟨-, -, -, -, -, -, ⟨hfreq, hqueue, -, -⟩, -⟩ := h
  obtain ⟨hf, hq, hlen⟩ := hqueue hv
  obtain ⟨-, -, hfs⟩ := hfreq hf
  refine ⟨hfs ▸ hq, ?_⟩
  rw [hlen, BitVec.toNat_ofNat]
  omega

end Sys2Proof.Machine

open Sys2Proof Sys2Proof.Machine

/-- Settles O11: a stage command ends in its pseudocode's state, or in its fault entry, written out element by element,
which leaves `STATUS.ERR` set. -/
theorem stageCommandFrame : Obligations.StageCommandFrame := by
  intro s t
  refine ⟨fun h => ?freq, fun h => ?sort, fun h => ?tree, fun h => ?codes⟩
  case freq =>
    rcases finish_next h with hok | ⟨r, -, rfl⟩
    · obtain ⟨-, -, rfl⟩ := freqBody_ok.1 hok
      exact ⟨rfl, fun _ => rfl⟩
    · exact ⟨by simp only [takeFault, writesOf, havoc_cons, havoc_nil, havocElem], nofun⟩
  case sort =>
    rcases finish_next h with hok | ⟨r, -, rfl⟩
    · obtain ⟨-, rfl⟩ := sortBody_ok.1 hok
      exact ⟨rfl, fun _ => rfl⟩
    · exact ⟨by simp only [takeFault, writesOf, havoc_cons, havoc_nil, havocElem], nofun⟩
  case tree =>
    rcases finish_next h with hok | ⟨r, -, rfl⟩
    · obtain ⟨-, rfl⟩ := treeBody_ok.1 hok
      exact ⟨rfl, fun _ => rfl⟩
    · exact ⟨by simp only [takeFault, writesOf, havoc_cons, havoc_nil, havocElem], nofun⟩
  case codes =>
    rcases finish_next h with hok | ⟨r, -, rfl⟩
    · obtain ⟨-, rfl⟩ := codesBody_ok.1 hok
      rfl
    · simp only [takeFault, writesOf, havoc_cons, havoc_nil, havocElem]

/-- Settles O31: the three ends of `FREQ`'s pseudocode; no count wraps, since `SRC_LEN` has 32 bits. -/
theorem freqCountsOccurrences : Obligations.FreqCountsOccurrences :=
  ⟨decode_encode .freq, fun s _ =>
    ⟨fun hcap => faultsWith_of_error rfl (freqBody_error.2 (.inl ⟨hcap, rfl⟩)),
      fun h0 => faultsWith_of_error rfl (freqBody_error.2 (.inr ⟨h0, rfl⟩)),
      fun h0 hfits => ⟨freqTable (srcBytes s), true, exec_of_ok rfl (freqBody_ok.2 ⟨hfits, h0, rfl⟩),
        toNat_countOf_freqTable (length_srcBytes_lt s)⟩⟩⟩

/-- Settles O32: the sum is the length of the source, which bounds each entry and, being nonzero, is not a sum of
zeros. -/
theorem frequenciesSumToTheSourceLength : Obligations.FrequenciesSumToTheSourceLength := by
  intro s t _ _ h ht
  obtain ⟨-, h0, rfl⟩ := freqBody_ok.1 (finish_ok_of_err h ht)
  have hsum : ((freqTable (srcBytes s)).toList.map BitVec.toNat).sum = s.srcLen.toNat :=
    (sum_freqTable (length_srcBytes_lt s)).trans (length_srcBytes s)
  have hpos : s.srcLen.toNat ≠ 0 := BitVec.toNat_ne_iff_ne.2 h0
  exact ⟨hsum, exists_count_ne_zero (hsum ▸ hpos), fun x hx => hsum ▸ List.le_sum_of_mem (List.mem_map_of_mem hx)⟩

/-- Settles O33: the queue is `sortQueue` by `TIE_ORDER`, a ranking of all symbols. -/
theorem sortOrdersByCountThenTieOrder : Obligations.SortOrdersByCountThenTieOrder := by
  refine ⟨decode_encode .sort, fun s hpar => ⟨fun hv => ?_, fun hv => ?_⟩⟩
  · exact faultsWith_of_error rfl (sortBody_error.2 ⟨hv, rfl⟩)
  · obtain ⟨hnodup, hall, -⟩ := params_bounds hpar
    have hranked := sortQueue_ranked hnodup s.freq
    refine ⟨sortQueue s.params.tieOrder s.freq, true, exec_of_ok rfl (sortBody_ok.2 ⟨hv, rfl⟩), fun e => ?_,
      sortQueue_nodup hnodup _, hall ▸ length_sortQueue_le _ _, hranked, fun hdefault => ?_⟩
    · exact mem_sortQueue.trans (and_iff_right (mem_of_ranking hnodup hall e.sym))
    · exact hranked.imp fun hxy => count_then_sym_of_rankedBefore (hdefault ▸ hxy)

/-- Settles O34: the queue is `sortQueue` of the counts of a source that is not empty. -/
theorem queuePropertiesWhileValid : Obligations.QueuePropertiesWhileValid := by
  intro s hi he hv
  have hg := hi.good he
  obtain ⟨hne, h256, -⟩ := queue_of_valid hg hv
  obtain ⟨hq, hlen⟩ := sortQueue_of_valid hg hv
  obtain ⟨hnodup, hall, -⟩ := params_bounds hg.1
  have hshort := length_srcBytes_lt s
  refine ⟨hlen ▸ List.length_pos_iff.2 hne, hlen ▸ h256, hlen, ?_, fun e hmem => ?_, ?_, ?_, ?_⟩
  · exact hq ▸ sortQueue_nodup hnodup _
  · obtain ⟨-, hcount, heq⟩ := mem_sortQueue.1 (hq ▸ hmem)
    exact Nat.one_le_iff_ne_zero.2 (BitVec.toNat_ne_iff_ne.2 (heq ▸ hcount))
  · exact hq ▸ sortQueue_sorted _ _
  · rw [hq, sum_sortQueue hnodup hall hshort, length_srcBytes]
  · rw [hlen, hq, length_sortQueue hnodup hall hshort, srcBytes]
end

section
/-! SUPPORT. What `TREE` leaves behind (43_tree_builder.md R117), the builder's trees without the arena (R112 to R118);
O35, O36 and O37. -/

namespace Sys2Proof.Machine

/-! ## The command -/

section
variable {s t : State}

/-- With `Q_V = 1`, `TREE` completes its pseudocode (43_tree_builder.md R117). -/
theorem treeBody_of_exec (hv : s.qV = true) (h : exec .tree s = .next t) : treeBody s = .ok t := by
  rcases finish_next h with hok | ⟨r, hr, -⟩
  · exact hok
  · rw [(treeBody_error.1 hr).1] at hv; cases hv

theorem liveQueue_eq_of_length (h : s.q.length = s.qLen.toNat) : liveQueue s = s.q := by
  rw [liveQueue, ← h, List.take_length]

theorem rootOf_of_main {seed : Nat} {w : Builder} {m : Sub} (h : w.main = some m) :
    rootOf seed w = (m.idx, m.tree.weight) := by
  rw [rootOf, h]

/-- `TREE` leaves at `ROOT` the builder's main tree, and its weight in `ROOT_W`. -/
theorem rootTree_of_treeBody (h : treeBody s = .ok t) (hq : liveQueue s ≠ []) (hn : (liveQueue s).length ≤ 256)
    {m : Sub} (hm : (buildTree s.params.pendOrder (liveQueue s)).main = some m) :
    rootTree t = m.tree ∧ t.rootW = m.tree.weight := by
  obtain ⟨-, rfl⟩ := treeBody_ok.1 h
  have hroot := rootOf_of_main (seed := s.fresh) hm
  exact ⟨rootTree_of_buildTree hq hn hm rfl rfl (by rw [hroot]), by rw [hroot]⟩

end

/-! ## The trees in hand -/

/-- The main tree and the pending subtrees. -/
abbrev Hand := Option Tree × List Tree

/-- The trees a builder has in hand, without their places in the arena. -/
def inHand (w : Builder) : Hand := (w.main.map Sub.tree, w.pend.map Sub.tree)

/-- The leaf of a queue entry (43_tree_builder.md R112). -/
def leafTree (e : QEntry) : Tree := .leaf e.sym e.count

/-- The tree with the two children in this order (43_tree_builder.md R113). -/
def joinTrees (x y : Tree) : Tree := .internal (x.weight + y.weight) x y

/-- The two trees with the strictly lighter one first (43_tree_builder.md R114). -/
def mergeTrees (m x : Tree) : Tree := if x.weight < m.weight then joinTrees x m else joinTrees m x

/-- The main tree once `x` is merged with it; `x` itself if there was none (43_tree_builder.md R114). -/
def mergeInto (main : Option Tree) (x : Tree) : Tree := main.elim x fun m => mergeTrees m x

/-- The candidate against the main tree: merged if it is strictly heavier, else held back (43_tree_builder.md R116). -/
def offer (c : Tree) : Option Tree → Hand
  | none => (some c, [])
  | some m => if m.weight < c.weight then (some (joinTrees m c), []) else (some m, [c])

/-- A round of the loop on the trees in hand, in the default order (43_tree_builder.md R115, R116). -/
def pairRound (x y : QEntry) : Hand → Hand
  | (main, []) => (main, [joinTrees (leafTree x) (leafTree y)])
  | (main, p :: _) => offer (joinTrees p (joinTrees (leafTree x) (leafTree y))) main

/-- The main tree after the loop: what is pending is merged, then the entry left over (43_tree_builder.md R118). -/
def settledTree (rest : List QEntry) (h : Hand) : Option Tree :=
  let main := h.2.head?.elim h.1 fun p => some (mergeInto h.1 p)
  rest.head?.elim main fun e => some (mergeInto main (leafTree e))

theorem mergeMain_fst_tree (main : Option Sub) (x : Sub) (ns : List Node) :
    (mergeMain main x ns).1.tree = mergeInto (main.map Sub.tree) x.tree := by
  cases main with
  | none => rfl
  | some m => exact mergeMain_tree m x ns

theorem offer_of_lt {c m : Tree} (h : m.weight < c.weight) : offer c (some m) = (some (joinTrees m c), []) := if_pos h

theorem offer_of_not_lt {c m : Tree} (h : ¬ m.weight < c.weight) : offer c (some m) = (some m, [c]) := if_neg h

theorem inHand_candidateStep (a b : Sub) (ns : List Node) (main : Option Sub) :
    inHand (candidateStep .olderFirst a b ns main) = offer (joinTrees a.tree b.tree) (main.map Sub.tree) := by
  cases main with
  | none => rfl
  | some m =>
    rcases candidateStep_olderFirst a b m ns with ⟨hlt, r, ns', hr, hc⟩ | ⟨hge, c, ns', hr, hc⟩
    · rw [hc, Option.map_some, offer_of_lt hlt, inHand, Option.map_some, hr]; rfl
    · rw [hc, Option.map_some, offer_of_not_lt hge, inHand, List.map_singleton, hr]; rfl

/-- The simulation, one round: forgetting the arena commutes with the pair and candidate steps. -/
theorem inHand_pairStep (x y : QEntry) (w : Builder) :
    inHand (pairStep .olderFirst x y w) = pairRound x y (inHand w) := by
  obtain ⟨ns, main, pend⟩ := w
  cases pend with
  | nil => rfl
  | cons p ps => exact inHand_candidateStep p _ _ main

theorem main_mergeLeftover_mergePending (rest : List QEntry) (w : Builder) :
    (mergeLeftover rest (mergePending w)).main.map Sub.tree = settledTree rest (inHand w) := by
  have pending : (mergePending w).main.map Sub.tree =
      (inHand w).2.head?.elim (inHand w).1 fun p => some (mergeInto (inHand w).1 p) := by
    obtain ⟨ns, main, pend⟩ := w
    cases pend with
    | nil => rfl
    | cons p ps => exact congrArg some (mergeMain_fst_tree main p ns)
  cases rest with
  | nil => exact pending
  | cons e es =>
    rw [settledTree, ← pending]
    exact congrArg some (mergeMain_fst_tree (mergePending w).main _ _)

/-- The main tree of a queue, from the trees in hand, in the default order (43_tree_builder.md R117). -/
def treeFrom : List QEntry → Hand → Option Tree
  | x :: y :: rest, h => treeFrom rest (pairRound x y h)
  | rest, h => settledTree rest h

/-- The simulation over the whole queue: the arena plays no part in which main tree comes out. -/
theorem main_pairLoop (q : List QEntry) (w : Builder) :
    (mergeLeftover (pairLoop .olderFirst q w).2 (mergePending (pairLoop .olderFirst q w).1)).main.map Sub.tree =
      treeFrom q (inHand w) := by
  induction q using List.twoStepInduction generalizing w with
  | nil => exact main_mergeLeftover_mergePending [] w
  | singleton e => exact main_mergeLeftover_mergePending [e] w
  | cons_cons x y q ih _ =>
    rw [treeFrom, ← inHand_pairStep]
    exact ih (pairStep .olderFirst x y w)

/-- Once the loop is done a candidate is merged either way: behind the main tree if it is strictly heavier, else as a
pending subtree (43_tree_builder.md R116, R118). -/
theorem settledTree_offer (rest : List QEntry) (c m : Tree) :
    settledTree rest (offer c (some m)) =
      settledTree rest (some (if m.weight < c.weight then joinTrees m c else mergeTrees m c), []) := by
  by_cases h : m.weight < c.weight
  · rw [offer_of_lt h, if_pos h]
  · rw [offer_of_not_lt h, if_neg h]; rfl

/-- With the default order, `TREE` leaves at `ROOT` the tree that the queue gives without an arena. -/
theorem rootTree_of_exec {s t : State} {q : List QEntry} {x : Tree} (hpar : s.params.pendOrder = .olderFirst)
    (hv : s.qV = true) (h : exec .tree s = .next t) (hx : treeFrom q (none, []) = some x)
    (hsize : q ≠ [] ∧ q.length ≤ 256) (hq : s.q = q) (hlen : s.qLen = BitVec.ofNat 9 q.length) : rootTree t = x := by
  subst hq
  obtain ⟨hne, hn⟩ := hsize
  have hlive : liveQueue s = s.q := liveQueue_eq_of_length (by rw [hlen, BitVec.toNat_ofNat]; omega)
  obtain ⟨m, hm⟩ := buildTree_main .olderFirst hne
  have hsim : (buildTree .olderFirst s.q).main.map Sub.tree = treeFrom s.q (none, []) := main_pairLoop s.q _
  obtain ⟨htree, -⟩ := rootTree_of_treeBody (treeBody_of_exec hv h) (hlive ▸ hne) (hlive ▸ hn) (hlive ▸ hpar ▸ hm)
  rw [hx, hm, Option.map_some, Option.some.injEq] at hsim
  rw [htree, hsim]

end Sys2Proof.Machine

open Sys2Proof Sys2Proof.Machine

/-- Settles O35: the builder's main tree stands in the arena, its leaves are the queue's entries, and its weights are
sums; a path to a subtree is shorter than the tree has leaves. -/
theorem treeHasEveryQueueEntryAsOneLeaf : Obligations.TreeHasEveryQueueEntryAsOneLeaf := by
  refine fun s => ⟨fun hv => faultsWith_of_error rfl (treeBody_error.2 ⟨hv, rfl⟩), fun hv h1 h256 hlen => ?_⟩
  have hlive : liveQueue s = s.q := liveQueue_eq_of_length hlen
  have hq : s.q ≠ [] := List.length_pos_iff.1 (by omega)
  have hn : s.q.length ≤ 256 := by omega
  obtain ⟨m, hm, ⟨-, hweights⟩, hperm, hsize⟩ := buildTree_spec s.params.pendOrder hq hn
  rw [← hlive] at hq hn hm hsize
  have hbody := treeBody_ok.2 ⟨hv, rfl⟩
  obtain ⟨htree, hroot⟩ := rootTree_of_treeBody hbody hq hn hm
  refine ⟨_, _, rfl, exec_of_ok rfl hbody, hlive ▸ hsize, htree ▸ hperm, htree ▸ hroot, ?_, fun p x hp => ?_⟩
  · rw [hroot, weight_eq_sum hweights]
    exact (hperm.map QEntry.count).sum_eq
  · have := length_lt_of_follow (htree ▸ hp)
    rw [hperm.length_eq] at this
    omega

/-- Settles O36, on the trees in hand: up to seven entries no candidate meets a main tree; from eight on the first one
that does is compared with it, and at ten a held one is compared once more, joined with the last pair. -/
theorem smallQueueTrees : Obligations.SmallQueueTrees := by
  intro s t a b c d e f g h i j hpar hv hexec leaf pair merge two main cand eight held
  have root {q : List QEntry} {x : Tree} := rootTree_of_exec (q := q) (x := x) hpar hv hexec
  refine ⟨root rfl (by simp), root rfl (by simp), root rfl (by simp), root rfl (by simp), root rfl (by simp),
    root rfl (by simp), root rfl (by simp), root ?eight (by simp), root ?nine (by simp), root ?ten (by simp)⟩
  case eight => exact settledTree_offer [] cand main
  case nine => exact settledTree_offer [i] cand main
  case ten =>
    show treeFrom [i, j] (offer cand (some main)) = _
    by_cases hlt : main.weight < cand.weight
    · rw [offer_of_lt hlt, if_pos hlt]; rfl
    · rw [offer_of_not_lt hlt, if_neg hlt]
      exact settledTree_offer [] held main

/-- Settles O37: all four are read off `buildTree`, which sees `PEND_ORDER` and the live queue only; a nonempty queue
gives a main tree, so that `ROOT` and `ROOT_W` are not free. -/
theorem treeDependsOnTheQueueOnly : Obligations.TreeDependsOnTheQueueOnly := by
  intro s s' t t' hv hv' hqueue hne hpar h h'
  obtain ⟨-, rfl⟩ := treeBody_ok.1 (treeBody_of_exec hv h)
  obtain ⟨-, rfl⟩ := treeBody_ok.1 (treeBody_of_exec hv' h')
  have hsame : buildTree s'.params.pendOrder (liveQueue s') = buildTree s.params.pendOrder (liveQueue s) := by
    rw [liveQueue, liveQueue, hqueue, hpar]
  obtain ⟨m, hm⟩ : ∃ m, (buildTree s.params.pendOrder (liveQueue s)).main = some m := buildTree_main _ hne
  simp only [hsame, rootOf_of_main hm, and_self]
end

section
/-! SUPPORT. What `CODES` leaves behind (44_code_table.md R133), the size of its table (R132, R134) and the one code that
starts a long enough bit string (R137); O38, O39 and O40. -/

namespace Sys2Proof.Machine

/-- The state after `CODES` when there is a tree (44_code_table.md R133). -/
theorem exec_codes_of_treeV {s : State} (hv : s.treeV = true) :
    exec .codes s = .next { s with
      ct := codeTable (rootTree s), ctLen := BitVec.ofNat 9 (codeTable (rootTree s)).length, ctV := true } :=
  exec_of_ok rfl (codesBody_ok.2 ⟨hv, rfl⟩)

theorem length_codeTable (t : Tree) : (codeTable t).length = (leaves t).length := length_walk t []

/-- In a tree small enough for a code table the length field holds the number of bits (44_code_table.md R133, R134). -/
theorem toNat_len_of_mem_codeTable {t : Tree} {e : CodeEntry} (hn : (leaves t).length ≤ 256) (he : e ∈ codeTable t) :
    e.len.toNat = e.bits.length := by
  obtain ⟨hlen, hbound, -⟩ := mem_codeTable he
  rw [hlen, BitVec.toNat_ofNat]
  omega

/-- A bit string at least as long as all codes starts with exactly one of them (44_code_table.md R137). -/
theorem existsUnique_code_prefix {t : Tree} {bits : Bits} (hl : ∀ e ∈ codeTable t, e.bits.length ≤ bits.length) :
    ∃! e, e ∈ codeTable t ∧ e.bits <+: bits := by
  obtain ⟨e, he, hpre⟩ := walk_complete t [] bits List.nil_prefix hl
  refine ⟨e, ⟨he, hpre⟩, fun y ⟨hy, hypre⟩ => ?_⟩
  rcases List.prefix_or_prefix_of_prefix hypre hpre with hye | hey
  · exact codeTable_eq_of_prefix hy he hye
  · exact (codeTable_eq_of_prefix he hy hey).symm

end Sys2Proof.Machine

open Sys2Proof Sys2Proof.Machine

/-- Settles O38: an entry of the table of `rootTree` records its leaf's path, which is shorter than the tree has
leaves. -/
theorem codesAreRootToLeafPaths : Obligations.CodesAreRootToLeafPaths := by
  refine fun s => ⟨fun hv => faultsWith_of_error rfl (codesBody_error.2 ⟨hv, rfl⟩), fun hv hn =>
    ⟨codeTable (rootTree s), exec_codes_of_treeV hv, map_sym_walk _ [], fun e he => ?entry, fun x w hroot => ?single⟩⟩
  case entry =>
    obtain ⟨-, hbound, hpath⟩ := mem_codeTable he
    rw [← length_codeTable] at hbound
    exact ⟨hpath, toNat_len_of_mem_codeTable hn he, Nat.le_sub_one_of_lt hbound⟩
  case single => rw [hroot, codeTable_leaf]

/-- Settles O39: the paths to two leaves part at an inner node, so neither continues the other. -/
theorem derivedCodesArePrefixFree : Obligations.DerivedCodesArePrefixFree :=
  fun s hv => ⟨_, exec_codes_of_treeV hv, rfl, codeTable_apart (rootTree s)⟩

/-- Settles O40: a bit string that long leads from the root to a leaf, and of two codes that start it one is a prefix of
the other. -/
theorem derivedCodesAreComplete : Obligations.DerivedCodesAreComplete := by
  intro s t bits hv hexec hlong
  obtain rfl := Host.Outcome.next.inj ((exec_codes_of_treeV hv).symm.trans hexec)
  exact existsUnique_code_prefix fun e he => (hlong e he).le
end

section
/-! SUPPORT. `COMPRESS` where it stops before the encoder, and the container it writes otherwise (45_encoder.md R144,
R145); O42, O43, O44 and O52. -/

namespace Sys2Proof.Machine

variable {s : State}

/-- A fault of `FREQ` is one of `COMPRESS` (45_encoder.md R145). -/
theorem compressBody_of_freqBody_error {r : Raise} (h : freqBody s = .error r) : compressBody s = .error r := by
  rw [compressBody, h, error_bind]

/-- With the source in range the stages complete, and an open writer stops `COMPRESS` at `WOPEN` (60_exceptions.md
R183). -/
theorem compressBody_of_opened (hp : paramsWellFormed s.params = true) (h0 : s.srcLen ≠ 0#32)
    (hs : s.srcLen.toNat ≤ s.params.srcCap) (ho : s.out.opened = true) :
    compressBody s = .error ⟨.seq, 0x10#32⟩ := by
  obtain ⟨a, b, c, d, hfreq, hsort, htree, hcodes, -, -, -, hd⟩ := stages_complete hp h0 hs
  have hopen : d.out.opened = true := by rw [hd]; exact ho
  simp only [compressBody, hfreq, hsort, htree, hcodes, ok_bind, wopenBody_error.2 ⟨hopen, rfl⟩, error_bind]

theorem srcBytes_ne_nil (h0 : s.srcLen ≠ 0#32) : srcBytes s ≠ [] := by
  rw [← List.length_pos_iff, length_srcBytes]
  exact Nat.pos_of_ne_zero (BitVec.toNat_ne_iff_ne.2 h0)

/-- The code that the table of a text gives to a byte. -/
abbrev textCode (p : Params) (text : List Byte) : Byte → Bits := codeOf 0 (codesOf p text)

/-- The container of the source, with `SRC_LEN` as its total (30_encoding.md R70). -/
theorem containerOf_srcBytes (p : Params) (s : State) : containerOf p (srcBytes s) =
    containerBytes s.srcLen (codesOf p (srcBytes s)) ((srcBytes s).flatMap (textCode p (srcBytes s))) := by
  rw [containerOf, length_srcBytes, BitVec.ofNat_toNat, BitVec.setWidth_eq]

/-- The header is the container's first six bytes (30_encoding.md R70, R71). -/
theorem take_six_containerBytes (total : Word) (ct : List CodeEntry) (payload : Bits) :
    (containerBytes total ct payload).take 6 = bytesLe total 4 ++ bytesLe (BitVec.ofNat 32 ct.length) 2 :=
  List.take_left' (by simp)

/-- The table of a text has one entry per distinct byte of it (45_encoder.md R144). -/
theorem length_codesOf {p : Params} (hp : paramsWellFormed p = true) {text : List Byte} (hb : text.length < 2 ^ 32)
    (hne : text ≠ []) : (codesOf p text).length = text.dedup.length := by
  obtain ⟨hnodup, hall, -⟩ := params_bounds hp
  obtain ⟨m, -, -, hlen, -⟩ := codesOf_spec hp hb hne
  rw [hlen, length_sortQueue hnodup hall hb]

/-- `DECOMPRESS` reads the text back from its container (45_encoder.md R146). -/
theorem decompressBody_containerOf {p : Params} (hp : paramsWellFormed p = true) (h0 : s.srcLen ≠ 0#32) {r : State}
    (hload : Loaded (containerOf p (srcBytes s)) r) (hdst : s.srcLen.toNat ≤ r.params.dstCap)
    (hmap : 256 ≤ r.params.dmapCap) (hmax : 255 ≤ r.params.dcodeMax) :
    ∃ u, decompressBody r = .ok u ∧ u.err = none ∧
      (∀ a, a < s.srcLen.toNat → byteAt .dst u.dst a = byteAt .src s.src a) ∧ u.dstLen = s.srcLen ∧ u.dstV = true ∧
      u.inp.opened = false ∧ u.inp.pos.toNat = (containerOf p (srcBytes s)).length := by
  obtain ⟨m, -, hct, -, h256, hne, hnodup, hcover, hentry⟩ :=
    codesOf_spec hp (length_srcBytes_lt s) (srcBytes_ne_nil h0)
  have happart : (codesOf p (srcBytes s)).Pairwise Apart := hct ▸ codeTable_apart m.tree
  have hcode : ∀ b ∈ srcBytes s, ∃ e ∈ codesOf p (srcBytes s), e.sym = b ∧ e.bits = textCode p (srcBytes s) b := by
    intro b hb
    obtain ⟨e, he, rfl⟩ := hcover b hb
    exact ⟨e, he, rfl, (codeOf_of_mem hnodup he).symm⟩
  have hok : ∀ e ∈ codesOf p (srcBytes s), e.len.toNat = e.bits.length ∧ e.bits.length ≤ r.params.dcodeMax := by
    intro e he
    obtain ⟨hlen, hbits⟩ := hentry e he
    exact ⟨by rw [hlen, BitVec.toNat_ofNat]; omega, by omega⟩
  rw [containerOf_srcBytes] at hload ⊢
  obtain ⟨u, hu, herr, hbytes, hlen, hv, hclosed, -, -, hpos⟩ := decompressBody_container (trail := [])
    (length_srcBytes s).symm hdst hne (by omega) (by omega) hok happart hcode (by rwa [List.append_nil])
  refine ⟨u, hu, herr, fun a ha => ?_, hlen, hv, hclosed, hpos⟩
  rw [hbytes, if_pos (by rwa [length_srcBytes]), srcBytes, getD_bytesAt _ _ _ _ ha, Nat.zero_add]

end Sys2Proof.Machine

open Sys2Proof Sys2Proof.Machine

/-- Settles O52: `COMPRESS` leaves the container of the source, which `DECOMPRESS` reads: in the derived table no
code starts another, every byte of the source has its code, and no code has more than 255 bits. -/
theorem decompressUndoesCompress : Obligations.DecompressUndoesCompress := by
  intro s hp he ho h0 hs hroom
  obtain ⟨t, ht, herr, hstream, -⟩ := (compressBody_container hp h0 hs ho).2 hroom
  refine ⟨t, exec_of_ok rfl ht, herr.trans he, fun r _ hload hdst hmap hmax => ?_⟩
  obtain ⟨u, hu, huerr, hbytes, hlen, hv, hclosed, hpos⟩ :=
    decompressBody_containerOf hp h0 (hstream ▸ hload) hdst hmap hmax
  rw [← hstream, length_outStream] at hpos
  exact ⟨u, exec_of_ok rfl hu, huerr, hlen, hv, hclosed, BitVec.eq_of_toNat_eq hpos, hbytes⟩

/-- Settles O42: past the two checks, `ENCODE` ends as its channel steps do: for want of room, or with the container
appended. -/
theorem encodeWritesTheContainer : Obligations.EncodeWritesTheContainer := by
  refine ⟨decode_encode .encode, fun s => ⟨fun hv => ?_, fun hv ho => ?_,
    fun code hv ho hp hok hlen hnodup hcover => ?_⟩⟩
  · exact faultsWith_of_error rfl (encodeBody_error.2 (.inl ⟨hv, rfl⟩))
  · exact faultsWith_of_error rfl (encodeBody_error.2 (.inr (.inl ⟨hv, ho, rfl⟩)))
  · obtain ⟨hfull, hfits⟩ := putContainer_live hp hok hlen hnodup hcover
    refine ⟨fun hroom => ?_, fun hroom => ?_⟩
    · exact faultsWith_of_error rfl (encodeBody_error.2 (.inr (.inr ⟨hv, ho, hfull hroom⟩)))
    · obtain ⟨c, hc, happ, hacc, hcnt⟩ := hfits hroom
      exact ⟨{ c with opened := false }, exec_of_ok rfl (encodeBody_ok.2 ⟨hv, ho, c, hc, rfl⟩),
        happ.congr rfl rfl rfl rfl, hacc, hcnt, rfl⟩

/-- Settles O43: `COMPRESS` stops at `FREQ`, at `WOPEN` or inside `ENCODE`; the stages between do not fault. -/
theorem compressFaultsInOrder : Obligations.CompressFaultsInOrder := by
  refine fun s hp => ⟨fun hcap => ?_, fun h0 => ?_, fun h0 hs ho => ?_, fun h0 hs ho hroom => ?_⟩
  · exact faultsWith_of_error rfl (compressBody_of_freqBody_error (freqBody_error.2 (.inl ⟨hcap, rfl⟩)))
  · exact faultsWith_of_error rfl (compressBody_of_freqBody_error (freqBody_error.2 (.inr ⟨h0, rfl⟩)))
  · exact faultsWith_of_error rfl (compressBody_of_opened hp h0 hs ho)
  · exact faultsWith_of_error rfl ((compressBody_container hp h0 hs ho).1 hroom)

/-- Settles O44: the stream is the container, so its first bytes are the header, and `UNIQUE` is the length of the
derived table. -/
theorem compressWritesTheContainer : Obligations.CompressWritesTheContainer := by
  intro s hp ho h0 hs hroom
  obtain ⟨t, ht, herr, hstream, hbeyond, hflags, hwriter, htotal, hunique⟩ :=
    (compressBody_container hp h0 hs ho).2 hroom
  have hfield : t.unique.setWidth 32 = BitVec.ofNat 32 (codesOf s.params (srcBytes s)).length := by
    rw [← hunique, BitVec.ofNat_toNat]
  refine ⟨t, exec_of_ok rfl ht, herr, hstream, hbeyond, hflags, hwriter, htotal, ?_, ?_⟩
  · exact hunique.trans (length_codesOf hp (length_srcBytes_lt s) (srcBytes_ne_nil h0))
  · rw [hstream, containerOf_srcBytes, take_six_containerBytes, hfield]
end

section
/-! SUPPORT. What the container commands leave alone, completed (45_encoder.md R145, 46_decoder.md R160), and O12. -/

namespace Sys2Proof.Machine

section
variable {s t : State}

/-- What `COMPRESS` leaves alone. -/
theorem compressBody_frame (h : compressBody s = .ok t) : t = { s with
    freq := t.freq, freqV := t.freqV, q := t.q, qLen := t.qLen, qV := t.qV, nodes := t.nodes, nNodes := t.nNodes,
    root := t.root, rootW := t.rootW, treeV := t.treeV, ct := t.ct, ctLen := t.ctLen, ctV := t.ctV,
    flagCleared := t.flagCleared, total := t.total, unique := t.unique, out := t.out } := by
  obtain ⟨a, b, c, d, e, h1, h2, h3, h4, h5, h6⟩ := compressBody_ok.1 h
  obtain ⟨-, -, rfl⟩ := freqBody_ok.1 h1
  obtain ⟨-, rfl⟩ := sortBody_ok.1 h2
  obtain ⟨-, rfl⟩ := treeBody_ok.1 h3
  obtain ⟨-, rfl⟩ := codesBody_ok.1 h4
  obtain ⟨-, rfl⟩ := wopenBody_ok.1 h5
  obtain ⟨-, -, _, -, rfl⟩ := encodeBody_ok.1 h6
  rfl

/-- What `DECOMPRESS` leaves alone. -/
theorem decompressBody_frame (h : decompressBody s = .ok t) : t = { s with
    dst := t.dst, dstLen := t.dstLen, dstV := t.dstV, dmap := t.dmap, dmapLen := t.dmapLen, emitted := t.emitted,
    total := t.total, unique := t.unique, flagCleared := t.flagCleared,
    inp := { t.inp with cbi := s.inp.cbi, len := s.inp.len } } := by
  obtain ⟨a, b, hopen, hdec, hclose⟩ := decompressBody_ok.1 h
  obtain ⟨-, -, rfl⟩ := ropenBody_ok.1 hopen
  obtain ⟨-, rfl⟩ := rcloseBody_ok.1 hclose
  rw [decodeBody_frame hdec]

end

end Sys2Proof.Machine

open Sys2Proof Sys2Proof.Machine

/-- Settles O12: a container command ends in its pseudocode's state, or in its fault entry, written out element by
element. -/
theorem containerCommandFrame : Obligations.ContainerCommandFrame := by
  intro s t
  refine ⟨fun h => ?encode, fun h => ?decode, fun h => ?compress, fun h => ?decompress⟩
  case encode =>
    rcases finish_next h with hok | ⟨r, -, rfl⟩
    · obtain ⟨-, -, c, -, rfl⟩ := encodeBody_ok.1 hok
      rfl
    · simp only [takeFault, writesOf, havoc_cons, havoc_nil, havocElem]
  case decode =>
    rcases finish_next h with hok | ⟨r, -, rfl⟩
    · rw [decodeBody_frame hok]
    · simp only [takeFault, writesOf, havoc_cons, havoc_nil, havocElem]
  case compress =>
    rcases finish_next h with hok | ⟨r, -, rfl⟩
    · rw [compressBody_frame hok]
    · simp only [takeFault, writesOf, havoc_cons, havoc_nil, havocElem]
  case decompress =>
    rcases finish_next h with hok | ⟨r, -, rfl⟩
    · rw [decompressBody_frame hok]
    · simp only [takeFault, writesOf, havoc_cons, havoc_nil, havocElem]
end

section
/-! SUPPORT. `COMPRESS` and `DECOMPRESS` as the sequences of their commands (45_encoder.md R145, 46_decoder.md R160);
O50. -/

namespace Sys2Proof.Machine

/-- Commands with their pseudocode, in the order in which they are issued. -/
abbrev Sequence := List (Instr × (State → Except Raise State))

/-- The pseudocode of a sequence: one command's after the other, the first fault stops it. -/
def Sequence.body (is : Sequence) (s : State) : Except Raise State := is.foldlM (fun s p => p.2 s) s

/-- A command of a sequence: no reset, one that ends as its pseudocode does, which leaves the fault latch alone. -/
def RunsBody (p : Instr × (State → Except Raise State)) : Prop :=
  p.1 ≠ .sreset ∧ (∀ s, exec p.1 s = finish p.1 s (p.2 s)) ∧ ∀ s t, p.2 s = .ok t → t.err = s.err

/-- The commands of `COMPRESS` (45_encoder.md R145). -/
def compressSequence : Sequence :=
  [(.freq, freqBody), (.sort, sortBody), (.tree, treeBody), (.codes, codesBody), (.wopen, wopenBody),
    (.encode, encodeBody)]

/-- The commands of `DECOMPRESS` (46_decoder.md R160). -/
def decompressSequence : Sequence := [(.ropen, ropenBody), (.decode, decodeBody), (.rclose, rcloseBody)]

theorem compressSequence_body (s : State) : compressSequence.body s = compressBody s := by
  simp only [Sequence.body, compressSequence, compressBody, List.foldlM_cons, List.foldlM_nil, bind_pure]

theorem decompressSequence_body (s : State) : decompressSequence.body s = decompressBody s := by
  simp only [Sequence.body, decompressSequence, decompressBody, List.foldlM_cons, List.foldlM_nil, bind_pure]

theorem compressSequence_runsBody : ∀ p ∈ compressSequence, RunsBody p := by
  simp only [compressSequence, List.forall_mem_cons]
  refine ⟨⟨nofun, fun _ => rfl, fun s t h => ?freq⟩, ⟨nofun, fun _ => rfl, fun s t h => ?sort⟩,
    ⟨nofun, fun _ => rfl, fun s t h => ?tree⟩, ⟨nofun, fun _ => rfl, fun s t h => ?codes⟩,
    ⟨nofun, fun _ => rfl, fun s t h => ?wopen⟩, ⟨nofun, fun _ => rfl, fun s t h => ?encode⟩, List.forall_mem_nil _⟩
  case freq => obtain ⟨-, -, rfl⟩ := freqBody_ok.1 h; rfl
  case sort => obtain ⟨-, rfl⟩ := sortBody_ok.1 h; rfl
  case tree => obtain ⟨-, rfl⟩ := treeBody_ok.1 h; rfl
  case codes => obtain ⟨-, rfl⟩ := codesBody_ok.1 h; rfl
  case wopen => obtain ⟨-, rfl⟩ := wopenBody_ok.1 h; rfl
  case encode => obtain ⟨-, -, _, -, rfl⟩ := encodeBody_ok.1 h; rfl

/-- `DECODE` leaves the fault latch alone (46_decoder.md R151). -/
theorem decodeBody_err {s t : State} (h : decodeBody s = .ok t) : t.err = s.err := by
  have hframe := decodeBody_frame h
  rw [hframe]

theorem decompressSequence_runsBody : ∀ p ∈ decompressSequence, RunsBody p := by
  simp only [decompressSequence, List.forall_mem_cons]
  refine ⟨⟨nofun, fun _ => rfl, fun s t h => ?ropen⟩, ⟨nofun, fun _ => rfl, fun s t h => ?decode⟩,
    ⟨nofun, fun _ => rfl, fun s t h => ?rclose⟩, List.forall_mem_nil _⟩
  case ropen => obtain ⟨-, -, rfl⟩ := ropenBody_ok.1 h; rfl
  case decode => exact decodeBody_err h
  case rclose => obtain ⟨-, rfl⟩ := rcloseBody_ok.1 h; rfl

/-- A command whose pseudocode is that of a sequence ends as the sequence does: in its state, or with its first
fault. -/
theorem exec_agrees_with_sequence {i : Instr} {is : Sequence} {s : State} (he : s.err = none)
    (hx : exec i s = finish i s (is.body s)) (his : ∀ p ∈ is, RunsBody p) :
    ∃ t u, exec i s = .next t ∧ runCommands (is.map Prod.fst) s = .next u ∧
      t.err = u.err ∧ t.errInfo = u.errInfo ∧ (t.err = none → t = u) := by
  have hrun := runCommands_bodies his s he
  cases hb : is.body s with
  | ok t =>
    rw [show is.foldlM (fun s p => p.2 s) s = .ok t from hb] at hrun
    exact ⟨t, t, exec_of_ok hx hb, hrun.1, rfl, rfl, fun _ => rfl⟩
  | error r =>
    rw [show is.foldlM (fun s p => p.2 s) s = .error r from hb] at hrun
    obtain ⟨u, hu, herr, hinfo⟩ := hrun
    exact ⟨takeFault (writesOf i) r s, u, by rw [hx, hb, finish_error], hu, herr.symm, hinfo.symm, nofun⟩

end Sys2Proof.Machine

open Sys2Proof Sys2Proof.Machine

/-- Settles O50: each command's pseudocode is that of its sequence. -/
theorem wholeFlowCommandsAreSequences : Obligations.WholeFlowCommandsAreSequences := by
  intro s he p hp
  simp only [List.mem_cons, List.not_mem_nil, or_false] at hp
  rcases hp with rfl | rfl
  · exact exec_agrees_with_sequence he (compressSequence_body s ▸ rfl) compressSequence_runsBody
  · exact exec_agrees_with_sequence he (decompressSequence_body s ▸ rfl) decompressSequence_runsBody
end

section
/-! SUPPORT. Where `DECODE` stops up to its header, without a table, inside its table and inside its payload, and O45,
O46, O47, O48, O49, O51 and O60 (46_decoder.md). -/

namespace Sys2Proof.Machine

/-- A command whose pseudocode stops at a `raise` ends in the fault entry. -/
theorem exec_of_error {i : Instr} {s : State} {x : Except Raise State} {r : Raise} (he : exec i s = finish i s x)
    (hx : x = .error r) : exec i s = .next (takeFault (writesOf i) r s) := by rw [he, hx, finish_error]

/-! ## Up to the header -/

theorem decodeBody_of_closed {s : State} (h : s.inp.opened = false) : decodeBody s = .error ⟨.closed, decodeOp⟩ :=
  if_neg (by simp [h])

/-- With fewer bytes available than a header has (46_decoder.md R152). -/
theorem decodeBody_of_short {s : State} (ho : s.inp.opened = true) (h : available s.inp < 6) :
    decodeBody s = .error ⟨.noHeader, BitVec.ofNat 32 (available s.inp)⟩ := by
  rw [decodeBody, if_pos ho]
  exact if_pos h

/-- With a header whose table or text is too large (46_decoder.md R151). -/
theorem decodeBody_of_capacity {s : State} {total unique : Word} {rest : List Byte} (ho : s.inp.opened = true)
    (hp : s.inp.pos.toNat ≤ s.inp.len.toNat) (hu : unique.toNat < 2 ^ 16)
    (hr : restStream s.inp = bytesLe total 4 ++ bytesLe unique 2 ++ rest)
    (hcap : s.params.dmapCap < unique.toNat ∨ s.params.dstCap < total.toNat) :
    decodeBody s = .error ⟨.capacity, decodeOp⟩ := by
  obtain ⟨h6, c1, c2, g1, g2, -⟩ := get_header hp hu hr
  have h6 : ¬ available s.inp < headerBytes := not_lt.2 h6
  simp only [decodeBody, ho, if_true, available_discard, h6, if_false, g1, g2, ok_bind, hcap]

/-- A reader without unread bits is known by how many bytes it has taken off the stream. -/
theorem eq_of_restStream {c c' : InChannel} {bs : List Byte} (hp : c.pos.toNat ≤ c.len.toNat) (hk : ReaderOk c')
    (h0 : c'.cnt = 0#4) (hss : SameStream c c') (hr : restStream c = bs ++ restStream c') :
    c' = { c with buf := 0#8, cnt := 0#4, pos := c.pos + BitVec.ofNat 64 bs.length } := by
  obtain ⟨buf, cnt, pos, opened, cbi, len⟩ := c'
  obtain ⟨rfl, rfl, rfl⟩ := hss
  obtain ⟨-, hbuf, hpos⟩ := hk
  subst h0
  have hbuf : buf = 0#8 := by simpa using hbuf
  have hav := available_eq hr
  rw [List.length_append, length_restStream] at hav
  simp only [available] at hav hpos
  have hpos : pos = c.pos + BitVec.ofNat 64 bs.length := by
    apply BitVec.eq_of_toNat_eq
    rw [BitVec.toNat_add, BitVec.toNat_ofNat]
    omega
  rw [hbuf, hpos]

/-! ## Inside the table -/

/-- An entry that stands in the stream, padded, is read (46_decoder.md R153). -/
theorem getEntry_of_packed {d : Nat} {e : CodeEntry} (he : EntryOk d e) {c : InChannel} {rest : List Byte}
    (hk : ReaderOk c) (hr : restStream c = entryHead e ++ packBits e.bits ++ rest) :
    ∃ c', getEntry d c = .ok (⟨e.bits, e.sym⟩, c') := by
  obtain ⟨hlen, hlt, hmax⟩ := he.fields
  rw [List.append_assoc] at hr
  obtain ⟨x, hx, h0, kx, g⟩ := getEntry_of_stream hlen hlt hmax hk.2.2 hr
  obtain ⟨x', g', -⟩ := getBits_packBits kx h0 hx
  exact ⟨x', by rw [g, g']; rfl⟩

/-- The table loop stops where its next entry does. -/
theorem getTable_of_getEntry_error {d n i : Nat} {m : List MapEntry} {c : InChannel} {r : Raise}
    (h : getEntry d c = .error r) : getTable d (n + 1) i m c = .error r := by
  rw [getTable, h, error_bind]

/-- It stops at an entry whose code is in the map already (46_decoder.md R155). -/
theorem getTable_of_repeated {d n i : Nat} {m : List MapEntry} {c c' : InChannel} {e : MapEntry}
    (h : getEntry d c = .ok (e, c')) (hm : e.bits ∈ m.map MapEntry.bits) :
    getTable d (n + 1) i m c = .error ⟨.dupCode, BitVec.ofNat 32 i⟩ := by
  obtain ⟨x, hx, hxe⟩ := List.mem_map.1 hm
  have hfound : (lookupCode m e.bits).isSome = true := by
    rw [Option.isSome_iff_ne_none, Ne, lookupCode_eq_none]
    exact fun hnone => hnone x hx hxe
  rw [getTable, h, ok_bind]
  exact if_pos hfound

/-- After the header and some entries with distinct codes, fewer than announced, `DECODE` stops where the table loop
does from there (46_decoder.md R151, R153). -/
theorem decodeBody_after_entries {s : State} {total unique : Word} {es : List CodeEntry} {tail : List Byte}
    (ho : s.inp.opened = true) (hp : s.inp.pos.toNat ≤ s.inp.len.toNat) (hd : total.toNat ≤ s.params.dstCap)
    (hn : es.length < unique.toNat) (hu : unique.toNat < 2 ^ 16) (hm : unique.toNat ≤ s.params.dmapCap)
    (he : ∀ x ∈ es, EntryOk s.params.dcodeMax x) (hnd : (es.map CodeEntry.bits).Nodup)
    (hr : restStream s.inp =
      bytesLe total 4 ++ bytesLe unique 2 ++ es.flatMap (fun x => entryHead x ++ packBits x.bits) ++ tail) :
    ∃ c n, ReaderOk c ∧ SameStream s.inp c ∧ restStream c = tail ∧
      ∀ r, getTable s.params.dcodeMax (n + 1) es.length (mapOf es) c = .error r → decodeBody s = .error r := by
  rw [List.append_assoc] at hr
  obtain ⟨c, hc, -, kc, hss, hbody⟩ := decodeBody_of_header ho hp hu hm hd hr
  obtain ⟨c', g, kc', hss', hc'⟩ := getTable_of_entries (m := []) (i := 0) (n := unique.toNat - es.length - 1 + 1) he
    (by simpa [mapOf, Function.comp_def] using hnd) kc hc
  rw [show es.length + (unique.toNat - es.length - 1 + 1) = unique.toNat by omega, Nat.zero_add, List.nil_append] at g
  exact ⟨c', _, kc', hss.trans hss', hc', fun r hstop => by rw [hbody, g, hstop, error_bind]⟩

/-! ## Inside the payload -/

/-- With fewer symbols than announced in a payload that ends at a byte boundary, and no code a prefix of what stands
behind them, `DECODE` runs to the end of the stream (46_decoder.md R161, R163). -/
theorem decodeBody_payload_stuck {s : State} {total : Word} {ct : List CodeEntry} {text : List Byte} {code : Byte → Bits}
    {rest : Bits} (ho : s.inp.opened = true) (hp : s.inp.pos.toNat ≤ s.inp.len.toNat)
    (hn : text.length < total.toNat) (hd : total.toNat ≤ s.params.dstCap) (hne : ct ≠ [])
    (hm : ct.length ≤ s.params.dmapCap) (hl : ct.length < 2 ^ 16) (he : ∀ e ∈ ct, EntryOk s.params.dcodeMax e)
    (hnd : (ct.map CodeEntry.bits).Nodup)
    (hc : ∀ b ∈ text, ∃ e ∈ ct, e.sym = b ∧ e.bits = code b ∧ ∀ x ∈ ct, x.bits <+: e.bits → x = e)
    (hs : ∀ e ∈ ct, ¬ e.bits <+: rest)
    (hpad : ∀ e ∈ ct.getLast?, (e.bits.length + (text.flatMap code ++ rest).length) % 8 = 0)
    (hr : restStream s.inp = containerBytes total ct (text.flatMap code ++ rest)) :
    decodeBody s = .error ⟨.truncated, s.inp.len.setWidth 32⟩ := by
  obtain ⟨c, k, kc, ⟨-, hlen, -⟩, hk, hpad', hb, hbody⟩ := decodeBody_of_table (trail := []) ho hp hd hne hm hl he hnd
    (by rw [hr, List.append_nil])
  have hk0 : k = 0 := by
    obtain ⟨e, hlast⟩ := Option.ne_none_iff_exists'.1 (mt List.getLast?_eq_none_iff.1 hne)
    have h1 := hpad e hlast
    have h2 := hpad' e hlast
    omega
  subst hk0
  have hreach : ∀ b ∈ text, ∃ e, Reachable (mapOf ct) e ∧ e.sym = b ∧ e.bits = code b := by
    intro b hmem
    obtain ⟨e, hin, hsym, hbits, hfirst⟩ := hc b hmem
    exact ⟨_, .of_table hin hfirst, hsym, hbits⟩
  have hstuck : ∀ e ∈ mapOf ct, ¬ e.bits <+: rest := by simpa [mapOf] using hs
  rw [hbody, getPayload_stuck hreach hn kc (by simpa using hb) hstuck, hlen, error_bind]

end Sys2Proof.Machine

open Sys2Proof Sys2Proof.Machine

/-- Settles O45: the table is rebuilt entry by entry, and each code of the text leads to its symbol. -/
theorem decodeReadsTheContainer : Obligations.DecodeReadsTheContainer := by
  intro s total ct text code trail _ ho hp ht hd hne hm hl he hnd hc hr
  obtain ⟨dst, c, hbody, hdst, hopen, hrest, hpos⟩ := decodeBody_container ho hp ht hd hne hm hl he hnd hc hr
  exact ⟨_, exec_of_ok rfl hbody, rfl, hdst, rfl, rfl, rfl, rfl, rfl, rfl, rfl, rfl, hopen, hrest, hpos⟩

/-- Settles O46: the first three checks of `DECODE`, in order. -/
theorem decodeHeaderFaults : Obligations.DecodeHeaderFaults := fun _ =>
  ⟨fun hclosed => faultsWith_of_error rfl (decodeBody_of_closed hclosed),
    fun ho _ hshort => faultsWith_of_error rfl (decodeBody_of_short ho hshort),
    fun _ _ _ ho hp hu hr hcap => faultsWith_of_error rfl (decodeBody_of_capacity ho hp hu hr hcap)⟩

/-- Settles O47: without a table the payload loop has nothing to do, or no code to match. -/
theorem decodeWithoutATable : Obligations.DecodeWithoutATable := by
  intro s total trail ho hp hr hd
  obtain ⟨c, hc, h0, kc, hss, hbody⟩ := decodeBody_of_header ho hp (by simp) (by simp) hd hr
  have htable : getTable s.params.dcodeMax (0#32).toNat 0 [] c = .ok ([], c) := rfl
  rw [htable, ok_bind] at hbody
  refine ⟨fun hzero => ?_, fun hpos => ?_⟩
  · subst hzero
    have hc6 := eq_of_restStream hp kc h0 hss (hc ▸ hr)
    subst hc6
    exact exec_of_ok rfl hbody
  · have hpos : 0 < total.toNat := Nat.pos_of_ne_zero fun h => hpos (BitVec.eq_of_toNat_eq h)
    have hstuck := getPayload_stuck (m := []) (code := fun _ => []) (text := []) (rest := inBits c) (k := 0)
      (dst := s.dst) nofun hpos kc rfl nofun
    rw [hstuck, hss.2.1, error_bind] at hbody
    exact faultsWith_of_error rfl hbody

/-- Settles O48: the entries before it are read into the map, where its code is found. -/
theorem decodeRejectsARepeatedCode : Obligations.DecodeRejectsARepeatedCode := by
  intro s total unique es e trail ho hp hd hn hu hm he hnd hmem hr
  have hsplit : restStream s.inp = bytesLe total 4 ++ bytesLe unique 2 ++
      es.flatMap (fun x => entryHead x ++ packBits x.bits) ++ (entryHead e ++ packBits e.bits ++ trail) := by
    rw [hr]; simp
  obtain ⟨hentry, hentries⟩ := List.forall_mem_cons.1 he
  obtain ⟨c, n, kc, -, hc, hstop⟩ := decodeBody_after_entries ho hp hd hn hu hm hentries hnd hsplit
  obtain ⟨c', g⟩ := getEntry_of_packed hentry kc hc
  have hin : e.bits ∈ (mapOf es).map MapEntry.bits := by simpa [mapOf] using hmem
  exact faultsWith_of_error rfl (hstop _ (getTable_of_repeated g hin))

/-- Settles O49: the pseudocode of the second state is that of the first, with the results put in. -/
theorem decoderUsesNoEncoderState : Obligations.DecoderUsesNoEncoderState := by
  intro s s' t t' hi hd hp he he' ht ht'
  have hlocal := decodeBody_local hi hd hp
  cases hbody : decodeBody s with
  | ok u =>
    have herr : u.err = none := (decodeBody_err hbody).trans he
    rw [hbody, ok_bind] at hlocal
    cases (exec_of_ok rfl hbody).symm.trans ht
    cases (exec_of_ok rfl hlocal).symm.trans ht'
    exact ⟨herr.trans he'.symm, fun _ => ⟨rfl, rfl, rfl, rfl, rfl, rfl, rfl, rfl, rfl⟩, fun h => absurd herr h⟩
  | error r =>
    rw [hbody, error_bind] at hlocal
    cases (exec_of_error rfl hbody).symm.trans ht
    cases (exec_of_error rfl hlocal).symm.trans ht'
    exact ⟨rfl, nofun, fun _ => rfl⟩

/-- Settles O51: `ROPEN` puts the reader before the container, `DECODE` reads it, `RCLOSE` keeps the position. -/
theorem decompressReadsTheContainer : Obligations.DecompressReadsTheContainer := by
  intro s total ct text code trail _ ht hd hne hm hl he hapart hc hload
  obtain ⟨t, hbody, hresult⟩ := decompressBody_container ht hd hne hm hl he hapart hc hload
  exact ⟨t, exec_of_ok rfl hbody, hresult⟩

/-- Settles O60: the table loop stops where its next entry is cut short or too long, the payload loop where no code
matches the bits left. -/
theorem decodeFaultsInTableAndPayload : Obligations.DecodeFaultsInTableAndPayload := by
  refine ⟨fun s total unique es tail ho hp hd hn hu hm he hnd hr => ?table,
    fun s total ct text code rest ho hp hn hd hne hm hl he hnd hc hs hpad hr => ?payload⟩
  case table =>
    obtain ⟨c, n, kc, ⟨-, hlen, -⟩, hc, hstop⟩ := decodeBody_after_entries ho hp hd hn hu hm he hnd hr
    obtain ⟨hcut, hcut2, hentry⟩ := getEntry_faults (d := s.params.dcodeMax) kc hc
    rw [hlen] at hcut hcut2 hentry
    have fault {code : Err} {info : Word} (h : getEntry s.params.dcodeMax c = .error ⟨code, info⟩) :
        FaultsWith .decode code info s :=
      faultsWith_of_error rfl (hstop _ (getTable_of_getEntry_error h))
    refine ⟨fun h => fault (hcut h), fun h => fault (hcut2 h), fun e rest htail => ?_⟩
    obtain ⟨hlong, hshort⟩ := hentry e rest htail
    exact ⟨fun h => fault (hlong h), fun h h' => fault (hshort h h')⟩
  case payload =>
    exact faultsWith_of_error rfl (decodeBody_payload_stuck ho hp hn hd hne hm hl he hnd hc hs hpad hr)
end

section
/-! SUPPORT. The registers after a reset (47_system.md R174), and O4, O6, O13 and O14. -/

namespace Sys2Proof.Machine

theorem statusWord_resetRegs (s : State) : statusWord (resetRegs s) = 0#32 := by
  simp [statusWord, flagBit, bitWord, errField]

/-- A reset makes every register 0; no stage flag counts as cleared, so `ROOT` and `ROOT_W` are defined. -/
theorem regValue_resetRegs (s : State) (i : Nat) : regValue (resetRegs s) i = 0#64 := by
  unfold regValue
  split <;> simp [rootStale, statusWord_resetRegs, chwWord, chrWord]

theorem sameContents_resetRegs (s : State) : SameContents s (resetRegs s) :=
  ⟨rfl, rfl, rfl, rfl, rfl, rfl, rfl, rfl, rfl⟩

theorem sameModelFields_resetRegs (s : State) : SameModelFields s (resetRegs s) := ⟨rfl, rfl, rfl, rfl⟩

end Sys2Proof.Machine

open Sys2Proof Sys2Proof.Machine

/-- Settles O6: `NOP` and `SRESET` have no pseudocode that could raise, and every other command ends as its pseudocode
does, in its result or in fault entry. -/
theorem everyCommandEndsInANextState : Obligations.EveryCommandEndsInANextState := by
  intro i s
  cases i with
  | nop => exact ⟨s, rfl⟩
  | sreset => exact ⟨resetRegs s, rfl⟩
  | _ => exact finish_isNext _ s _

/-- Settles O14: both resets are `resetRegs`. -/
theorem sresetIsTheHardwareReset : Obligations.SresetIsTheHardwareReset := by
  refine ⟨decode_encode .sreset, fun s => ⟨resetRegs s, rfl, fun i _ => regValue_resetRegs s i, ⟨rfl, rfl, rfl⟩,
    ⟨rfl, rfl, rfl⟩, ⟨rfl, rfl, rfl, rfl, rfl, rfl⟩, sameContents_resetRegs s, sameModelFields_resetRegs s, ?_⟩⟩
  rintro r rest hp rfl
  exact step_cons hp

/-- Settles O4: the step dispatches the word, and with no fault latched dispatch runs what it decodes to. -/
theorem stepRunsTheDecodedCommand : Obligations.StepRunsTheDecodedCommand := by
  intro s c rest i hp he hd
  exact (step_cmdWrite hp).trans (dispatch_of_decode he hd)

/-- Settles O13. -/
theorem nopDoesNothing : Obligations.NopDoesNothing := ⟨decode_encode .nop, fun _ => rfl⟩
end

section
/-! SUPPORT. The host's writes while no fault is latched, and what the interface does not offer (47_system.md R172); O53,
O54 and O56. -/

namespace Sys2Proof.Machine

variable {s t : State} {rest : List Event} {es damaged : List Elem}

/-! ## What is offered -/

theorem step_of_offered_writeReg {i : Nat} {v : BitVec 64} (hp : s.pending = .host (.writeReg i v) :: rest)
    (h : HostAction.offered s.params (.writeReg i v) = true) : step s = writeReg i v (afterEvent rest s) :=
  (step_cons hp).trans (if_pos h)

theorem step_of_offered_writeMem {m : MemName} {a : Nat} {b : Byte}
    (hp : s.pending = .host (.writeMem m a b) :: rest) (h : HostAction.offered s.params (.writeMem m a b) = true) :
    step s = writeMem m a b (afterEvent rest s) :=
  (step_cons hp).trans (if_pos h)

/-- What the interface does not offer is refused by name (log 13). -/
theorem step_of_not_offered {a : HostAction} (hp : s.pending = .host a :: rest) (h : a.offered s.params = false) :
    step s = .refused (.notOffered a) :=
  (step_cons hp).trans (if_neg (Bool.eq_false_iff.1 h))

theorem offered_writeMem_src {p : Params} {a : Nat} (h : a < p.srcCap) (b : Byte) :
    HostAction.offered p (.writeMem .src a b) = true := by simp [HostAction.offered, h]

theorem offered_writeMem_cbi {p : Params} {a : Nat} (h : a < p.cbiCap) (b : Byte) :
    HostAction.offered p (.writeMem .cbi a b) = true := by simp [HostAction.offered, h]

/-! ## The effect -/

theorem hostEffect_of_no_fault (he : s.err = none) : hostEffect es s t = t := by simp [hostEffect, he]

theorem cbiWrite_closed (he : s.err = none) (ho : s.inp.opened = false) : cbiWrite es damaged s t = t := by
  simp [cbiWrite, he, ho]

theorem cbiWrite_open (he : s.err = none) (ho : s.inp.opened = true) :
    cbiWrite es damaged s t = takeFault damaged ⟨.seq, 0x100#32⟩ s := by simp [cbiWrite, he, ho]

end Sys2Proof.Machine

open Sys2Proof Sys2Proof.Machine

/-- Settles O53: each of the three writes is offered, and takes effect since no fault is latched. -/
theorem hostWritesInvalidateTheStages : Obligations.HostWritesInvalidateTheStages := by
  intro s rest v a b he
  have he' : (afterEvent rest s).err = none := he
  refine ⟨fun hp => ?wdata, fun hp => ?srcLen, fun hp ha => ⟨Memory.write s.src a b, ?src, ?read⟩⟩
  case wdata =>
    rw [step_of_offered_writeReg hp (offered_writeReg (by decide) v), writeReg, hostEffect_of_no_fault he',
      setWidth_setWidth_word]
    rfl
  case srcLen =>
    rw [step_of_offered_writeReg hp (offered_writeReg (by decide) v), writeReg, hostEffect_of_no_fault he',
      setWidth_setWidth_word]
    rfl
  case src =>
    rw [step_of_offered_writeMem hp (offered_writeMem_src ha b), writeMem, hostEffect_of_no_fault he']
    rfl
  case read => exact fun k => byteAt_write .src s.src a k b

/-- Settles O54: both writes are offered, and what they do turns on the reader's open flag. -/
theorem hostWritesOfTheInputNeedAClosedReader : Obligations.HostWritesOfTheInputNeedAClosedReader := by
  intro s rest v a b he
  have he' : (afterEvent rest s).err = none := he
  refine ⟨fun ho => ?closed, fun ho => ?opened⟩
  case closed =>
    have ho' : (afterEvent rest s).inp.opened = false := ho
    refine ⟨fun hp => ?_, fun hp ha => ⟨Memory.write s.inp.cbi a b, ?_, fun k => byteAt_write .cbi s.inp.cbi a k b⟩⟩
    · rw [step_of_offered_writeReg hp rfl, writeReg, cbiWrite_closed he' ho']
      rfl
    · rw [step_of_offered_writeMem hp (offered_writeMem_cbi ha b), writeMem, cbiWrite_closed he' ho']
      rfl
  case opened =>
    have ho' : (afterEvent rest s).inp.opened = true := ho
    refine ⟨fun hp => ⟨Config.freeBits (s.fresh + 1) .cbiLen, ?_⟩, fun hp ha => ?_⟩
    · rw [step_of_offered_writeReg hp rfl, writeReg, cbiWrite_open he' ho']
      rfl
    · rw [step_of_offered_writeMem hp (offered_writeMem_cbi ha b), writeMem, cbiWrite_open he' ho']
      rfl

/-- Settles O56: none of the three is offered. -/
theorem foreignWritesAreNotOffered : Obligations.ForeignWritesAreNotOffered := by
  intro s rest i v m a b
  refine ⟨fun h0 h1 h5 h6 hp => step_of_not_offered hp ?_, fun hi hp => step_of_not_offered hp ?_,
    fun hm hp => step_of_not_offered hp ?_⟩
  · simp [HostAction.offered, h0, h1, h5, h6]
  · simpa [HostAction.offered] using hi
  · rcases hm with rfl | rfl <;> rfl
end

section
/-! SUPPORT. What the host's reads return (47_system.md R172 (a), (f), 10_state.md R28), and O55. -/

namespace Sys2Proof.Machine

/-- The counter of free values shows in no register but a stale `ROOT` or `ROOT_W` (log 9). -/
theorem regValue_afterEvent {s : State} {i : Nat} (h : i ≠ 16 ∧ i ≠ 17 ∨ rootStale s = false) (rest : List Event) :
    regValue (afterEvent rest s) i = regValue s i := by
  rcases h with ⟨hroot, hrootW⟩ | h
  · unfold regValue
    split
    any_goals rfl
    · exact absurd rfl hroot
    · exact absurd rfl hrootW
  · have h' : rootStale (afterEvent rest s) = false := h
    simp only [regValue, h, h']
    rfl

/-- A debug read below the table's length returns the entry while the stage flag is set. -/
theorem liveEntry?_getD {α : Type} {valid : Bool} {len i : Nat} {l : List α} (hv : valid = true) (hi : i < len)
    (hl : i < l.length) (d : α) : (liveEntry? valid len l i).getD d = l[i] := by simp [liveEntry?, hv, hi, hl]

end Sys2Proof.Machine

open Sys2Proof Sys2Proof.Machine

/-- Settles O55: a read is offered and writes `hostRead` only; the value is free only where the statement leaves it so. -/
theorem hostReadsHaveNoSideEffect : Obligations.HostReadsHaveNoSideEffect := by
  intro s rest
  refine ⟨fun i hi hp => ⟨regValue (afterEvent rest s) i, ?reg, fun h => ?regValue⟩,
    fun m a ha hp => ⟨readMemByte m a (afterEvent rest s), ?mem, ?src, ?cbi, ?cbo, ?dst⟩,
    fun tb i hp => ⟨readViewEntry tb i (afterEvent rest s), step_cons hp, ?freq, ?queue, ?node, ?code, ?dmap⟩⟩
  case reg => exact (step_cons hp).trans (if_pos (decide_eq_true hi))
  case regValue => exact regValue_afterEvent (h.imp_right fun ht => by simp [rootStale, ht]) rest
  case mem => exact (step_cons hp).trans (if_pos ha)
  case src => rintro rfl; rfl
  case cbi => rintro rfl; rfl
  case cbo => rintro rfl hl; exact if_pos hl
  case dst => rintro rfl hl; exact if_pos hl
  case freq =>
    rintro h rfl hv
    exact congrArg HostValue.count ((liveEntry?_getD hv h (by simpa using h) _).trans (Vector.getElem_toList _))
  case queue => rintro h rfl hv hi; exact congrArg HostValue.queue (liveEntry?_getD hv hi h _)
  case node => rintro h rfl hv hi; exact congrArg HostValue.node (liveEntry?_getD hv hi h _)
  case code => rintro h rfl hv hi; exact congrArg HostValue.code (liveEntry?_getD hv hi h _)
  case dmap => rintro h rfl hi; exact congrArg HostValue.map (liveEntry?_getD rfl hi h _)
end

section
/-! SUPPORT. The pseudocode of each command, and what it changes when it completes (60_exceptions.md R185); O8. -/

namespace Sys2Proof.Machine

/-- The pseudocode of a command. `NOP` and `SRESET` have nothing to raise (47_system.md R173, R174). -/
def bodyOf : Instr → State → Except Raise State
  | .nop => .ok
  | .sreset => fun s => .ok (resetRegs s)
  | .wopen => wopenBody
  | .wubyte => putBody 0x11#32 1
  | .wushort => putBody 0x12#32 2
  | .wuint => putBody 0x13#32 4
  | .wbit f => wbitBody f
  | .wclose => wcloseBody
  | .ropen => ropenBody
  | .rubyte => getBody 0x21#32 1
  | .rushort => getBody 0x22#32 2
  | .ruint => getBody 0x23#32 4
  | .rbit => rbitBody
  | .rclose => rcloseBody
  | .freq => freqBody
  | .sort => sortBody
  | .tree => treeBody
  | .codes => codesBody
  | .encode => encodeBody
  | .decode => decodeBody
  | .compress => compressBody
  | .decompress => decompressBody

theorem exec_eq_finish (i : Instr) (s : State) : exec i s = finish i s (bodyOf i s) := by cases i <;> rfl

/-! ## States that differ in listed elements only -/

/-- `s` and `t` differ in the listed elements only: overwriting those, with the same values in both,
makes them one state. -/
def SameBut (es : List Elem) (s t : State) : Prop := havoc es t = havoc es s

section
variable {es : List Elem} {s t : State}

@[simp] theorem sameBut_nil : SameBut [] s t ↔ t = s := Iff.rfl

@[simp] theorem sameBut_cons {e : Elem} : SameBut (e :: es) s t ↔ SameBut es (havocElem s e) (havocElem t e) := Iff.rfl

theorem Agree.symm {e : Elem} (h : Agree e s t) : Agree e t s := by
  cases e with
  | cbo | dst => exact fun a => (h a).symm
  | _ => exact Eq.symm h

theorem SameBut.agree (h : SameBut es s t) {e : Elem} (he : e ∉ es) : Agree e s t := by
  have hs := havoc_agree he s
  rw [← h] at hs
  exact hs.trans (havoc_agree he t).symm

theorem SameBut.err (h : SameBut es s t) : t.err = s.err := by
  rw [← havoc_err es t, h, havoc_err]

theorem SameBut.errInfo (h : SameBut es s t) : t.errInfo = s.errInfo := by
  rw [← havoc_errInfo es t, h, havoc_errInfo]

theorem SameBut.sameModelFields (h : SameBut es s t) : SameModelFields s t := by
  refine ⟨?_, ?_, ?_, ?_⟩
  · rw [← havoc_params es t, h, havoc_params]
  · rw [← havoc_pending es t, h, havoc_pending]
  · rw [← havoc_hostRead es t, h, havoc_hostRead]
  · rw [← havoc_fresh es t, h, havoc_fresh]

/-! ## The pseudocode of each command, completed -/

theorem wopenBody_sameBut (h : wopenBody s = .ok t) : SameBut (writesOf .wopen) s t := by
  obtain ⟨-, rfl⟩ := wopenBody_ok.1 h
  simp [writesOf, havocElem]

/-- A step on the writer that keeps its open flag. -/
theorem sameBut_out {c : OutChannel} (h : c.opened = s.out.opened) :
    SameBut [.wAcc, .wCnt, .cbo, .cboLen] s { s with out := c } := by
  simp [havocElem, h]

theorem putBody_sameBut {op : Word} {n : Nat} (h : putBody op n s = .ok t) :
    SameBut [.wAcc, .wCnt, .cbo, .cboLen] s t := by
  obtain ⟨-, c, hc, rfl⟩ := putBody_ok.1 h
  exact sameBut_out (put_opened hc)

theorem wbitBody_sameBut {f : Bool} (h : wbitBody f s = .ok t) : SameBut (writesOf (.wbit f)) s t := by
  obtain ⟨-, -, c, hc, rfl⟩ := wbitBody_ok.1 h
  exact sameBut_out (putBit_opened hc)

theorem wcloseBody_sameBut (h : wcloseBody s = .ok t) : SameBut (writesOf .wclose) s t := by
  obtain ⟨-, c, -, rfl⟩ := wcloseBody_ok.1 h
  simp [writesOf, havocElem]

theorem ropenBody_sameBut (h : ropenBody s = .ok t) : SameBut (writesOf .ropen) s t := by
  obtain ⟨-, -, rfl⟩ := ropenBody_ok.1 h
  simp [writesOf, havocElem]

/-- A step on the reader that keeps its stream and its open flag, with its result in `RDATA`. -/
theorem SameStream.sameBut {c : InChannel} (h : SameStream s.inp c) (v : Word) :
    SameBut [.rdata, .rBuf, .rCnt, .rPos] s { s with rdata := v, inp := c } := by
  obtain ⟨hcbi, hlen, ho⟩ := h
  simp [havocElem, hcbi, hlen, ho]

theorem getBody_sameBut {op : Word} {n : Nat} (h : getBody op n s = .ok t) :
    SameBut [.rdata, .rBuf, .rCnt, .rPos] s t := by
  obtain ⟨-, v, c, hc, rfl⟩ := getBody_ok.1 h
  exact (get_sameStream hc).sameBut v

theorem rbitBody_sameBut (h : rbitBody s = .ok t) : SameBut (writesOf .rbit) s t := by
  obtain ⟨-, b, c, hc, rfl⟩ := rbitBody_ok.1 h
  exact (getBit_sameStream hc).sameBut (bitWord b)

theorem rcloseBody_sameBut (h : rcloseBody s = .ok t) : SameBut (writesOf .rclose) s t := by
  obtain ⟨-, rfl⟩ := rcloseBody_ok.1 h
  simp [writesOf, havocElem]

theorem freqBody_sameBut (h : freqBody s = .ok t) : SameBut (writesOf .freq) s t := by
  obtain ⟨-, -, rfl⟩ := freqBody_ok.1 h
  simp [writesOf, havocElem]

theorem sortBody_sameBut (h : sortBody s = .ok t) : SameBut (writesOf .sort) s t := by
  obtain ⟨-, rfl⟩ := sortBody_ok.1 h
  simp [writesOf, havocElem]

theorem treeBody_sameBut (h : treeBody s = .ok t) : SameBut (writesOf .tree) s t := by
  obtain ⟨-, rfl⟩ := treeBody_ok.1 h
  simp [writesOf, havocElem]

theorem codesBody_sameBut (h : codesBody s = .ok t) : SameBut (writesOf .codes) s t := by
  obtain ⟨-, rfl⟩ := codesBody_ok.1 h
  simp [writesOf, havocElem]

theorem encodeBody_sameBut (h : encodeBody s = .ok t) : SameBut (writesOf .encode) s t := by
  obtain ⟨-, -, c, -, rfl⟩ := encodeBody_ok.1 h
  simp [writesOf, havocElem]

theorem decodeBody_sameBut (h : decodeBody s = .ok t) : SameBut (writesOf .decode) s t := by
  rw [decodeBody_frame h]
  simp [writesOf, havocElem]

theorem compressBody_sameBut (h : compressBody s = .ok t) : SameBut (writesOf .compress) s t := by
  rw [compressBody_frame h]
  simp [writesOf, havocElem]

theorem decompressBody_sameBut (h : decompressBody s = .ok t) : SameBut (writesOf .decompress) s t := by
  rw [decompressBody_frame h]
  simp [writesOf, havocElem]

end

/-- A command that completes changes nothing but what its rule lists as written; `SRESET` is no such command. -/
theorem bodyOf_sameBut {i : Instr} (hi : i ≠ .sreset) {s t : State} (h : bodyOf i s = .ok t) :
    SameBut (writesOf i) s t := by
  cases i with
  | nop => cases h; rfl
  | sreset => exact absurd rfl hi
  | wopen => exact wopenBody_sameBut h
  | wubyte | wushort | wuint => exact putBody_sameBut h
  | wbit f => exact wbitBody_sameBut h
  | wclose => exact wcloseBody_sameBut h
  | ropen => exact ropenBody_sameBut h
  | rubyte | rushort | ruint => exact getBody_sameBut h
  | rbit => exact rbitBody_sameBut h
  | rclose => exact rcloseBody_sameBut h
  | freq => exact freqBody_sameBut h
  | sort => exact sortBody_sameBut h
  | tree => exact treeBody_sameBut h
  | codes => exact codesBody_sameBut h
  | encode => exact encodeBody_sameBut h
  | decode => exact decodeBody_sameBut h
  | compress => exact compressBody_sameBut h
  | decompress => exact decompressBody_sameBut h

end Sys2Proof.Machine

open Sys2Proof Sys2Proof.Machine

/-- Settles O8: a command that completes changes listed elements only, and so does fault entry, which besides leaves
`STATUS.ERR` set. -/
theorem unwrittenStateSurvivesEveryCommand : Obligations.UnwrittenStateSurvivesEveryCommand := by
  intro i s t hi h
  rw [exec_eq_finish] at h
  rcases finish_next h with hok | ⟨r, -, rfl⟩
  · have hsame := bodyOf_sameBut hi hok
    exact ⟨fun e he => hsame.agree he, hsame.sameModelFields, fun ht => ⟨hsame.err ▸ ht, hsame.errInfo⟩⟩
  · exact ⟨fun e he => takeFault_agree he r s, takeFault_sameModelFields _ r s, nofun⟩
end

section
/-! SUPPORT. Which faults the pseudocode of each command raises (60_exceptions.md R181), and O7. -/

namespace Sys2Proof.Machine

section
variable {s : State} {r : Raise}

/-! ## The writer commands -/

theorem putBody_code {op : Word} {n : Nat} (h : putBody op n s = .error r) :
    r.code ∈ [Err.closed, .range, .capacity] := by
  rcases putBody_error.1 h with ⟨-, rfl⟩ | ⟨-, hput⟩
  · simp
  · rcases put_error hput with ⟨-, rfl⟩ | ⟨-, rfl⟩ <;> simp

/-- Every operand fits in the four bytes of `WUINT` (40_channel_writer.md R88). -/
theorem putBody_four_code {op : Word} (h : putBody op 4 s = .error r) : r.code ∈ [Err.closed, .capacity] := by
  rcases putBody_error.1 h with ⟨-, rfl⟩ | ⟨-, hput⟩
  · simp
  · rcases put_error hput with ⟨hbig, -⟩ | ⟨-, rfl⟩
    · exact absurd s.wdata.isLt (not_lt.2 hbig)
    · simp

theorem wbitBody_code {f : Bool} (h : wbitBody f s = .error r) : r.code ∈ [Err.closed, .bitValue, .capacity] := by
  rcases wbitBody_error.1 h with ⟨-, rfl⟩ | ⟨-, -, rfl⟩ | ⟨-, -, hput⟩
  · simp
  · simp
  · obtain ⟨-, -, rfl⟩ := putBit_eq_error.1 hput
    simp

theorem wcloseBody_code (h : wcloseBody s = .error r) : r.code ∈ [Err.closed, .capacity] := by
  rcases wcloseBody_error.1 h with ⟨-, rfl⟩ | ⟨-, hflush⟩
  · simp
  · obtain ⟨-, rfl⟩ := flush_eq_error.1 hflush
    simp

/-! ## The reader commands -/

theorem ropenBody_code (h : ropenBody s = .error r) : r.code ∈ [Err.seq, .capacity] := by
  rcases ropenBody_error.1 h with ⟨-, rfl⟩ | ⟨-, -, rfl⟩ <;> simp

theorem getBody_code {op : Word} {n : Nat} (h : getBody op n s = .error r) : r.code ∈ [Err.closed, .truncated] := by
  rcases getBody_error.1 h with ⟨-, rfl⟩ | ⟨-, hget⟩
  · simp
  · obtain ⟨-, rfl⟩ := get_eq_error.1 hget
    simp

theorem rbitBody_code (h : rbitBody s = .error r) : r.code ∈ [Err.closed, .truncated] := by
  rcases rbitBody_error.1 h with ⟨-, rfl⟩ | ⟨-, hget⟩
  · simp
  · obtain ⟨-, rfl⟩ := getBit_eq_error.1 hget
    simp

/-! ## The stages and the containers -/

theorem freqBody_code (h : freqBody s = .error r) : r.code ∈ [Err.capacity, .emptyInput] := by
  rcases freqBody_error.1 h with ⟨-, rfl⟩ | ⟨-, rfl⟩ <;> simp

theorem encodeBody_code (h : encodeBody s = .error r) :
    r.code ∈ [Err.seq, .closed, .capacity] ∧ (s.ctV = true → s.out.opened = true → r.code = .capacity) := by
  rcases encodeBody_error.1 h with ⟨hv, rfl⟩ | ⟨-, ho, rfl⟩ | ⟨-, -, hput⟩
  · simp [hv]
  · simp [ho]
  · simp [putContainer_error hput]

/-- Inside `COMPRESS` the encoder finds the table of `CODES` and the writer that `WOPEN` opened, so it can stop for want
of room only (45_encoder.md R145). -/
theorem compressBody_code (h : compressBody s = .error r) : r.code ∈ [Err.capacity, .emptyInput, .seq] := by
  simp only [compressBody, bind_eq_error] at h
  rcases h with h | ⟨a, ha, h | ⟨b, hb, h | ⟨c, hc, h | ⟨d, hd, h | ⟨e, he, h⟩⟩⟩⟩⟩
  · exact List.mem_append_left [.seq] (freqBody_code h)
  · obtain ⟨-, rfl⟩ := sortBody_error.1 h
    simp
  · obtain ⟨-, rfl⟩ := treeBody_error.1 h
    simp
  · obtain ⟨-, rfl⟩ := codesBody_error.1 h
    simp
  · obtain ⟨-, rfl⟩ := wopenBody_error.1 h
    simp
  · obtain ⟨-, rfl⟩ := codesBody_ok.1 hd
    obtain ⟨-, rfl⟩ := wopenBody_ok.1 he
    simp [(encodeBody_code h).2 rfl rfl]

/-- Inside `DECOMPRESS` the reader is open from `ROPEN` to `RCLOSE` (46_decoder.md R160). -/
theorem decompressBody_code (h : decompressBody s = .error r) :
    r.code ∈ [Err.seq, .capacity, .noHeader, .truncated, .dupCode] := by
  simp only [decompressBody, bind_eq_error] at h
  rcases h with h | ⟨a, ha, h | ⟨b, hb, h⟩⟩
  · exact List.mem_append_left [.noHeader, .truncated, .dupCode] (ropenBody_code h)
  · obtain ⟨-, -, rfl⟩ := ropenBody_ok.1 ha
    obtain ⟨hcode, hopen⟩ := decodeBody_code h
    have hsub :
        [Err.noHeader, .capacity, .truncated, .dupCode] ⊆ [.seq, .capacity, .noHeader, .truncated, .dupCode] := by decide
    exact hsub ((List.mem_cons.1 hcode).resolve_left (hopen rfl))
  · obtain ⟨-, -, rfl⟩ := ropenBody_ok.1 ha
    have hopen := (rcloseBody_error.1 h).1
    rw [decodeBody_frame hb] at hopen
    cases hopen

end

/-! ## Every command -/

/-- A command that completes latches no fault. -/
theorem err_of_bodyOf_ok {i : Instr} {s t : State} (he : s.err = none) (h : bodyOf i s = .ok t) : t.err = none := by
  by_cases hi : i = .sreset
  · subst hi; cases h; rfl
  · exact (bodyOf_sameBut hi h).err.trans he

/-- A fault that a command latches is one its pseudocode raised. -/
theorem raise_of_latched {i : Instr} {s t : State} {e : Err} (he : s.err = none) (h : exec i s = .next t)
    (ht : t.err = some e) : ∃ r, bodyOf i s = .error r ∧ r.code = e := by
  rw [exec_eq_finish] at h
  rcases finish_next h with hok | ⟨r, hr, rfl⟩
  · rw [err_of_bodyOf_ok he hok] at ht
    cases ht
  · exact ⟨r, hr, Option.some.inj ht⟩

end Sys2Proof.Machine

open Sys2Proof Sys2Proof.Machine

/-- Settles O7: what is latched after a command is what its pseudocode raised. -/
theorem faultsEachCommandCanRaise : Obligations.FaultsEachCommandCanRaise := by
  intro i s t e he h ht
  obtain ⟨r, hr, rfl⟩ := raise_of_latched he h ht
  cases i with
  | nop | sreset => cases hr
  | wopen => simp [(wopenBody_error.1 hr).2]
  | wubyte | wushort => exact putBody_code hr
  | wuint => exact putBody_four_code hr
  | wbit f => exact wbitBody_code hr
  | wclose => exact wcloseBody_code hr
  | ropen => exact ropenBody_code hr
  | rubyte | rushort | ruint => exact getBody_code hr
  | rbit => exact rbitBody_code hr
  | rclose => simp [(rcloseBody_error.1 hr).2]
  | freq => exact freqBody_code hr
  | sort => simp [(sortBody_error.1 hr).2]
  | tree => simp [(treeBody_error.1 hr).2]
  | codes => simp [(codesBody_error.1 hr).2]
  | encode => exact (encodeBody_code hr).1
  | decode => exact (decodeBody_code hr).1
  | compress => exact compressBody_code hr
  | decompress => exact decompressBody_code hr
end

section
/-! SUPPORT. The state after power-up, and O15 and O58 (70_reset_and_hazards.md R200, R201). -/

namespace Sys2Proof.Machine

theorem reset_memoriesOk : MemoriesOk State.reset := by
  simp [MemoriesOk, State.reset, Memory.wf, Memory.within]

end Sys2Proof.Machine

open Sys2Proof Sys2Proof.Machine

/-- Settles O15: the power-up state is the one every reset makes, and a step takes nothing off an empty list. -/
theorem powerUpRegistersAreZeroAndIdle : Obligations.PowerUpRegistersAreZeroAndIdle :=
  ⟨⟨fun i _ => regValue_resetRegs State.reset i, rfl, rfl, rfl, rfl, rfl, rfl, rfl, rfl, rfl, rfl, rfl, rfl⟩,
    fun _ => step_nil⟩

/-- Settles O58: a reset establishes the invariant from legal parameters and well-formed memories. -/
theorem resetMeetsTheInvariant : Obligations.ResetMeetsTheInvariant :=
  resetRegs_inv (s := State.reset) defaultParams_wellFormed reset_memoriesOk
end

section
/-! SUPPORT. What a hardware reset during a command keeps (70_reset_and_hazards.md R202), and O16. -/

namespace Sys2Proof.Machine

/-- Overwriting what a command can write keeps every other memory, as its fault entry does, whatever the fault. -/
theorem havoc_sameMemories (i : Instr) (s : State) : SameMemories (writesOf i) s (havoc (writesOf i) s) := by
  obtain ⟨hsrc, hcbi, hdst, hcbo⟩ := takeFault_sameMemories i ⟨.illegal, 0#32⟩ s
  exact ⟨hsrc, hcbi, hdst, hcbo⟩

/-- An abandoned command leaves the reset of a state that differs from the one before it in what it could write. -/
theorem abandon_eq_resetRegs {c : Word} {i : Instr} (hd : decode c = .ok i) (s : State) :
    ∃ u, abandon c s = resetRegs u ∧ SameMemories (writesOf i) s u ∧ ∀ e, e ∉ writesOf i → Agree e s u := by
  cases he : s.err with
  | some e => exact ⟨s, by simp [abandon, he], .of_eq rfl rfl rfl rfl, fun e _ => Agree.refl e s⟩
  | none =>
    exact ⟨havoc (writesOf i) s, by simp [abandon, he, hd], havoc_sameMemories i s, fun _ h => havoc_agree h s⟩

end Sys2Proof.Machine

open Sys2Proof Sys2Proof.Machine

/-- Settles O16: the abandoned command reached only what it could write, and the reset zeroes registers, not memories
and tables. -/
theorem hardwareResetAbandonsACommand : Obligations.HardwareResetAbandonsACommand := by
  intro s c i rest hp hd
  obtain ⟨u, hu, ⟨hsrc, hcbi, hdst, hcbo⟩, hagree⟩ := abandon_eq_resetRegs hd (afterEvent rest s)
  have hstep : step s = .next (resetRegs u) := by rw [step_cons hp, perform, hu]
  exact ⟨resetRegs u, hstep, fun k _ => regValue_resetRegs u k, rfl, rfl, rfl, hsrc, hcbi, hcbo, hdst, hagree .freq,
    hagree .queue, hagree .nodes, hagree .ct, hagree .dmap⟩
end

section
/-! SUPPORT. What happens while a fault is latched (60_exceptions.md R186, 47_system.md R172), and O5. -/

namespace Sys2Proof.Machine

/-- `t` has the latched fault and the `ERR_INFO` of `s`. -/
def SameFault (s t : State) : Prop := t.err = s.err ∧ t.errInfo = s.errInfo

section
variable {s t : State} {e : Err}

theorem SameFault.refl (s : State) : SameFault s s := ⟨rfl, rfl⟩

theorem havoc_sameFault (es : List Elem) (s : State) : SameFault s (havoc es s) :=
  ⟨havoc_err es s, havoc_errInfo es s⟩

theorem hostEffect_latched (he : s.err = some e) (es : List Elem) (t : State) : hostEffect es s t = havoc es s := by
  simp [hostEffect, he]

theorem cbiWrite_latched (he : s.err = some e) (es damaged : List Elem) (t : State) :
    cbiWrite es damaged s t = havoc es s := by simp [cbiWrite, he]

/-- A register write under a latched fault keeps it, unless it writes `SRESET` to `CMD`. -/
theorem writeReg_latched {i : Nat} {v : BitVec 64} (he : s.err = some e) (hv : i = 0 → v.setWidth 32 ≠ sresetWord)
    (h : writeReg i v s = .next t) : SameFault s t := by
  unfold writeReg at h
  split at h
  · rw [dispatch_latched he, if_neg (hv rfl)] at h
    cases h; exact .refl s
  · rw [hostEffect_latched he] at h
    cases h; exact havoc_sameFault _ s
  · rw [hostEffect_latched he] at h
    cases h; exact havoc_sameFault _ s
  · rw [cbiWrite_latched he] at h
    cases h; exact havoc_sameFault _ s
  · cases h

theorem writeMem_latched {m : MemName} {a : Nat} {b : Byte} (he : s.err = some e) (h : writeMem m a b s = .next t) :
    SameFault s t := by
  cases m with
  | src =>
    rw [writeMem, hostEffect_latched he] at h
    cases h; exact havoc_sameFault _ s
  | cbi =>
    rw [writeMem, cbiWrite_latched he] at h
    cases h; exact havoc_sameFault _ s
  | cbo | dst => cases h

/-- The one value of 32 bits that `CMD` takes for `SRESET` (47_system.md R172 (b); log 21). -/
theorem eq_one_of_offered {p : Params} {v : BitVec 64} (h : HostAction.offered p (.writeReg 0 v) = true)
    (hv : v.setWidth 32 = sresetWord) : v = 0x00000001#64 := by
  have hlt : v.toNat < 2 ^ 32 := by simpa [HostAction.offered] using h
  have hmod := congrArg BitVec.toNat hv
  rw [BitVec.toNat_setWidth, Nat.mod_eq_of_lt hlt] at hmod
  exact BitVec.eq_of_toNat_eq hmod

theorem hostAction_latched {a : HostAction} (he : s.err = some e) (ha : a ≠ .writeReg 0 0x00000001#64)
    (h : hostAction a s = .next t) : SameFault s t := by
  unfold hostAction at h
  split at h
  · next hoff =>
    cases a with
    | readReg i => cases h; exact ⟨rfl, rfl⟩
    | writeReg i v =>
      refine writeReg_latched he (fun hi hv => ha ?_) h
      subst hi
      rw [eq_one_of_offered hoff hv]
    | readMem m i =>
      simp only at h
      split at h
      · cases h; exact ⟨rfl, rfl⟩
      · cases h
    | readView tb i => cases h; exact ⟨rfl, rfl⟩
    | writeMem m i b => exact writeMem_latched he h
  · cases h

end

end Sys2Proof.Machine

open Sys2Proof Sys2Proof.Machine

/-- Settles O5: besides the resets only host actions are left, and under a latched fault their writes are havoc, which
does not reach the fault. -/
theorem latchedFaultIgnoresCommands : Obligations.LatchedFaultIgnoresCommands := by
  refine ⟨fun s e c he => dispatch_latched he, fun s t e ev rest he hp hsreset hreset hduring h => ?_⟩
  rw [step_cons hp] at h
  cases ev with
  | host a =>
    obtain ⟨herr, hinfo⟩ := hostAction_latched (s := afterEvent rest s) he (fun ha => hsreset (ha ▸ rfl)) h
    exact ⟨herr.trans he, hinfo⟩
  | hardReset => exact absurd rfl hreset
  | hardResetDuring c => exact absurd rfl (hduring c)
end
